-- ==== Sys2Proof/Word.lean ====
section
/-! DEFINITION. The word types of the FB64 engine: bytes, 32-bit words, 6-bit symbols, and the 64-bit
container of an AW-bit address or length. -/

namespace Sys2Proof

/-- A byte, and a character (00_scope.md R8). -/
abbrev Byte := BitVec 8

/-- A table word or a 32-bit register (10_state.md R22). -/
abbrev Word := BitVec 32

/-- A symbol value or a 6-bit index (00_scope.md R8). -/
abbrev Sym := BitVec 6

/-- The container of an AW-bit address, length, count or cursor (10_state.md R22). AW is at most 64
(00_scope.md R7); the bits above AW are zero in every state that meets `Inv`.
DESIGN CHOICE, safe: log entry 2. -/
abbrev Addr := BitVec 64

end Sys2Proof
end

