-- ==== Sys2Proof/Config.lean ====
section
/-! DEFINITION. What an implementation fixes (the address width AW) and the free values: what the spec
calls unspecified, as constants without a body. -/

namespace Sys2Proof

/-- The parameter AW, with its range (00_scope.md R7: 8 <= AW <= 64). -/
structure AddrWidth where
  bits : Nat
  atLeast8 : 8 ≤ bits
  atMost64 : bits ≤ 64
  deriving DecidableEq, Repr

/-- The recommended AW (00_scope.md R7). -/
def AddrWidth.recommended : AddrWidth := ⟨32, by decide, by decide⟩

/-- FREE VALUE: what a read of an AW-bit register that holds no value returns (10_state.md R45), before
it is cut to AW bits. Safe: log entry 7. -/
opaque Config.freeAddr : Nat → Addr

/-- FREE VALUE: what a read of a 32-bit register that holds no value returns (10_state.md R43, R45).
Safe: log entry 7. -/
opaque Config.freeWord : Nat → Word

/-- FREE VALUE: which engine steps first when both are BUSY and the schedule names neither
(60_exceptions.md R187: no order is fixed); true is DEC. Safe: log entry 4. -/
opaque Config.freeTurn : Nat → Bool

end Sys2Proof
end

