-- ==== Sys2Proof/Syntax.lean ====
section
/-! DEFINITION. The four commands (the instructions of this hardware, 00_scope.md R14), the fields of the
one command format, and the names of the reserved encodings. -/

namespace Sys2Proof

/-- The commands, one constructor per row of the opcode table (30_encoding.md R77). `url` selects the
URL-safe alphabet (R73), `np` padding off (R74). -/
inductive Instr where
  | decode
  | dec4
  | encode (url np : Bool)
  | enc3 (url : Bool)
  deriving DecidableEq, Repr

/-- The fields of the command format `C` (30_encoding.md R71). -/
structure CommandFields where
  rsv : BitVec 3
  np  : Bool
  url : Bool
  eng : Bool
  fn  : BitVec 2
  deriving DecidableEq, Repr

/-- Why a command byte is reserved (30_encoding.md R78). -/
inductive Reserved where
  /-- `RSV` is not zero. -/
  | rsvNotZero
  /-- `FN` is 0b00 or 0b11. -/
  | fnReserved
  /-- `URL` or `NP` is set in a decode command. -/
  | modeBitInDecode
  /-- `NP` is set in `ENC3`. -/
  | npInEnc3
  deriving DecidableEq, Repr

end Sys2Proof
end

