-- ==== Sys2Proof/WellFormed.lean ====
section
/-! DEFINITION. When the fields of a command byte are a legal command (30_encoding.md R78), one check per
reserved case, and the fields of each command. -/

namespace Sys2Proof

/-- `RSV` must be 0b000 (30_encoding.md R71, R78). -/
def CommandFields.rsvZero (f : CommandFields) : Bool := f.rsv == 0

/-- `FN` must be 0b01 or 0b10 (30_encoding.md R71, R78). -/
def CommandFields.fnUsed (f : CommandFields) : Bool := f.fn == 1 || f.fn == 2

/-- `URL` and `NP` must be 0 in a decode command (30_encoding.md R73, R74, R78). -/
def CommandFields.decodeModeClear (f : CommandFields) : Bool := f.eng || (!f.url && !f.np)

/-- `NP` must be 0 in `ENC3` (30_encoding.md R74, R78). -/
def CommandFields.enc3PadClear (f : CommandFields) : Bool := !(f.eng && f.fn == 2 && f.np)

/-- The fields are not reserved (30_encoding.md R78). -/
def CommandFields.legal (f : CommandFields) : Bool :=
  f.rsvZero && f.fnUsed && f.decodeModeClear && f.enc3PadClear

/-- The fields of a command (30_encoding.md R72, R73, R74). -/
def Instr.fields : Instr → CommandFields
  | .decode => ⟨0, false, false, false, 1⟩
  | .dec4 => ⟨0, false, false, false, 2⟩
  | .encode url np => ⟨0, np, url, true, 1⟩
  | .enc3 url => ⟨0, false, url, true, 2⟩

/-- A command is well-formed when its fields are legal. -/
abbrev Instr.WellFormed (i : Instr) : Prop := i.fields.legal = true

end Sys2Proof
end

