-- ==== Sys2Proof/Decode.lean ====
section
/-! DEFINITION. The command decoder, total on every byte, refusing reserved bytes by name, and the
encoder (30_encoding.md R71, R72, R77, R78). -/

namespace Sys2Proof

/-- The fields of a command byte (30_encoding.md R71). -/
def fieldsOf (b : Byte) : CommandFields where
  rsv := b.extractLsb' 5 3
  np := b.getLsbD 4
  url := b.getLsbD 3
  eng := b.getLsbD 2
  fn := b.extractLsb' 0 2

/-- The command byte of the fields (30_encoding.md R71), most significant field first. -/
def packFields (f : CommandFields) : Byte :=
  f.rsv ++ BitVec.ofBool f.np ++ BitVec.ofBool f.url ++ BitVec.ofBool f.eng ++ f.fn

/-- The command selected by the fields, or the reason they are reserved (30_encoding.md R72, R78). -/
def decodeFields (f : CommandFields) : Except Reserved Instr :=
  if !f.rsvZero then .error .rsvNotZero
  else if !f.fnUsed then .error .fnReserved
  else if !f.decodeModeClear then .error .modeBitInDecode
  else if !f.enc3PadClear then .error .npInEnc3
  else if f.eng then
    (if f.fn == 1 then .ok (.encode f.url f.np) else .ok (.enc3 f.url))
  else
    (if f.fn == 1 then .ok .decode else .ok .dec4)

/-- The command a byte stands for (30_encoding.md R77, R78). -/
def decodeCommand (b : Byte) : Except Reserved Instr := decodeFields (fieldsOf b)

/-- The byte of a command (30_encoding.md R77). -/
def encode (i : Instr) : Byte := packFields i.fields

/-- The command byte of a table word of `nbits` bits; the bits above `nbits` are zero. -/
def commandByte (nbits w : Nat) : Byte := BitVec.ofNat 8 (w % 2 ^ nbits)

/-- The instruction the decoder reads from a table word (one command length, 8 bits: 30_encoding.md R79). -/
def decodeTableWord (nbits w : Nat) : Option Instr :=
  match decodeCommand (commandByte nbits w) with
  | .ok i => some i
  | .error _ => none

end Sys2Proof
end

