-- ==== Sys2Proof/Machine/State.lean ====
section
/-! DEFINITION. The state of the FB64 engine and its system as plain data (10_state.md R20), the faults
and refusals, and the state right after reset (10_state.md R43). -/

namespace Sys2Proof.Machine

/-- The phase of an engine (10_state.md R27); 0b11 never occurs (93_implementation_defined.md U12). -/
inductive Phase where
  | idle
  | busy
  | done
  deriving DecidableEq, Repr

/-- A register that the spec gives no reset value: its contents, and whether anything has written it
since reset (10_state.md R43, R45). -/
structure Held (α : Type) where
  val : α
  written : Bool
  deriving DecidableEq, Repr

/-- The D bank: registers 1 to 7 and the internal decode state (10_state.md R21, R33). -/
structure DBank where
  /-- `DSTATUS`[1:0]. -/
  dphase : Phase
  /-- `DSTATUS`[2], the result bit. -/
  inv : Bool
  dsrc : Held Addr
  dlen : Held Addr
  ddst : Held Addr
  doutlen : Addr
  ddin : Held Word
  ddout : Held Word
  /-- Internal: the input cursor of DEC. -/
  didx : Addr
  /-- Internal: the accumulated bad-bit. -/
  dbad : Bool
  deriving DecidableEq, Repr

/-- The E bank: registers 9 to 15 and the internal encode state (10_state.md R21, R33). -/
structure EBank where
  /-- `ESTATUS`[1:0]. -/
  ephase : Phase
  esrc : Held Addr
  elen : Held Addr
  edst : Held Addr
  eoutlen : Addr
  edin : Held Word
  edout : Held Word
  /-- Internal: the input cursor of ENC. -/
  eidx : Addr
  /-- Internal: the alphabet of the running `ENCODE`. -/
  eurl : Bool
  /-- Internal: padding off in the running `ENCODE`. -/
  enp : Bool
  deriving DecidableEq, Repr

/-- A range of memory: its first address and its length in bytes. -/
structure Region where
  base : Nat
  len : Nat
  deriving DecidableEq, Repr

/-- The input and the output range of an accepted `DECODE` or `ENCODE` (20_memory.md R59, R67). -/
structure Call where
  input : Region
  output : Region
  deriving DecidableEq, Repr

/-- Main memory (20_memory.md R51): the bytes that differ from what an unlisted address reads as, by
strictly rising address. -/
abbrev Memory := List Host.Cell

/-- A value on the register port, of exactly the register's width (10_state.md R22). -/
inductive RegVal where
  /-- 8 bits: `CMD`, `DSTATUS`, `ESTATUS`. -/
  | byte (v : Byte)
  /-- AW bits: addresses, lengths, counts. -/
  | addr (v : Addr)
  /-- 32 bits: the block registers. -/
  | word (v : Word)
  deriving DecidableEq, Repr

/-- What can happen next: one atomic transition of the system (70_reset_and_hazards.md R210), and the
host's (de)allocation of buffers (00_scope.md R3; log entry 9). -/
inductive Event where
  /-- `RegRead(n)` (10_state.md R40). -/
  | regRead (n : Nat)
  /-- `RegWrite(n, v)` (10_state.md R41); with `n` = 0 it issues a command. -/
  | regWrite (n : Nat) (v : RegVal)
  /-- The host reads one byte of memory. -/
  | memRead (a : Nat)
  /-- The host writes one byte of memory. -/
  | memWrite (a : Nat) (b : Byte)
  /-- The host allocates or frees storage: from now on exactly the bytes outside `rs` are its own. -/
  | setUnowned (rs : List Region)
  /-- DEC has the next turn. -/
  | decTurn
  /-- ENC has the next turn. -/
  | encTurn
  /-- `RESET` (70_reset_and_hazards.md R195). -/
  | reset
  deriving DecidableEq, Repr

/-- Why the machine stops with a fault. -/
inductive Fault where
  /-- An access at or above 2^AW: no such byte exists (20_memory.md R51). Raised by a host memory access
  and by an engine step whose range leaves memory (never a step of an accepted call). Safe. -/
  | outsideMemory (a : Nat)
  deriving DecidableEq, Repr

/-- Why a step is refused: the spec gives it no next state (00_scope.md R13). Every one of these is safe. -/
inductive Refusal where
  /-- No meaning yet. Raised by no arm of `exec`. Safe. -/
  | notModelled (mnemonic : String)
  /-- A reserved command byte (30_encoding.md R78). Raised by a write of `CMD`. Safe. -/
  | reservedCommand (why : Reserved)
  /-- A command to a bank whose engine is BUSY (30_encoding.md R82). Raised by all four commands. Safe. -/
  | bankBusy
  /-- An operand register that nothing has written since reset (10_state.md R45). Raised by all four commands. Safe. -/
  | operandUnwritten
  /-- A buffer that passes the top of the address space (20_memory.md R55). Raised by `DECODE`, `ENCODE`. Safe. -/
  | bufferWraps
  /-- An input buffer outside the host's own ordinary storage (20_memory.md R51, R65). Raised by `DECODE`, `ENCODE`. Safe. -/
  | inputNotOwned
  /-- Fewer owned bytes at the destination than the size function's value (20_memory.md R58, R65). Raised by `DECODE`, `ENCODE`. Safe. -/
  | capacityTooSmall
  /-- Input and output overlap (20_memory.md R56, R57). Raised by `DECODE`, `ENCODE`. Safe. -/
  | buffersOverlap
  /-- A range conflicts with the other engine's running call (20_memory.md R66). Raised by `DECODE`, `ENCODE`. Safe. -/
  | concurrentOverlap
  /-- A read of `CMD` (10_state.md R40). Raised by `RegRead`. Safe. -/
  | readOfCommand
  /-- Register number 8 or above 15 (10_state.md R42). Raised by `RegRead`, `RegWrite`. Safe. -/
  | reservedRegister (n : Nat)
  /-- A write of a read-only register (10_state.md R41). Raised by `RegWrite`. Safe. -/
  | readOnlyRegister (n : Nat)
  /-- A write of an operand register of a BUSY bank (10_state.md R44). Raised by `RegWrite`. Safe. -/
  | registerOfBusyBank (n : Nat)
  /-- A written value that is not of exactly the register's width (10_state.md R22). Raised by `RegWrite`. Safe. -/
  | widthMismatch (n : Nat)
  /-- A host access to a byte that a call holds (20_memory.md R59). Raised by host memory accesses. Safe. -/
  | heldByCall (a : Nat)
  /-- Storage of a call given up before its end was read (20_memory.md R59). Raised by `setUnowned`. Safe. -/
  | storageOfCall
  deriving DecidableEq, Repr

/-- The machine. -/
structure State where
  /-- AW (00_scope.md R7): fixed; no step changes it. Log entry 1. -/
  aw : AddrWidth
  d : DBank
  e : EBank
  mem : Memory
  /-- The addresses that are NOT ordinary storage the host owns (20_memory.md R51, R58, R65). Log entry 9. -/
  unowned : List Region
  /-- The accepted `DECODE` calls whose end the host has not read, newest first (20_memory.md R59). -/
  dcalls : List Call
  /-- The accepted `ENCODE` calls whose end the host has not read, newest first (20_memory.md R59). -/
  ecalls : List Call
  /-- The model's own: what happens next, in order (60_exceptions.md R187). Log entry 3. -/
  pending : List Event
  /-- The model's own: what the last host read returned. Log entry 12. -/
  lastRead : Option RegVal
  /-- The model's own: the counter that makes free values fresh. Log entry 7. -/
  free : Nat
  deriving DecidableEq, Repr

/-- The D bank after reset (10_state.md R43). -/
def DBank.reset : DBank where
  dphase := .idle
  inv := false
  dsrc := ⟨0, false⟩
  dlen := ⟨0, false⟩
  ddst := ⟨0, false⟩
  doutlen := 0
  ddin := ⟨0, false⟩
  ddout := ⟨0, false⟩
  didx := 0
  dbad := false

/-- The E bank after reset (10_state.md R43). -/
def EBank.reset : EBank where
  ephase := .idle
  esrc := ⟨0, false⟩
  elen := ⟨0, false⟩
  edst := ⟨0, false⟩
  eoutlen := 0
  edin := ⟨0, false⟩
  edout := ⟨0, false⟩
  eidx := 0
  eurl := false
  enp := false

/-- The machine right after reset (10_state.md R43). -/
def State.reset : State where
  aw := .recommended
  d := .reset
  e := .reset
  mem := []
  unowned := []
  dcalls := []
  ecalls := []
  pending := []
  lastRead := none
  free := 0

end Sys2Proof.Machine
end

