-- ==== Sys2Proof/Machine/Tables.lean ====
section
/-! DEFINITION. The constant tables (10_state.md R37): the alphabets, the decode table set and the encode
table set, and the construction the spec prescribes for them (40_table_builder.md R90 to R107). -/

namespace Sys2Proof.Machine

/-- The pad character `=` (00_scope.md R10). -/
def padChar : Byte := 0x3D

/-- The neutral symbol `A` (41_decode.md R122). -/
def neutralChar : Byte := 0x41

/-- The symbol value of a character, for both alphabets (40_table_builder.md R92). -/
def sym (c : Byte) : Option Sym :=
  if 0x41 ≤ c ∧ c ≤ 0x5A then some ((c - 0x41).setWidth 6)
  else if 0x61 ≤ c ∧ c ≤ 0x7A then some ((c - 0x61 + 26).setWidth 6)
  else if 0x30 ≤ c ∧ c ≤ 0x39 then some ((c - 0x30 + 52).setWidth 6)
  else if c = 0x2B ∨ c = 0x2D then some 62
  else if c = 0x2F ∨ c = 0x5F then some 63
  else none

/-- The bad marker (40_table_builder.md R95). -/
def badMarker : Word := 0x01000000

/-- The table word of symbol `s` at block position 0 (40_table_builder.md R98). -/
def entry0 (s : Sym) : Word := s.setWidth 32 <<< 2

/-- The table word of symbol `s` at block position 1 (40_table_builder.md R99). -/
def entry1 (s : Sym) : Word :=
  (s.setWidth 32 >>> 4) ||| (((s.setWidth 32 &&& 0xF) <<< 4) <<< 8)

/-- The table word of symbol `s` at block position 2 (40_table_builder.md R100). -/
def entry2 (s : Sym) : Word :=
  ((s.setWidth 32 >>> 2) <<< 8) ||| (((s.setWidth 32 &&& 0x3) <<< 6) <<< 16)

/-- The table word of symbol `s` at block position 3 (40_table_builder.md R101). -/
def entry3 (s : Sym) : Word := s.setWidth 32 <<< 16

/-- A table slot: the entry of a data character, the bad marker for every other byte, `=` among them
(40_table_builder.md R96, R97). -/
def slot (entry : Sym → Word) (c : Byte) : Word :=
  match sym c with
  | some s => entry s
  | none => badMarker

/-- `DT0` (40_table_builder.md R98). -/
def dt0 (c : Byte) : Word := slot entry0 c
/-- `DT1` (40_table_builder.md R99). -/
def dt1 (c : Byte) : Word := slot entry1 c
/-- `DT2` (40_table_builder.md R100). -/
def dt2 (c : Byte) : Word := slot entry2 c
/-- `DT3` (40_table_builder.md R101). -/
def dt3 (c : Byte) : Word := slot entry3 c

/-- What a character contributes to the data fields of a combined word; a character outside the alphabet
contributes zero (41_decode.md R111). -/
def contribution (entry : Sym → Word) (c : Byte) : Word :=
  match sym c with
  | some s => entry s
  | none => 0

/-- The 62 characters both alphabets share, and the given two sign characters
(40_table_builder.md R91, R103). -/
def etWith (sign62 sign63 : Byte) (i : Sym) : Byte :=
  if i ≤ 25 then 0x41 + i.setWidth 8
  else if i ≤ 51 then 0x61 + (i.setWidth 8 - 26)
  else if i ≤ 61 then 0x30 + (i.setWidth 8 - 52)
  else if i = 62 then sign62
  else sign63

/-- `ET_STD` (40_table_builder.md R103). -/
def etStd (i : Sym) : Byte := etWith 0x2B 0x2F i

/-- `ET_URL` (40_table_builder.md R103). -/
def etUrl (i : Sym) : Byte := etWith 0x2D 0x5F i

/-- The encode table of a mode bit (42_encode.md R141). -/
def encodeTable (url : Bool) (i : Sym) : Byte := if url then etUrl i else etStd i

/-- The next character of the construction's walk (40_table_builder.md R93). -/
def nextChar (c : Byte) : Byte :=
  if c = 0x5A then 0x61
  else if c = 0x7A then 0x30
  else if c = 0x39 then 0x2B
  else if c = 0x2B then 0x2F
  else c + 1

/-- `n` characters of the walk, from `c` on (40_table_builder.md R93). -/
def walk (c : Byte) : Nat → List Byte
  | 0 => []
  | n + 1 => c :: walk (nextChar c) n

/-- The standard alphabet in order of value, as the walk visits it (40_table_builder.md R90, R93). -/
def walkedAlphabet : List Byte := walk 0x41 64

/-- The slots the construction fills, with their values: the walk, then the URL-safe sign characters by
override (40_table_builder.md R93). -/
def walkedSlots : List (Byte × Nat) :=
  walkedAlphabet.zip (List.range 64) ++ [(0x2D, 62), (0x5F, 63)]

/-- A decode table as the construction builds it: every slot pre-filled with the bad marker, then the
valid slots overwritten (40_table_builder.md R93, R96). -/
def builtTable (entry : Sym → Word) : List Word :=
  walkedSlots.foldl (fun t p => t.set p.1.toNat (entry (BitVec.ofNat 6 p.2)))
    (List.replicate 256 badMarker)

/-- The URL-safe encode table as the construction builds it (40_table_builder.md R93). -/
def builtUrlAlphabet : List Byte := (walkedAlphabet.set 62 0x2D).set 63 0x5F

end Sys2Proof.Machine
end

