-- ==== Sys2Proof/Machine/Flags.lean ====
section
/-! DEFINITION. Every flag and status computation: the bad-bit of a word, the impossible remainder, the
status bytes, the completion outputs, and reporting InvalidEncoding (10_state.md R27, R35;
60_exceptions.md R175). -/

namespace Sys2Proof.Machine

/-- The bad-bit of a table word or a combined word (40_table_builder.md R95). -/
def bad (w : Word) : Bool := w.extractLsb' 24 8 != 0

/-- The impossible remainder: `r` characters left, `c1` at block position 1 (41_decode.md R122 step 3). -/
def impossibleRemainder (r : Nat) (c1 : Byte) : Bool := r == 1 || (r == 2 && c1 == padChar)

/-- The two `PHASE` bits (10_state.md R27). -/
def Phase.bits : Phase → BitVec 2
  | .idle => 0
  | .busy => 1
  | .done => 2

/-- A status byte (10_state.md R27): bits 7:3 are hardwired zero. -/
def statusByte (p : Phase) (inv : Bool) : Byte := (0 : BitVec 5) ++ BitVec.ofBool inv ++ p.bits

/-- `DSTATUS` (10_state.md R27). -/
def dstatus (d : DBank) : Byte := statusByte d.dphase d.inv

/-- `ESTATUS` (10_state.md R27): its `INV` bit is hardwired zero (60_exceptions.md R184). -/
def estatus (e : EBank) : Byte := statusByte e.ephase false

/-- The level output of DEC (60_exceptions.md R183). -/
def ddone (s : State) : Bool := s.d.dphase == .done

/-- The level output of ENC (60_exceptions.md R183). -/
def edone (s : State) : Bool := s.e.ephase == .done

/-- Give the one result bit: `raise InvalidEncoding` is `inv` = true (60_exceptions.md R175). No control
is transferred and nothing else is saved (R180). -/
def reportResult (d : DBank) (inv : Bool) : DBank := { d with inv := inv }

end Sys2Proof.Machine
end

