-- ==== Sys2Proof/Machine/Ops.lean ====
section
/-! DEFINITION. The named operations over memory and registers: bytes of memory, ranges, fetching and
storing, and every update a transition makes to the state. -/

namespace Sys2Proof.Machine

/-- What an address that memory does not list reads as. DESIGN CHOICE, unsafe: log entry 8. -/
def unlistedByte : Byte := 0

/-- `MemRead(a, 1)` (20_memory.md R53). -/
def Memory.read : Memory → Nat → Byte
  | [], _ => unlistedByte
  | (k, v) :: m, a => if k = a then v else Memory.read m a

/-- `MemWrite(a, 1, b)` (20_memory.md R53), keeping the canonical form. -/
def Memory.write : Memory → Nat → Byte → Memory
  | [], a, b => if b = unlistedByte then [] else [(a, b)]
  | (k, v) :: m, a, b =>
    if a < k then (if b = unlistedByte then (k, v) :: m else (a, b) :: (k, v) :: m)
    else if a = k then (if b = unlistedByte then m else (a, b) :: m)
    else (k, v) :: Memory.write m a b

/-- The canonical form from address `lo` on, with every address below `hi`: strictly rising addresses,
and no entry that equals what an unlisted address reads as. -/
def Memory.wfFrom (hi : Nat) : Nat → Memory → Bool
  | _, [] => true
  | lo, (k, v) :: m => decide (lo ≤ k) && decide (k < hi) && v != unlistedByte && Memory.wfFrom hi (k + 1) m

/-- Memory of `2^AW` bytes is in canonical form. -/
def Memory.wf (aw : AddrWidth) (m : Memory) : Bool := Memory.wfFrom (2 ^ aw.bits) 0 m

/-- The bytes of `n` addresses from `a` on, in ascending order (20_memory.md R52, R53). -/
def Memory.readBytes (m : Memory) (a : Nat) : Nat → List Byte
  | 0 => []
  | n + 1 => m.read a :: Memory.readBytes m (a + 1) n

/-- Write bytes at ascending addresses from `a` on (20_memory.md R52, R53). -/
def Memory.writeBytes : Memory → Nat → List Byte → Memory
  | m, _, [] => m
  | m, a, b :: bs => Memory.writeBytes (m.write a b) (a + 1) bs

/-- A range lies inside memory of `2^AW` bytes: it does not pass the top (20_memory.md R55). -/
def inMemory (aw : AddrWidth) (r : Region) : Bool := r.base + r.len ≤ 2 ^ aw.bits

/-- Two ranges share no byte; an empty range shares none (20_memory.md R56, R57). -/
def Region.disjoint (r q : Region) : Bool :=
  r.len == 0 || q.len == 0 || decide (r.base + r.len ≤ q.base) || decide (q.base + q.len ≤ r.base)

/-- The range holds the address. -/
def Region.holds (r : Region) (a : Nat) : Bool := decide (r.base ≤ a) && decide (a < r.base + r.len)

/-- The host owns the whole range as ordinary storage (20_memory.md R51, R58, R65). -/
def ownedStorage (unowned : List Region) (r : Region) : Bool := unowned.all r.disjoint

/-- Reads of an engine step: the bytes of a range, or the fault of leaving memory. -/
def fetch (s : State) (r : Region) : Except Fault (List Byte) :=
  if r.len = 0 ∨ inMemory s.aw r then .ok (s.mem.readBytes r.base r.len)
  else .error (.outsideMemory (r.base + r.len - 1))

/-- Writes of an engine step: memory after the bytes are stored from `a` on, or the fault of leaving
memory. -/
def store (s : State) (a : Nat) (bs : List Byte) : Except Fault Memory :=
  if bs = [] ∨ inMemory s.aw ⟨a, bs.length⟩ then .ok (s.mem.writeBytes a bs)
  else .error (.outsideMemory (a + bs.length - 1))

/-- An engine step ends by storing bytes from `a` on; `after` gives the rest of its effects. -/
def storeThen (s : State) (a : Nat) (bs : List Byte) (after : Memory → State) :
    Host.Outcome State Fault Refusal :=
  match store s a bs with
  | .error f => .fault f
  | .ok m => .next (after m)

/-- A cursor after `n` more items. -/
def advance (c : Addr) (n : Nat) : Addr := c + BitVec.ofNat 64 n

/-- A host-written register after a write (10_state.md R41, R45). -/
def Held.put {α : Type} (v : α) : Held α := ⟨v, true⟩

/-- The effects of accepting a `DECODE` (41_decode.md R114), and the call the host must now respect. -/
def acceptDecode (s : State) (c : Call) : State :=
  { s with
    d := { reportResult s.d false with didx := 0, doutlen := 0, dbad := false, dphase := .busy }
    dcalls := c :: s.dcalls }

/-- The effects of accepting an `ENCODE` (42_encode.md R143), and the call the host must now respect. -/
def acceptEncode (s : State) (url np : Bool) (c : Call) : State :=
  { s with
    e := { s.e with eidx := 0, eoutlen := 0, eurl := url, enp := np, ephase := .busy }
    ecalls := c :: s.ecalls }

/-- The effects of a `DEC4` with combined word `w` (41_decode.md R113). -/
def finishDec4 (s : State) (w : Word) : State :=
  { s with d := { reportResult s.d (bad w) with ddout := .put w, dphase := .done } }

/-- The effects of an `ENC3` with result `w` (42_encode.md R142). -/
def finishEnc3 (s : State) (w : Word) : State :=
  { s with e := { s.e with edout := .put w, ephase := .done } }

/-- After an interior step of DEC that wrote `n` bytes, leaving memory `m` (41_decode.md R121). -/
def decAdvance (s : State) (m : Memory) (dbad : Bool) (n : Nat) : State :=
  { s with
    mem := m
    d := { s.d with dbad := dbad, doutlen := advance s.d.doutlen n, didx := advance s.d.didx 4 } }

/-- After the final step of DEC that wrote `n` bytes, leaving memory `m` (41_decode.md R122). -/
def decFinish (s : State) (m : Memory) (dbad inv : Bool) (n : Nat) : State :=
  { s with
    mem := m
    d := { reportResult s.d inv with
      dbad := dbad, doutlen := advance s.d.doutlen n, didx := s.d.dlen.val, dphase := .done } }

/-- After the final step of DEC with nothing left to read (41_decode.md R122, `r` = 0). -/
def decFinishEmpty (s : State) : State :=
  { s with d := { reportResult s.d s.d.dbad with dphase := .done } }

/-- After a full-block step of ENC that left memory `m` (42_encode.md R147). -/
def encAdvance (s : State) (m : Memory) : State :=
  { s with
    mem := m
    e := { s.e with eoutlen := advance s.e.eoutlen 4, eidx := advance s.e.eidx 3 } }

/-- After the final step of ENC that wrote `n` characters, leaving memory `m` (42_encode.md R148). -/
def encFinish (s : State) (m : Memory) (n : Nat) : State :=
  { s with
    mem := m
    e := { s.e with eoutlen := advance s.e.eoutlen n, eidx := s.e.elen.val, ephase := .done } }

/-- After the final step of ENC with nothing left to read (42_encode.md R148, `m` = 0). -/
def encFinishEmpty (s : State) : State := { s with e := { s.e with ephase := .done } }

/-- A host read returns a value (10_state.md R40). -/
def returnValue (s : State) (v : RegVal) : State := { s with lastRead := some v }

/-- The host has read `DPHASE` = DONE: it may use the calls' buffers again (20_memory.md R59). -/
def releaseDecode (s : State) : State :=
  if s.d.dphase = .done then { s with dcalls := [] } else s

/-- The host has read `EPHASE` = DONE: it may use the calls' buffers again (20_memory.md R59). -/
def releaseEncode (s : State) : State :=
  if s.e.ephase = .done then { s with ecalls := [] } else s

/-- `RESET` (70_reset_and_hazards.md R195, R197): the engine to its reset values, the host back in
possession of every buffer; memory and the rest of the system untouched. -/
def resetEngine (s : State) : State :=
  { s with d := .reset, e := .reset, dcalls := [], ecalls := [] }

/-- A free value is used up; the next one is fresh. -/
def useFree (s : State) : State := { s with free := s.free + 1 }

/-- What a read of an AW-bit register without a value returns: any AW-bit value (10_state.md R45). -/
def anyAddr (s : State) : Addr :=
  BitVec.ofNat 64 ((Config.freeAddr s.free).toNat % 2 ^ s.aw.bits)

/-- What a read of a 32-bit register without a value returns: any 32-bit value (10_state.md R43, R45). -/
def anyWord (s : State) : Word := Config.freeWord s.free

end Sys2Proof.Machine
end

