-- ==== Sys2Proof/Machine/Operands.lean ====
section
/-! DEFINITION. Every operand form: packing of blocks in 32-bit registers (30_encoding.md R76), the
register names behind the register numbers (10_state.md R21), the addresses of engine accesses
(30_encoding.md R84), and the ranges a call reads and writes (20_memory.md R67). -/

namespace Sys2Proof.Machine

/-- Item `k` of a block in a 32-bit register: bits `8k+7 : 8k` (30_encoding.md R76). -/
def item (w : Word) (k : Nat) : Byte := w.extractLsb' (8 * k) 8

/-- Four items packed in a 32-bit register (30_encoding.md R76). -/
def pack4 (c0 c1 c2 c3 : Byte) : Word :=
  c0.setWidth 32 ||| (c1.setWidth 32 <<< 8) ||| (c2.setWidth 32 <<< 16) ||| (c3.setWidth 32 <<< 24)

/-- The first `n` (at most three) output bytes of a combined word (41_decode.md R110, R122). -/
def outputBytes (w : Word) (n : Nat) : List Byte := [item w 0, item w 1, item w 2].take n

/-- The registers (10_state.md R21). -/
inductive Reg where
  | cmd | dstatus | dsrc | dlen | ddst | doutlen | ddin | ddout
  | estatus | esrc | elen | edst | eoutlen | edin | edout
  deriving DecidableEq, Repr

/-- The register of a number; 8 and every number above 15 name none (10_state.md R21, R42). -/
def regOf : Nat → Option Reg
  | 0 => some .cmd
  | 1 => some .dstatus
  | 2 => some .dsrc
  | 3 => some .dlen
  | 4 => some .ddst
  | 5 => some .doutlen
  | 6 => some .ddin
  | 7 => some .ddout
  | 9 => some .estatus
  | 10 => some .esrc
  | 11 => some .elen
  | 12 => some .edst
  | 13 => some .eoutlen
  | 14 => some .edin
  | 15 => some .edout
  | _ => none

/-- A value is exactly AW bits wide (10_state.md R22). -/
def fits (aw : AddrWidth) (v : Addr) : Bool := v.toNat < 2 ^ aw.bits

/-- The characters DEC has left: `x[DLEN] - DIDX` (41_decode.md R120). -/
def decRem (s : State) : Nat := s.d.dlen.val.toNat - s.d.didx.toNat

/-- The bytes ENC has left: `x[ELEN] - EIDX` (42_encode.md R146). -/
def encRem (s : State) : Nat := s.e.elen.val.toNat - s.e.eidx.toNat

/-- The address of DEC's next input character (30_encoding.md R84). -/
def decInput (s : State) : Nat := s.d.dsrc.val.toNat + s.d.didx.toNat

/-- The address of DEC's next output byte (30_encoding.md R84). -/
def decOutput (s : State) : Nat := s.d.ddst.val.toNat + s.d.doutlen.toNat

/-- The address of ENC's next input byte (30_encoding.md R84). -/
def encInput (s : State) : Nat := s.e.esrc.val.toNat + s.e.eidx.toNat

/-- The address of ENC's next output character (30_encoding.md R84). -/
def encOutput (s : State) : Nat := s.e.edst.val.toNat + s.e.eoutlen.toNat

end Sys2Proof.Machine
end

