-- ==== Sys2Proof/Machine/Sizes.lean ====
section
/-! DEFINITION. The size calculators (43_size_functions.md R160 to R166): functions the host evaluates,
and through which the commands' preconditions are stated. -/

namespace Sys2Proof.Machine

/-- The pad count from the length and the last two characters (43_size_functions.md R161): `last` is
`t[L-1]`, `prev` is `t[L-2]`. -/
def padCountOf (len : Nat) (last prev : Byte) : Nat :=
  if len = 0 ∨ last ≠ padChar then 0
  else if len = 1 ∨ prev ≠ padChar then 1
  else 2

/-- `pad_count(t)` (43_size_functions.md R161). -/
def padCount (t : List Byte) : Nat :=
  padCountOf t.length (t.getD (t.length - 1) 0) (t.getD (t.length - 2) 0)

/-- `decoded_size` from the length and the trailing bytes (43_size_functions.md R160, R162), on natural
numbers. -/
def decodedSizeOf (len : Nat) (last prev : Byte) : Nat := (len - padCountOf len last prev) * 3 / 4

/-- `decoded_size(t)` on natural numbers (43_size_functions.md R162). -/
def decodedSize (t : List Byte) : Nat := (t.length - padCount t) * 3 / 4

/-- `decoded_size_nopad(L)` on natural numbers (43_size_functions.md R163). -/
def decodedSizeNopad (len : Nat) : Nat := len * 3 / 4

/-- `encoded_size(L)` on natural numbers (43_size_functions.md R164). -/
def encodedSize (len : Nat) : Nat := (len + 2) / 3 * 4

/-- `encoded_size_nopad(L)` on natural numbers (43_size_functions.md R165). -/
def encodedSizeNopad (len : Nat) : Nat :=
  if len % 3 = 1 then encodedSize len - 2
  else if len % 3 = 2 then encodedSize len - 1
  else encodedSize len

/-- The encoded size of a padding mode (20_memory.md R58). -/
def encodedSizeFor (np : Bool) (len : Nat) : Nat :=
  if np then encodedSizeNopad len else encodedSize len

/-- `MAX_ADDR` (00_scope.md R7). -/
def maxAddr (aw : AddrWidth) : Nat := 2 ^ aw.bits - 1

/-- `decoded_size` as the host may evaluate it: no value outside its domain (43_size_functions.md R166). -/
def hostDecodedSize (aw : AddrWidth) (t : List Byte) : Option Nat :=
  if t.length ≤ maxAddr aw / 3 then some (decodedSize t) else none

/-- `decoded_size_nopad` with its domain (43_size_functions.md R166). -/
def hostDecodedSizeNopad (aw : AddrWidth) (len : Nat) : Option Nat :=
  if len ≤ maxAddr aw / 3 then some (decodedSizeNopad len) else none

/-- `encoded_size` with its domain (43_size_functions.md R166). -/
def hostEncodedSize (aw : AddrWidth) (len : Nat) : Option Nat :=
  if len ≤ maxAddr aw / 4 then some (encodedSize len) else none

/-- `encoded_size_nopad` with its domain (43_size_functions.md R166). -/
def hostEncodedSizeNopad (aw : AddrWidth) (len : Nat) : Option Nat :=
  if len ≤ maxAddr aw / 4 then some (encodedSizeNopad len) else none

/-- The call a `DECODE` would make: the input range, and the output range of `decoded_size(input)` bytes
(20_memory.md R58, R67). The size is the natural-number formula for every length: log entry 15. -/
def decodeCall (s : State) : Call :=
  let a := s.d.dsrc.val.toNat
  let n := s.d.dlen.val.toNat
  { input := ⟨a, n⟩
    output := ⟨s.d.ddst.val.toNat,
      decodedSizeOf n (s.mem.read (a + (n - 1))) (s.mem.read (a + (n - 2)))⟩ }

/-- The call an `ENCODE` would make (20_memory.md R58, R67). -/
def encodeCall (s : State) (np : Bool) : Call :=
  { input := ⟨s.e.esrc.val.toNat, s.e.elen.val.toNat⟩
    output := ⟨s.e.edst.val.toNat, encodedSizeFor np s.e.elen.val.toNat⟩ }

/-- The running `DECODE`, if DEC is BUSY. -/
def runningDecode (s : State) : Option Call :=
  if s.d.dphase = .busy then s.dcalls.head? else none

/-- The running `ENCODE`, if ENC is BUSY. -/
def runningEncode (s : State) : Option Call :=
  if s.e.ephase = .busy then s.ecalls.head? else none

/-- Two calls in flight together: each output is disjoint from both ranges of the other
(20_memory.md R66). -/
def Call.compatible (c k : Call) : Bool :=
  c.output.disjoint k.input && c.output.disjoint k.output && k.output.disjoint c.input

/-- What is wrong with a call's buffers, if anything (20_memory.md R51, R55 to R58, R65, R66), in a fixed
order: log entry 21. -/
def callBreach (s : State) (c : Call) (other : Option Call) : Option Refusal :=
  if !(inMemory s.aw c.input && inMemory s.aw c.output) then some .bufferWraps
  else if !ownedStorage s.unowned c.input then some .inputNotOwned
  else if !ownedStorage s.unowned c.output then some .capacityTooSmall
  else if !c.input.disjoint c.output then some .buffersOverlap
  else if !other.all c.compatible then some .concurrentOverlap
  else none

end Sys2Proof.Machine
end

