-- ==== Sys2Proof/Machine/DecodeEngine.lean ====
section
/-! DEFINITION. The decode engine: the block function, `DEC4`, the acceptance of `DECODE`, the steps of
DEC, and the whole call as a function (41_decode.md R110 to R130). -/

namespace Sys2Proof.Machine

/-- `COMBINE` (41_decode.md R110). -/
def combine (c0 c1 c2 c3 : Byte) : Word := dt0 c0 ||| dt1 c1 ||| dt2 c2 ||| dt3 c3

/-- What a block leaves: the accumulated bad-bit, the result bit, and the bytes to write. -/
structure BlockResult where
  dbad : Bool
  inv : Bool
  out : List Byte
  deriving DecidableEq, Repr

/-- The combined word of a block accumulated onto `dbad`, with the write gate for its first `n` bytes
(41_decode.md R121, R122, R124). -/
def gatedBlock (dbad : Bool) (w : Word) (n : Nat) : BlockResult :=
  let b := dbad || bad w
  ⟨b, b, if b then [] else outputBytes w n⟩

/-- Character `k` of a block; a position past the end holds the neutral symbol (41_decode.md R122 step 1). -/
def charAt (bs : List Byte) (k : Nat) : Byte := bs.getD k neutralChar

/-- An interior block (41_decode.md R121). -/
def interiorBlock (dbad : Bool) (bs : List Byte) : BlockResult :=
  gatedBlock dbad (combine (charAt bs 0) (charAt bs 1) (charAt bs 2) (charAt bs 3)) 3

/-- How many trailing pads are stripped from a final block (41_decode.md R122 step 2). -/
def trimOf (bs : List Byte) : Nat :=
  if charAt bs 3 = padChar then (if charAt bs 2 = padChar then 2 else 1) else 0

/-- The combined word of a final block after its pads are stripped (41_decode.md R122 steps 2 and 4). -/
def finalWord (bs : List Byte) : Word :=
  combine (charAt bs 0) (charAt bs 1)
    (if trimOf bs = 2 then neutralChar else charAt bs 2)
    (if 1 ≤ trimOf bs then neutralChar else charAt bs 3)

/-- A final block of one to four characters (41_decode.md R122 steps 1 to 4). -/
def finalBlock (dbad : Bool) (bs : List Byte) : BlockResult :=
  if impossibleRemainder bs.length (charAt bs 1) then ⟨dbad, true, []⟩
  else gatedBlock dbad (finalWord bs) (bs.length - trimOf bs - 1)

/-- `DEC4` (41_decode.md R113). -/
def execDec4 (s : State) : Host.Outcome State Fault Refusal :=
  if s.d.dphase = .busy then .refused .bankBusy
  else if !s.d.ddin.written then .refused .operandUnwritten
  else
    let w := s.d.ddin.val
    .next (finishDec4 s (combine (item w 0) (item w 1) (item w 2) (item w 3)))

/-- Why a `DECODE` is refused, if it is (41_decode.md R115). -/
def decodeBreach (s : State) : Option Refusal :=
  if s.d.dphase = .busy then some .bankBusy
  else if !(s.d.dsrc.written && s.d.dlen.written && s.d.ddst.written) then some .operandUnwritten
  else callBreach s (decodeCall s) (runningEncode s)

/-- `DECODE`: its acceptance (41_decode.md R114, R115). -/
def execDecode (s : State) : Host.Outcome State Fault Refusal :=
  match decodeBreach s with
  | some r => .refused r
  | none => .next (acceptDecode s (decodeCall s))

/-- What an interior block's result does to the state (41_decode.md R121). -/
def decCommitInterior (s : State) (r : BlockResult) : Host.Outcome State Fault Refusal :=
  storeThen s (decOutput s) r.out fun m => decAdvance s m r.dbad r.out.length

/-- What a final block's result does to the state (41_decode.md R122). -/
def decCommitFinal (s : State) (r : BlockResult) : Host.Outcome State Fault Refusal :=
  storeThen s (decOutput s) r.out fun m => decFinish s m r.dbad r.inv r.out.length

/-- The interior-block step of DEC (41_decode.md R121). -/
def decInterior (s : State) : Host.Outcome State Fault Refusal :=
  match fetch s ⟨decInput s, 4⟩ with
  | .error f => .fault f
  | .ok bs => decCommitInterior s (interiorBlock s.d.dbad bs)

/-- The final step of DEC (41_decode.md R122). -/
def decFinal (s : State) : Host.Outcome State Fault Refusal :=
  if decRem s = 0 then .next (decFinishEmpty s)
  else
    match fetch s ⟨decInput s, decRem s⟩ with
    | .error f => .fault f
    | .ok bs => decCommitFinal s (finalBlock s.d.dbad bs)

/-- A turn of DEC (41_decode.md R120); when it is not BUSY it has no step and its turn passes
(log entry 5). -/
def decStep (s : State) : Host.Outcome State Fault Refusal :=
  if s.d.dphase = .busy then
    (if 4 < decRem s then decInterior s else decFinal s)
  else .next s

/-- The blocks of a text from an accumulated bad-bit on (41_decode.md R120, R125). -/
def decodeBlocks (dbad : Bool) : List Byte → BlockResult
  | [] => ⟨dbad, dbad, []⟩
  | c0 :: c1 :: c2 :: c3 :: c4 :: t =>
    let r := interiorBlock dbad [c0, c1, c2, c3]
    let q := decodeBlocks r.dbad (c4 :: t)
    ⟨q.dbad, q.inv, r.out ++ q.out⟩
  | bs => finalBlock dbad bs

/-- `decode_fn` (41_decode.md R125), with the final `DBAD` beside `inv` and `out`. -/
def decodeFn (t : List Byte) : BlockResult := decodeBlocks false t

/-- How many steps of DEC a call with `len` characters takes (41_decode.md R126). -/
def decodeSteps (len : Nat) : Nat := max 1 ((len + 3) / 4)

end Sys2Proof.Machine
end

