-- ==== Sys2Proof/Machine/EncodeEngine.lean ====
section
/-! DEFINITION. The encode engine: the block function, `ENC3`, the acceptance of `ENCODE`, the steps of
ENC, and the whole call as a function (42_encode.md R140 to R152). -/

namespace Sys2Proof.Machine

/-- Index 0 of `SPLIT` (42_encode.md R140). -/
def split0 (b0 : Byte) : Sym := (b0 >>> 2).setWidth 6
/-- Index 1 of `SPLIT` (42_encode.md R140). -/
def split1 (b0 b1 : Byte) : Sym := (((b0 &&& 0x3) <<< 4) ||| (b1 >>> 4)).setWidth 6
/-- Index 2 of `SPLIT` (42_encode.md R140). -/
def split2 (b1 b2 : Byte) : Sym := (((b1 &&& 0xF) <<< 2) ||| (b2 >>> 6)).setWidth 6
/-- Index 3 of `SPLIT` (42_encode.md R140). -/
def split3 (b2 : Byte) : Sym := (b2 &&& 0x3F).setWidth 6

/-- `ENCBLOCK` (42_encode.md R141): the four characters of three bytes. -/
def encBlock (url : Bool) (b0 b1 b2 : Byte) : List Byte :=
  [encodeTable url (split0 b0), encodeTable url (split1 b0 b1),
   encodeTable url (split2 b1 b2), encodeTable url (split3 b2)]

/-- Byte `k` of the zero-padded scratch (42_encode.md R148). -/
def byteAt (bs : List Byte) (k : Nat) : Byte := bs.getD k 0

/-- The characters of a full block (42_encode.md R147). -/
def fullBlock (url : Bool) (bs : List Byte) : List Byte :=
  encBlock url (byteAt bs 0) (byteAt bs 1) (byteAt bs 2)

/-- The characters of the leftover bytes: the meaningful ones, then the pads if padding is on
(42_encode.md R148). -/
def leftoverBlock (url np : Bool) (bs : List Byte) : List Byte :=
  (fullBlock url bs).take (bs.length + 1) ++ (if np then [] else List.replicate (3 - bs.length) padChar)

/-- `ENC3` (42_encode.md R142). -/
def execEnc3 (url : Bool) (s : State) : Host.Outcome State Fault Refusal :=
  if s.e.ephase = .busy then .refused .bankBusy
  else if !s.e.edin.written then .refused .operandUnwritten
  else
    let w := s.e.edin.val
    let cs := encBlock url (item w 0) (item w 1) (item w 2)
    .next (finishEnc3 s (pack4 (byteAt cs 0) (byteAt cs 1) (byteAt cs 2) (byteAt cs 3)))

/-- Why an `ENCODE` is refused, if it is (42_encode.md R144). -/
def encodeBreach (s : State) (np : Bool) : Option Refusal :=
  if s.e.ephase = .busy then some .bankBusy
  else if !(s.e.esrc.written && s.e.elen.written && s.e.edst.written) then some .operandUnwritten
  else callBreach s (encodeCall s np) (runningDecode s)

/-- `ENCODE`: its acceptance (42_encode.md R143, R144). -/
def execEncode (url np : Bool) (s : State) : Host.Outcome State Fault Refusal :=
  match encodeBreach s np with
  | some r => .refused r
  | none => .next (acceptEncode s url np (encodeCall s np))

/-- The full-block step of ENC (42_encode.md R147). -/
def encFull (s : State) : Host.Outcome State Fault Refusal :=
  match fetch s ⟨encInput s, 3⟩ with
  | .error f => .fault f
  | .ok bs => storeThen s (encOutput s) (fullBlock s.e.eurl bs) (encAdvance s)

/-- What the leftover characters do to the state (42_encode.md R148). -/
def encCommitFinal (s : State) (cs : List Byte) : Host.Outcome State Fault Refusal :=
  storeThen s (encOutput s) cs fun m => encFinish s m cs.length

/-- The final step of ENC (42_encode.md R148). -/
def encFinal (s : State) : Host.Outcome State Fault Refusal :=
  if encRem s = 0 then .next (encFinishEmpty s)
  else
    match fetch s ⟨encInput s, encRem s⟩ with
    | .error f => .fault f
    | .ok bs => encCommitFinal s (leftoverBlock s.e.eurl s.e.enp bs)

/-- A turn of ENC (42_encode.md R146); when it is not BUSY it has no step and its turn passes
(log entry 5). -/
def encStep (s : State) : Host.Outcome State Fault Refusal :=
  if s.e.ephase = .busy then
    (if 3 ≤ encRem s then encFull s else encFinal s)
  else .next s

/-- `encode_fn` (42_encode.md R149). -/
def encodeFn (url np : Bool) : List Byte → List Byte
  | [] => []
  | b0 :: b1 :: b2 :: t => fullBlock url [b0, b1, b2] ++ encodeFn url np t
  | bs => leftoverBlock url np bs

/-- How many steps of ENC a call with `len` bytes takes (42_encode.md R150). -/
def encodeSteps (len : Nat) : Nat := len / 3 + 1

end Sys2Proof.Machine
end

