-- ==== Sys2Proof/Machine/Dispatch.lean ====
section
/-! DEFINITION. The meaning of every command: one arm per constructor. -/

namespace Sys2Proof.Machine

def exec (i : Instr) (s : State) : Host.Outcome State Fault Refusal :=
  match i with
  | .decode => Sys2Proof.Machine.execDecode s
  | .dec4 => Sys2Proof.Machine.execDec4 s
  | .encode url np => Sys2Proof.Machine.execEncode url np s
  | .enc3 url => Sys2Proof.Machine.execEnc3 url s

end Sys2Proof.Machine
end

