-- ==== Sys2Proof/Machine/HostPort.lean ====
section
/-! DEFINITION. The transitions that are not engine steps: the register port (10_state.md R40 to R45), the
issue of a command (30_encoding.md R70), host memory accesses (20_memory.md R59), allocation, RESET; and
whose turn it is (60_exceptions.md R187). -/

namespace Sys2Proof.Machine

/-- Read an AW-bit register that may hold no value (10_state.md R40, R45). -/
def readHeldAddr (s : State) (r : Held Addr) : State :=
  if r.written then returnValue s (.addr r.val) else useFree (returnValue s (.addr (anyAddr s)))

/-- Read a 32-bit register that may hold no value (10_state.md R40, R43, R45). -/
def readHeldWord (s : State) (r : Held Word) : State :=
  if r.written then returnValue s (.word r.val) else useFree (returnValue s (.word (anyWord s)))

/-- `RegRead(n)` (10_state.md R40, R42). -/
def regRead (n : Nat) (s : State) : Host.Outcome State Fault Refusal :=
  match regOf n with
  | none => .refused (.reservedRegister n)
  | some .cmd => .refused .readOfCommand
  | some .dstatus => .next (releaseDecode (returnValue s (.byte (dstatus s.d))))
  | some .dsrc => .next (readHeldAddr s s.d.dsrc)
  | some .dlen => .next (readHeldAddr s s.d.dlen)
  | some .ddst => .next (readHeldAddr s s.d.ddst)
  | some .doutlen => .next (returnValue s (.addr s.d.doutlen))
  | some .ddin => .next (readHeldWord s s.d.ddin)
  | some .ddout => .next (readHeldWord s s.d.ddout)
  | some .estatus => .next (releaseEncode (returnValue s (.byte (estatus s.e))))
  | some .esrc => .next (readHeldAddr s s.e.esrc)
  | some .elen => .next (readHeldAddr s s.e.elen)
  | some .edst => .next (readHeldAddr s s.e.edst)
  | some .eoutlen => .next (returnValue s (.addr s.e.eoutlen))
  | some .edin => .next (readHeldWord s s.e.edin)
  | some .edout => .next (readHeldWord s s.e.edout)

/-- Write an AW-bit operand register: a value of exactly its width (10_state.md R22), to a bank that is not
BUSY (R44). -/
def writeAddr (n : Nat) (busy : Bool) (v : RegVal) (s : State) (put : Held Addr → State) :
    Host.Outcome State Fault Refusal :=
  if busy then .refused (.registerOfBusyBank n)
  else
    match v with
    | .addr a => if fits s.aw a then .next (put (.put a)) else .refused (.widthMismatch n)
    | .byte _ => .refused (.widthMismatch n)
    | .word _ => .refused (.widthMismatch n)

/-- Write a 32-bit operand register (10_state.md R22, R44). -/
def writeWord (n : Nat) (busy : Bool) (v : RegVal) (put : Held Word → State) :
    Host.Outcome State Fault Refusal :=
  if busy then .refused (.registerOfBusyBank n)
  else
    match v with
    | .word w => .next (put (.put w))
    | .byte _ => .refused (.widthMismatch n)
    | .addr _ => .refused (.widthMismatch n)

/-- Issue the command of a byte: decode it and run it in the same step (30_encoding.md R70). -/
def issueCommand (b : Byte) (s : State) : Host.Outcome State Fault Refusal :=
  match decodeCommand b with
  | .ok i => exec i s
  | .error why => .refused (.reservedCommand why)

/-- `RegWrite(n, v)` (10_state.md R41, R42, R44). -/
def regWrite (n : Nat) (v : RegVal) (s : State) : Host.Outcome State Fault Refusal :=
  let dBusy := s.d.dphase == .busy
  let eBusy := s.e.ephase == .busy
  match regOf n with
  | none => .refused (.reservedRegister n)
  | some .cmd =>
    match v with
    | .byte b => issueCommand b s
    | .addr _ => .refused (.widthMismatch n)
    | .word _ => .refused (.widthMismatch n)
  | some .dsrc => writeAddr n dBusy v s fun r => { s with d := { s.d with dsrc := r } }
  | some .dlen => writeAddr n dBusy v s fun r => { s with d := { s.d with dlen := r } }
  | some .ddst => writeAddr n dBusy v s fun r => { s with d := { s.d with ddst := r } }
  | some .ddin => writeWord n dBusy v fun r => { s with d := { s.d with ddin := r } }
  | some .esrc => writeAddr n eBusy v s fun r => { s with e := { s.e with esrc := r } }
  | some .elen => writeAddr n eBusy v s fun r => { s with e := { s.e with elen := r } }
  | some .edst => writeAddr n eBusy v s fun r => { s with e := { s.e with edst := r } }
  | some .edin => writeWord n eBusy v fun r => { s with e := { s.e with edin := r } }
  | some .dstatus => .refused (.readOnlyRegister n)
  | some .doutlen => .refused (.readOnlyRegister n)
  | some .ddout => .refused (.readOnlyRegister n)
  | some .estatus => .refused (.readOnlyRegister n)
  | some .eoutlen => .refused (.readOnlyRegister n)
  | some .edout => .refused (.readOnlyRegister n)

/-- The calls whose end the host has not read (20_memory.md R59). -/
def openCalls (s : State) : List Call := s.dcalls ++ s.ecalls

/-- The host reads a byte of memory: not one of a call's output range (20_memory.md R59). -/
def hostMemRead (a : Nat) (s : State) : Host.Outcome State Fault Refusal :=
  if !inMemory s.aw ⟨a, 1⟩ then .fault (.outsideMemory a)
  else if (openCalls s).any (fun c => c.output.holds a) then .refused (.heldByCall a)
  else .next (returnValue s (.byte (s.mem.read a)))

/-- The host writes a byte of memory: not one of a call's ranges (20_memory.md R59). -/
def hostMemWrite (a : Nat) (b : Byte) (s : State) : Host.Outcome State Fault Refusal :=
  if !inMemory s.aw ⟨a, 1⟩ then .fault (.outsideMemory a)
  else if (openCalls s).any (fun c => c.input.holds a || c.output.holds a) then .refused (.heldByCall a)
  else .next { s with mem := s.mem.write a b }

/-- The host allocates or frees storage; a call keeps its buffers (20_memory.md R59; log entry 9). -/
def setUnowned (rs : List Region) (s : State) : Host.Outcome State Fault Refusal :=
  if (openCalls s).all (fun c => ownedStorage rs c.input && ownedStorage rs c.output) then
    .next { s with unowned := rs }
  else .refused .storageOfCall

/-- One event (70_reset_and_hazards.md R210). -/
def perform (ev : Event) (s : State) : Host.Outcome State Fault Refusal :=
  match ev with
  | .regRead n => regRead n s
  | .regWrite n v => regWrite n v s
  | .memRead a => hostMemRead a s
  | .memWrite a b => hostMemWrite a b s
  | .setUnowned rs => setUnowned rs s
  | .decTurn => decStep s
  | .encTurn => encStep s
  | .reset => .next (resetEngine s)

/-- Nothing is pending: a BUSY engine goes on (70_reset_and_hazards.md R210), either one when both are
BUSY (60_exceptions.md R187); with none BUSY the state stays. Log entry 4. -/
def quietStep (s : State) : Host.Outcome State Fault Refusal :=
  if s.d.dphase = .busy then
    if s.e.ephase = .busy then
      if Config.freeTurn s.free then decStep (useFree s) else encStep (useFree s)
    else decStep s
  else encStep s

/-- The next event is taken off the list before it is performed. -/
def takeTurn (s : State) : Host.Outcome State Fault Refusal :=
  match s.pending with
  | [] => quietStep s
  | ev :: evs => perform ev { s with pending := evs }

/-- The operand registers of a command count as written by the host (70_reset_and_hazards.md R198), with
the contents they hold. Used where a command is placed from outside: log entry 13. -/
def prepareOperands (i : Instr) (s : State) : State :=
  match i with
  | .decode => { s with d := { s.d with
      dsrc := .put s.d.dsrc.val, dlen := .put s.d.dlen.val, ddst := .put s.d.ddst.val } }
  | .dec4 => { s with d := { s.d with ddin := .put s.d.ddin.val } }
  | .encode _ _ => { s with e := { s.e with
      esrc := .put s.e.esrc.val, elen := .put s.e.elen.val, edst := .put s.e.edst.val } }
  | .enc3 _ => { s with e := { s.e with edin := .put s.e.edin.val } }

/-- A command write placed before everything pending, its operands prepared. Log entry 13. -/
def placeCommand (b : Byte) (s : State) : State :=
  let placed := { s with pending := .regWrite 0 (.byte b) :: s.pending }
  match decodeCommand b with
  | .ok i => prepareOperands i placed
  | .error _ => placed

end Sys2Proof.Machine
end

