-- ==== Sys2Proof/Machine/Step.lean ====
section
/-! DEFINITION. One step of the machine, and a command placed where the next step takes it. -/

namespace Sys2Proof.Machine

/-- One atomic transition (70_reset_and_hazards.md R210). -/
def step : State → Host.Outcome State Fault Refusal := takeTurn

/-- `s` with the command byte of a table word placed as the host's next write of `CMD`, its operand
registers written (log entry 13). -/
def State.withFetchWord (s : State) (nbits w : Nat) : State := placeCommand (commandByte nbits w) s

end Sys2Proof.Machine
end

