-- ==== Sys2Proof/Machine/Sequences.lean ====
section
/-! DEFINITION. The spec's notation for host sequences as lists of events (30_encoding.md R80, R81). `WR` and
`RD` are the events regWrite and regRead themselves. -/

namespace Sys2Proof.Machine

/-- `ST addr, bytes` (30_encoding.md R80): byte `k` to `addr + k`. -/
def storeSequence (a : Nat) : List Byte → List Event
  | [] => []
  | b :: bs => .memWrite a b :: storeSequence (a + 1) bs

/-- `LD addr, n` (30_encoding.md R80). -/
def loadSequence (a : Nat) : Nat → List Event
  | 0 => []
  | n + 1 => .memRead a :: loadSequence (a + 1) n

/-- A mnemonic with its suffixes: the write of its byte to `CMD` (30_encoding.md R80). -/
def issue (i : Instr) : Event := .regWrite 0 (.byte (encode i))

/-- `decode src, len, dst` up to its `WAITD` (30_encoding.md R81). -/
def decodeSequence (src len dst : Addr) : List Event :=
  [.regWrite 2 (.addr src), .regWrite 3 (.addr len), .regWrite 4 (.addr dst), issue .decode]

/-- `encode[.URL][.NP] src, len, dst` up to its `WAITE` (30_encoding.md R81). -/
def encodeSequence (url np : Bool) (src len dst : Addr) : List Event :=
  [.regWrite 10 (.addr src), .regWrite 11 (.addr len), .regWrite 12 (.addr dst), issue (.encode url np)]

/-- `dec4 word` (30_encoding.md R81). -/
def dec4Sequence (w : Word) : List Event := [.regWrite 6 (.word w), issue .dec4, .regRead 7]

/-- `enc3[.URL] word` (30_encoding.md R81). -/
def enc3Sequence (url : Bool) (w : Word) : List Event :=
  [.regWrite 14 (.word w), issue (.enc3 url), .regRead 15]

/-- `n` polls of `WAITD`, a turn of DEC before each (30_encoding.md R81). -/
def waitDecode : Nat → List Event
  | 0 => []
  | n + 1 => .decTurn :: .regRead 1 :: waitDecode n

/-- `n` polls of `WAITE`, a turn of ENC before each (30_encoding.md R81). -/
def waitEncode : Nat → List Event
  | 0 => []
  | n + 1 => .encTurn :: .regRead 9 :: waitEncode n

end Sys2Proof.Machine
end

