-- ==== Sys2Proof/Safety.lean ====
section
/-! DEFINITION. What counts as a safe run: the invariant every step keeps; and the preconditions of the
two buffer commands, said address by address for the statements. -/

namespace Sys2Proof.Machine

/-- The AW-bit registers and the cursor of the D bank hold AW-bit values (10_state.md R22). -/
structure DBank.Fits (aw : AddrWidth) (d : DBank) : Prop where
  dsrc : d.dsrc.val.toNat < 2 ^ aw.bits
  dlen : d.dlen.val.toNat < 2 ^ aw.bits
  ddst : d.ddst.val.toNat < 2 ^ aw.bits
  doutlen : d.doutlen.toNat < 2 ^ aw.bits
  didx : d.didx.toNat < 2 ^ aw.bits

/-- The AW-bit registers and the cursor of the E bank hold AW-bit values (10_state.md R22). -/
structure EBank.Fits (aw : AddrWidth) (e : EBank) : Prop where
  esrc : e.esrc.val.toNat < 2 ^ aw.bits
  elen : e.elen.val.toNat < 2 ^ aw.bits
  edst : e.edst.val.toNat < 2 ^ aw.bits
  eoutlen : e.eoutlen.toNat < 2 ^ aw.bits
  eidx : e.eidx.toNat < 2 ^ aw.bits

/-- The buffers of a call lie in memory, do not overlap, and are the host's own storage
(20_memory.md R51, R55 to R58). -/
structure Call.Sound (aw : AddrWidth) (unowned : List Region) (c : Call) : Prop where
  inputInMemory : inMemory aw c.input
  outputInMemory : inMemory aw c.output
  disjoint : c.input.disjoint c.output
  inputOwned : ownedStorage unowned c.input
  outputOwned : ownedStorage unowned c.output

/-- A running `DECODE`: its operands are written, its buffers are those of the newest call, the cursor
stands between two blocks of the text, and the output cursor follows it and has not passed the end of the
output buffer (10_state.md R28, R34, R35; 41_decode.md R130). -/
structure DecodeRuns (s : State) : Prop where
  written : s.d.dsrc.written ∧ s.d.dlen.written ∧ s.d.ddst.written
  call : s.dcalls.head? = some (decodeCall s)
  block : s.d.didx.toNat % 4 = 0
  cursor : s.d.didx.toNat ≤ s.d.dlen.val.toNat
  unfinished : s.d.dlen.val.toNat ≠ 0 → s.d.didx.toNat < s.d.dlen.val.toNat
  output : s.d.doutlen.toNat ≤ s.d.didx.toNat / 4 * 3
  good : s.d.dbad = false → s.d.doutlen.toNat = s.d.didx.toNat / 4 * 3
  room : s.d.doutlen.toNat ≤ (decodeCall s).output.len

/-- A running `ENCODE`: its operands are written, its buffers are those of the newest call, the cursor
stands between two blocks, and the output cursor follows it (10_state.md R31, R34). -/
structure EncodeRuns (s : State) : Prop where
  written : s.e.esrc.written ∧ s.e.elen.written ∧ s.e.edst.written
  call : s.ecalls.head? = some (encodeCall s s.e.enp)
  block : s.e.eidx.toNat % 3 = 0
  cursor : s.e.eidx.toNat ≤ s.e.elen.val.toNat
  output : s.e.eoutlen.toNat = s.e.eidx.toNat / 3 * 4

/-- The invariant of the machine. -/
structure Inv (s : State) : Prop where
  memory : s.mem.wf s.aw
  dfits : s.d.Fits s.aw
  efits : s.e.Fits s.aw
  calls : ∀ c ∈ openCalls s, c.Sound s.aw s.unowned
  decoding : s.d.dphase = .busy → DecodeRuns s
  encoding : s.e.ephase = .busy → EncodeRuns s
  together : s.d.dphase = .busy → s.e.ephase = .busy →
    (decodeCall s).compatible (encodeCall s s.e.enp)
  resultAtDone : s.d.dphase ≠ .done → s.d.inv = false

/-- No address lies in both ranges (20_memory.md R56, R57, R66). -/
def Apart (r q : Region) : Prop := ∀ x, ¬ (r.holds x = true ∧ q.holds x = true)

/-- Every address of the range is ordinary storage the host owns (20_memory.md R51, R58, R65). -/
def HostOwns (s : State) (r : Region) : Prop :=
  ∀ x, r.holds x = true → ∀ u ∈ s.unowned, u.holds x = false

/-- The text of a `DECODE` (20_memory.md R52). -/
def decodeText (s : State) : List Byte := s.mem.readBytes s.d.dsrc.val.toNat s.d.dlen.val.toNat

/-- The bytes of an `ENCODE` (20_memory.md R52). -/
def encodeData (s : State) : List Byte := s.mem.readBytes s.e.esrc.val.toNat s.e.elen.val.toNat

/-- The ranges of a `DECODE`: its text, and `decoded_size` of its text (20_memory.md R58, R67). -/
def decodeRanges (s : State) : Region × Region :=
  (⟨s.d.dsrc.val.toNat, s.d.dlen.val.toNat⟩, ⟨s.d.ddst.val.toNat, decodedSize (decodeText s)⟩)

/-- The ranges of an `ENCODE` (20_memory.md R58, R67). -/
def encodeRanges (s : State) (np : Bool) : Region × Region :=
  (⟨s.e.esrc.val.toNat, s.e.elen.val.toNat⟩, ⟨s.e.edst.val.toNat, encodedSizeFor np s.e.elen.val.toNat⟩)

/-- The buffers of a call: inside memory, the host's own, apart from each other, and apart from the other
engine's running call, of which only the inputs may overlap (20_memory.md R51, R55 to R58, R66). -/
def BuffersAcceptable (s : State) (input output : Region) (other : Option Call) : Prop :=
  input.base + input.len ≤ 2 ^ s.aw.bits ∧ output.base + output.len ≤ 2 ^ s.aw.bits ∧
  HostOwns s input ∧ HostOwns s output ∧ Apart input output ∧
  ∀ k, other = some k → Apart output k.input ∧ Apart output k.output ∧ Apart k.output input

/-- The preconditions of `DECODE` (41_decode.md R115). -/
def DecodeAcceptable (s : State) : Prop :=
  s.d.dphase ≠ .busy ∧ s.d.dsrc.written = true ∧ s.d.dlen.written = true ∧ s.d.ddst.written = true ∧
  BuffersAcceptable s (decodeRanges s).1 (decodeRanges s).2 (runningEncode s)

/-- The preconditions of `ENCODE` (42_encode.md R144). -/
def EncodeAcceptable (s : State) (np : Bool) : Prop :=
  s.e.ephase ≠ .busy ∧ s.e.esrc.written = true ∧ s.e.elen.written = true ∧ s.e.edst.written = true ∧
  BuffersAcceptable s (encodeRanges s np).1 (encodeRanges s np).2 (runningDecode s)

/-- A read of an AW-bit register may return `v` (10_state.md R40, R45). -/
def ShowsAddr (s : State) (r : Held Addr) (v : RegVal) : Prop :=
  (r.written = true → v = .addr r.val) ∧
  (r.written = false → ∃ a : Addr, v = .addr a ∧ a.toNat < 2 ^ s.aw.bits)

/-- A read of a 32-bit register may return `v` (10_state.md R40, R43, R45). -/
def ShowsWord (r : Held Word) (v : RegVal) : Prop :=
  (r.written = true → v = .word r.val) ∧ (r.written = false → ∃ w : Word, v = .word w)

/-- A read of register `n` may return `v` (10_state.md R21, R40). -/
def RegisterShows (s : State) (n : Nat) (v : RegVal) : Prop :=
  (n = 1 → v = .byte (dstatus s.d)) ∧ (n = 2 → ShowsAddr s s.d.dsrc v) ∧
  (n = 3 → ShowsAddr s s.d.dlen v) ∧ (n = 4 → ShowsAddr s s.d.ddst v) ∧
  (n = 5 → v = .addr s.d.doutlen) ∧ (n = 6 → ShowsWord s.d.ddin v) ∧
  (n = 7 → ShowsWord s.d.ddout v) ∧ (n = 9 → v = .byte (estatus s.e)) ∧
  (n = 10 → ShowsAddr s s.e.esrc v) ∧ (n = 11 → ShowsAddr s s.e.elen v) ∧
  (n = 12 → ShowsAddr s s.e.edst v) ∧ (n = 13 → v = .addr s.e.eoutlen) ∧
  (n = 14 → ShowsWord s.e.edin v) ∧ (n = 15 → ShowsWord s.e.edout v)

/-- The texts that decode (41_decode.md R128): data characters, then at most two pads that complete a
block of four; never one data character alone in the last block. -/
def ValidText (t : List Byte) : Prop :=
  ∃ data pads, t = data ++ pads ∧ (∀ c ∈ data, sym c ≠ none) ∧ data.length % 4 ≠ 1 ∧
    (pads = [] ∨ (pads = [padChar] ∧ data.length % 4 = 3) ∨
      (pads = [padChar, padChar] ∧ data.length % 4 = 2))

/-- The standard character of a URL-safe sign character; every other byte itself
(40_table_builder.md R106). -/
def standardChar (c : Byte) : Byte := if c = 0x2D then 0x2B else if c = 0x5F then 0x2F else c

end Sys2Proof.Machine
end

