-- ==== Sys2Proof/Certificates/Slice0/Obligations.lean ====
section
/-! DEFINITION. The statements about the FB64 engine, each from the spec's numbered rules. -/

open Sys2Proof Sys2Proof.Machine

/-! ## The command byte -/

/-- 30_encoding.md R71, R72, R77: a command decodes from its own byte, with every mode bit. -/
def Obligations.CommandDecodesFromItsByte : Prop :=
  ∀ i : Instr, i.WellFormed → decodeCommand (encode i) = .ok i

/-- 30_encoding.md R77: the rows of the opcode map, and the eight legal bytes. -/
def Obligations.LegalBytesAreTheOpcodeMap : Prop :=
  ∀ b : Byte,
    (decodeCommand b = .ok .decode ↔ b &&& 0xFF = 0x01) ∧
    (decodeCommand b = .ok .dec4 ↔ b &&& 0xFF = 0x02) ∧
    (∀ url np, decodeCommand b = .ok (.encode url np) ↔
      (b &&& 0xE7 = 0x05 ∧ b.getLsbD 3 = url ∧ b.getLsbD 4 = np)) ∧
    (∀ url, decodeCommand b = .ok (.enc3 url) ↔ (b &&& 0xF7 = 0x06 ∧ b.getLsbD 3 = url)) ∧
    ((∃ i, decodeCommand b = .ok i) ↔
      b ∈ [(0x01 : Byte), 0x02, 0x05, 0x0D, 0x15, 0x1D, 0x06, 0x0E])

/-- 30_encoding.md R78: which bytes are reserved, and that issuing one is refused. -/
def Obligations.ReservedBytesAreRefused : Prop :=
  (∀ b : Byte, (∃ why, decodeCommand b = .error why) ↔
    (b.extractLsb' 5 3 ≠ 0 ∨ b.extractLsb' 0 2 = 0 ∨ b.extractLsb' 0 2 = 3 ∨
      (b.getLsbD 2 = false ∧ (b.getLsbD 3 = true ∨ b.getLsbD 4 = true)) ∨
      (b.getLsbD 2 = true ∧ b.extractLsb' 0 2 = 2 ∧ b.getLsbD 4 = true))) ∧
  ∀ (s : State) (b : Byte) (evs : List Event) (why : Reserved),
    s.pending = .regWrite 0 (.byte b) :: evs → decodeCommand b = .error why →
    step s = .refused (.reservedCommand why)

/-- Bytes written out from the fields of 30_encoding.md R71, bit by bit. -/
def Obligations.WrittenOutBytesDecode : Prop :=
  decodeCommand 0b00000001 = .ok .decode ∧ decodeCommand 0b00000010 = .ok .dec4 ∧
  decodeCommand 0b00001101 = .ok (.encode true false) ∧
  decodeCommand 0b00010101 = .ok (.encode false true) ∧
  decodeCommand 0b00001110 = .ok (.enc3 true) ∧
  decodeCommand 0b00010110 = .error .npInEnc3

/-- 30_encoding.md R70: the step that writes a command byte runs the command it decodes to. -/
def Obligations.StepRunsTheIssuedCommand : Prop :=
  ∀ (s : State) (b : Byte) (evs : List Event) (i : Instr),
    s.pending = .regWrite 0 (.byte b) :: evs → decodeCommand b = .ok i → i.WellFormed →
    step s = exec i { s with pending := evs }

/-- A command placed by `withFetchWord` (log entry 13, the model's choice) is what the next step runs. -/
def Obligations.PlacedCommandRunsNext : Prop :=
  ∀ (s : State) (w : Nat) (i : Instr), decodeTableWord 8 w = some i →
    step (s.withFetchWord 8 w) = exec i (prepareOperands i s)

/-- 60_exceptions.md R187, 70_reset_and_hazards.md R210: whose turn it is. What happens when nothing is
pending, and the turn of an engine that is not BUSY, are the model's choice (log entries 3, 4, 5). -/
def Obligations.TurnsRunTheEngines : Prop :=
  ∀ s : State,
    (∀ evs, s.pending = .decTurn :: evs → step s = decStep { s with pending := evs }) ∧
    (∀ evs, s.pending = .encTurn :: evs → step s = encStep { s with pending := evs }) ∧
    (s.pending = [] → s.d.dphase = .busy → s.e.ephase ≠ .busy → step s = decStep s) ∧
    (s.pending = [] → s.d.dphase ≠ .busy → s.e.ephase = .busy → step s = encStep s) ∧
    (s.pending = [] → s.d.dphase = .busy → s.e.ephase = .busy →
      step s = decStep { s with free := s.free + 1 } ∨ step s = encStep { s with free := s.free + 1 }) ∧
    (s.pending = [] → s.d.dphase ≠ .busy → s.e.ephase ≠ .busy → step s = .next s)

/-! ## The tables -/

/-- 40_table_builder.md R93, R96: the constant tables equal the prescribed construction. -/
def Obligations.TablesEqualTheirConstruction : Prop :=
  (∀ c : Byte, (builtTable entry0)[c.toNat]? = some (dt0 c) ∧
    (builtTable entry1)[c.toNat]? = some (dt1 c) ∧ (builtTable entry2)[c.toNat]? = some (dt2 c) ∧
    (builtTable entry3)[c.toNat]? = some (dt3 c)) ∧
  (∀ i : Sym, walkedAlphabet[i.toNat]? = some (etStd i) ∧ builtUrlAlphabet[i.toNat]? = some (etUrl i)) ∧
  ∀ i : Sym, sym (etStd i) = some i ∧ sym (etUrl i) = some i

/-- 40_table_builder.md R95, R96, R97: a byte without a symbol value, `=` among them, holds the bad marker
in all four tables; 66 bytes have one. -/
def Obligations.OtherBytesHoldTheBadMarker : Prop :=
  (∀ c : Byte, sym c = none →
    dt0 c = 0x01000000 ∧ dt1 c = 0x01000000 ∧ dt2 c = 0x01000000 ∧ dt3 c = 0x01000000) ∧
  sym 0x3D = none ∧
  (List.range 256).countP (fun n => (sym (BitVec.ofNat 8 n)).isSome) = 66

/-- 40_table_builder.md R106: `-` decodes like `+` and `_` like `/`, mixed in any way. -/
def Obligations.BothAlphabetsDecodeAlike : Prop :=
  (dt0 0x2B = dt0 0x2D ∧ dt1 0x2B = dt1 0x2D ∧ dt2 0x2B = dt2 0x2D ∧ dt3 0x2B = dt3 0x2D) ∧
  (dt0 0x2F = dt0 0x5F ∧ dt1 0x2F = dt1 0x5F ∧ dt2 0x2F = dt2 0x5F ∧ dt3 0x2F = dt3 0x5F) ∧
  ∀ t : List Byte, decodeFn (t.map standardChar) = decodeFn t

/-! ## Blocks -/

/-- 41_decode.md R111: the values of `COMBINE`. -/
def Obligations.CombineFollowsTheBitLayout : Prop :=
  ∀ c0 c1 c2 c3 : Byte,
    (∀ s0 s1 s2 s3 : Sym, sym c0 = some s0 → sym c1 = some s1 → sym c2 = some s2 → sym c3 = some s3 →
      bad (combine c0 c1 c2 c3) = false ∧
      item (combine c0 c1 c2 c3) 0 = (s0.setWidth 8 <<< 2) ||| (s1.setWidth 8 >>> 4) ∧
      item (combine c0 c1 c2 c3) 1 = ((s1.setWidth 8 &&& 0xF) <<< 4) ||| (s2.setWidth 8 >>> 2) ∧
      item (combine c0 c1 c2 c3) 2 = ((s2.setWidth 8 &&& 0x3) <<< 6) ||| s3.setWidth 8 ∧
      (item (combine c0 c1 c2 c3) 0).toNat * 2 ^ 16 + (item (combine c0 c1 c2 c3) 1).toNat * 2 ^ 8 +
          (item (combine c0 c1 c2 c3) 2).toNat =
        s0.toNat * 2 ^ 18 + s1.toNat * 2 ^ 12 + s2.toNat * 2 ^ 6 + s3.toNat) ∧
    ((sym c0 = none ∨ sym c1 = none ∨ sym c2 = none ∨ sym c3 = none) →
      bad (combine c0 c1 c2 c3) = true ∧ item (combine c0 c1 c2 c3) 3 = 0x01 ∧
      combine c0 c1 c2 c3 &&& 0x00FFFFFF =
        contribution entry0 c0 ||| contribution entry1 c1 ||| contribution entry2 c2 |||
          contribution entry3 c3) ∧
    sym padChar = none

/-- 42_encode.md R140: the equations of `SPLIT`, the 24-bit number they cut, and that the decode equations
give the bytes back. -/
def Obligations.SplitIsTheInverseBitLayout : Prop :=
  ∀ b0 b1 b2 : Byte,
    (split0 b0).setWidth 8 = b0 >>> 2 ∧
    (split1 b0 b1).setWidth 8 = ((b0 &&& 0x3) <<< 4) ||| (b1 >>> 4) ∧
    (split2 b1 b2).setWidth 8 = ((b1 &&& 0xF) <<< 2) ||| (b2 >>> 6) ∧
    (split3 b2).setWidth 8 = b2 &&& 0x3F ∧
    (split0 b0).toNat * 2 ^ 18 + (split1 b0 b1).toNat * 2 ^ 12 + (split2 b1 b2).toNat * 2 ^ 6 +
        (split3 b2).toNat = b0.toNat * 2 ^ 16 + b1.toNat * 2 ^ 8 + b2.toNat ∧
    (((split0 b0).setWidth 8 <<< 2) ||| ((split1 b0 b1).setWidth 8 >>> 4)) = b0 ∧
    ((((split1 b0 b1).setWidth 8 &&& 0xF) <<< 4) ||| ((split2 b1 b2).setWidth 8 >>> 2)) = b1 ∧
    ((((split2 b1 b2).setWidth 8 &&& 0x3) <<< 6) ||| (split3 b2).setWidth 8) = b2

/-! ## DEC4 and ENC3 -/

/-- 41_decode.md R113: what `DEC4` does, to the last field, and when it reports InvalidEncoding. -/
def Obligations.Dec4DecodesOneBlock : Prop :=
  ∀ s : State, s.d.dphase ≠ .busy → s.d.ddin.written = true →
    exec .dec4 s = .next { s with d := { s.d with
      ddout := ⟨dt0 (item s.d.ddin.val 0) ||| dt1 (item s.d.ddin.val 1) ||| dt2 (item s.d.ddin.val 2) |||
        dt3 (item s.d.ddin.val 3), true⟩
      inv := [0, 1, 2, 3].any fun k => (sym (item s.d.ddin.val k)).isNone
      dphase := .done } }

/-- 42_encode.md R142: what `ENC3` does, to the last field. -/
def Obligations.Enc3EncodesOneBlock : Prop :=
  ∀ (s : State) (url : Bool), s.e.ephase ≠ .busy → s.e.edin.written = true →
    ∃ w : Word, exec (.enc3 url) s = .next { s with e := { s.e with edout := ⟨w, true⟩, ephase := .done } } ∧
      item w 0 = encodeTable url ((item s.e.edin.val 0 >>> 2).setWidth 6) ∧
      item w 1 = encodeTable url
        ((((item s.e.edin.val 0 &&& 0x3) <<< 4) ||| (item s.e.edin.val 1 >>> 4)).setWidth 6) ∧
      item w 2 = encodeTable url
        ((((item s.e.edin.val 1 &&& 0xF) <<< 2) ||| (item s.e.edin.val 2 >>> 6)).setWidth 6) ∧
      item w 3 = encodeTable url ((item s.e.edin.val 2 &&& 0x3F).setWidth 6)

/-- 42_encode.md R140, 95_test_vectors.md section 2.3: `DEC4` of the result of `ENC3` gives the three bytes
back, valid, in both alphabets. -/
def Obligations.Dec4UndoesEnc3 : Prop :=
  ∀ (s : State) (url : Bool), s.d.dphase ≠ .busy → s.e.ephase ≠ .busy → s.e.edin.written = true →
    ∃ t u : State, exec (.enc3 url) s = .next t ∧
      exec .dec4 { t with d := { t.d with ddin := t.e.edout } } = .next u ∧
      u.d.ddout.val = s.e.edin.val &&& 0x00FFFFFF ∧ u.d.inv = false

/-! ## DECODE -/

/-- 41_decode.md R114, R115: `DECODE` is accepted exactly under its preconditions, with the effects of
acceptance; else it is refused. -/
def Obligations.DecodeIsAcceptedUnderItsPreconditions : Prop :=
  ∀ s : State,
    (DecodeAcceptable s → exec .decode s = .next { s with
      d := { s.d with didx := 0, doutlen := 0, dbad := false, inv := false, dphase := .busy }
      dcalls := ⟨(decodeRanges s).1, (decodeRanges s).2⟩ :: s.dcalls }) ∧
    (¬ DecodeAcceptable s → ∃ r, exec .decode s = .refused r)

/-- 41_decode.md R121, R124: the interior-block step. -/
def Obligations.InteriorStepOfDec : Prop :=
  ∀ (s : State) (a o : Nat) (w : Word) (b : Bool), s.d.dphase = .busy →
    4 < s.d.dlen.val.toNat - s.d.didx.toNat →
    a = s.d.dsrc.val.toNat + s.d.didx.toNat → o = s.d.ddst.val.toNat + s.d.doutlen.toNat →
    w = combine (s.mem.read a) (s.mem.read (a + 1)) (s.mem.read (a + 2)) (s.mem.read (a + 3)) →
    b = (s.d.dbad || bad w) →
    a + 4 ≤ 2 ^ s.aw.bits → (b = false → o + 3 ≤ 2 ^ s.aw.bits) →
    decStep s = .next { s with
      mem := if b then s.mem else
        ((s.mem.write o (item w 0)).write (o + 1) (item w 1)).write (o + 2) (item w 2)
      d := { s.d with
        dbad := b
        doutlen := if b then s.d.doutlen else s.d.doutlen + 3
        didx := s.d.didx + 4 } }

/-- 41_decode.md R122: the final step with nothing left, and with one to four characters left: the
impossible remainder, and the block with its pads stripped. -/
def Obligations.FinalStepOfDec : Prop :=
  ∀ (s : State) (r a o : Nat) (c : Nat → Byte), s.d.dphase = .busy →
    r = s.d.dlen.val.toNat - s.d.didx.toNat → r ≤ 4 →
    a = s.d.dsrc.val.toNat + s.d.didx.toNat → o = s.d.ddst.val.toNat + s.d.doutlen.toNat →
    (∀ k, c k = if k < r then s.mem.read (a + k) else 0x41) →
    (r = 0 → decStep s = .next { s with d := { s.d with inv := s.d.dbad, dphase := .done } }) ∧
    (0 < r → a + r ≤ 2 ^ s.aw.bits → (r = 1 ∨ (r = 2 ∧ c 1 = 0x3D)) →
      decStep s = .next { s with d := { s.d with inv := true, didx := s.d.dlen.val, dphase := .done } }) ∧
    (0 < r → a + r ≤ 2 ^ s.aw.bits → ¬ (r = 1 ∨ (r = 2 ∧ c 1 = 0x3D)) →
      ∀ (trim n : Nat) (w : Word) (b : Bool),
        trim = (if c 3 = 0x3D then (if c 2 = 0x3D then 2 else 1) else 0) →
        w = combine (c 0) (c 1) (if trim = 2 then 0x41 else c 2) (if 1 ≤ trim then 0x41 else c 3) →
        n = r - trim - 1 → b = (s.d.dbad || bad w) → (b = false → o + n ≤ 2 ^ s.aw.bits) →
        decStep s = .next { s with
          mem := if b then s.mem else s.mem.writeBytes o ([item w 0, item w 1, item w 2].take n)
          d := { s.d with
            dbad := b
            doutlen := if b then s.d.doutlen else s.d.doutlen + BitVec.ofNat 64 n
            inv := b
            didx := s.d.dlen.val
            dphase := .done } })

/-- 41_decode.md R125, R126: from the write of the command byte on, with ENC not BUSY and nothing else
pending, the call is BUSY for all but the last of its steps, and ends as `decode_fn` says. That the BUSY
engine steps while nothing is pending is the model's choice (log entry 4). -/
def Obligations.DecodeCallComputesDecodeFn : Prop :=
  ∀ (s : State) (r : BlockResult), s.pending = [.regWrite 0 (.byte 0x01)] → s.e.ephase ≠ .busy →
    DecodeAcceptable s → r = decodeFn (decodeText s) →
    (∀ k < decodeSteps s.d.dlen.val.toNat, ∃ t : State,
      Host.Core.run Sys2Proof.core (1 + k) s = .next t ∧ t.d.dphase = .busy) ∧
    Host.Core.run Sys2Proof.core (1 + decodeSteps s.d.dlen.val.toNat) s = .next { s with
      pending := []
      mem := s.mem.writeBytes s.d.ddst.val.toNat r.out
      dcalls := ⟨(decodeRanges s).1, (decodeRanges s).2⟩ :: s.dcalls
      d := { s.d with
        dphase := .done
        inv := r.inv
        dbad := r.dbad
        didx := s.d.dlen.val
        doutlen := BitVec.ofNat 64 r.out.length } }

/-- 41_decode.md R130: never more than the decoded size, and exactly it on success. -/
def Obligations.DecodeWritesAtMostTheDecodedSize : Prop :=
  ∀ t : List Byte, (decodeFn t).out.length ≤ decodedSize t ∧
    ((decodeFn t).inv = false → (decodeFn t).out.length = decodedSize t)

/-- 41_decode.md R128: the texts that decode successfully. -/
def Obligations.ValidTextsAreExactlyTheOnesThatDecode : Prop :=
  ∀ t : List Byte, (decodeFn t).inv = false ↔ ValidText t

/-- 41_decode.md R127: the edge cases. -/
def Obligations.EdgeCasesOfDecode : Prop :=
  decodeFn [] = ⟨false, false, []⟩ ∧
  (∀ t : List Byte, t.length % 4 = 1 → (decodeFn t).inv = true) ∧
  (∀ t : List Byte, (∀ c ∈ t, sym c ≠ none) → t.length % 4 = 2 →
    (decodeFn t).inv = false ∧ (decodeFn t).out.length = t.length / 4 * 3 + 1 ∧
    decodeFn (t ++ [padChar, padChar]) = decodeFn t) ∧
  (∀ t : List Byte, (∀ c ∈ t, sym c ≠ none) → t.length % 4 = 3 →
    (decodeFn t).inv = false ∧ (decodeFn t).out.length = t.length / 4 * 3 + 2 ∧
    decodeFn (t ++ [padChar]) = decodeFn t) ∧
  (decodeFn [0x5A, 0x67, 0x3D, 0x3D]).out = [0x66] ∧ (decodeFn [0x5A, 0x67]).out = [0x66] ∧
  (decodeFn [0x41]).inv = true ∧ (decodeFn [0x41, 0x3D, 0x41, 0x3D]).inv = true

/-- 41_decode.md R129: bits of the last symbol that belong to no byte are not tested. -/
def Obligations.UnusedLowBitsAreNotTested : Prop :=
  ∀ (c0 c1 c c' : Byte) (x y : Sym), sym c = some x → sym c' = some y →
    (x >>> 4 = y >>> 4 →
      decodeFn [c0, c, padChar, padChar] = decodeFn [c0, c', padChar, padChar] ∧
      decodeFn [c0, c] = decodeFn [c0, c']) ∧
    (x >>> 2 = y >>> 2 →
      decodeFn [c0, c1, c, padChar] = decodeFn [c0, c1, c', padChar] ∧
      decodeFn [c0, c1, c] = decodeFn [c0, c1, c'])

/-- 41_decode.md R124, 60_exceptions.md R177: after a failure the bytes written are those of the blocks
before the first one that fails. -/
def Obligations.FailedDecodeWritesTheBlocksBeforeTheFailure : Prop :=
  ∀ t : List Byte, (decodeFn t).inv = true →
    ∃ k, 4 * k < t.length ∧ (decodeFn t).out.length = 3 * k ∧
      (decodeFn t).out = (decodeFn (t.take (4 * k))).out ∧ (decodeFn (t.take (4 * k))).inv = false ∧
      ((∃ c0 c1 c2 c3 c4 rest, t.drop (4 * k) = c0 :: c1 :: c2 :: c3 :: c4 :: rest ∧
          bad (combine c0 c1 c2 c3) = true ∧ (decodeFn t).dbad = true) ∨
        (t.length ≤ 4 * k + 4 ∧ (finalBlock false (t.drop (4 * k))).inv = true ∧
          (decodeFn t).dbad = (finalBlock false (t.drop (4 * k))).dbad))

/-! ## ENCODE -/

/-- 42_encode.md R143, R144: `ENCODE` is accepted exactly under its preconditions, with the effects of
acceptance; else it is refused. -/
def Obligations.EncodeIsAcceptedUnderItsPreconditions : Prop :=
  ∀ (s : State) (url np : Bool),
    (EncodeAcceptable s np → exec (.encode url np) s = .next { s with
      e := { s.e with eidx := 0, eoutlen := 0, eurl := url, enp := np, ephase := .busy }
      ecalls := ⟨(encodeRanges s np).1, (encodeRanges s np).2⟩ :: s.ecalls }) ∧
    (¬ EncodeAcceptable s np → ∃ r, exec (.encode url np) s = .refused r)

/-- 42_encode.md R147: the full-block step. -/
def Obligations.FullBlockStepOfEnc : Prop :=
  ∀ (s : State) (a o : Nat) (b0 b1 b2 : Byte), s.e.ephase = .busy →
    3 ≤ s.e.elen.val.toNat - s.e.eidx.toNat →
    a = s.e.esrc.val.toNat + s.e.eidx.toNat → o = s.e.edst.val.toNat + s.e.eoutlen.toNat →
    b0 = s.mem.read a → b1 = s.mem.read (a + 1) → b2 = s.mem.read (a + 2) →
    a + 3 ≤ 2 ^ s.aw.bits → o + 4 ≤ 2 ^ s.aw.bits →
    encStep s = .next { s with
      mem := (((s.mem.write o (encodeTable s.e.eurl (split0 b0))).write (o + 1)
        (encodeTable s.e.eurl (split1 b0 b1))).write (o + 2)
        (encodeTable s.e.eurl (split2 b1 b2))).write (o + 3) (encodeTable s.e.eurl (split3 b2))
      e := { s.e with eoutlen := s.e.eoutlen + 4, eidx := s.e.eidx + 3 } }

/-- 42_encode.md R148: the final step with nothing, one byte or two bytes left, padding on or off. -/
def Obligations.FinalStepOfEnc : Prop :=
  ∀ (s : State) (m a o : Nat) (b0 b1 : Byte), s.e.ephase = .busy →
    m = s.e.elen.val.toNat - s.e.eidx.toNat → m < 3 →
    a = s.e.esrc.val.toNat + s.e.eidx.toNat → o = s.e.edst.val.toNat + s.e.eoutlen.toNat →
    b0 = s.mem.read a → b1 = s.mem.read (a + 1) →
    (m = 0 → encStep s = .next { s with e := { s.e with ephase := .done } }) ∧
    (m = 1 → a + 1 ≤ 2 ^ s.aw.bits → o + (if s.e.enp then 2 else 4) ≤ 2 ^ s.aw.bits →
      encStep s = .next { s with
        mem := s.mem.writeBytes o ([encodeTable s.e.eurl (split0 b0), encodeTable s.e.eurl (split1 b0 0)] ++
          (if s.e.enp then [] else [0x3D, 0x3D]))
        e := { s.e with
          eoutlen := s.e.eoutlen + (if s.e.enp then 2 else 4), eidx := s.e.elen.val, ephase := .done } }) ∧
    (m = 2 → a + 2 ≤ 2 ^ s.aw.bits → o + (if s.e.enp then 3 else 4) ≤ 2 ^ s.aw.bits →
      encStep s = .next { s with
        mem := s.mem.writeBytes o ([encodeTable s.e.eurl (split0 b0), encodeTable s.e.eurl (split1 b0 b1),
          encodeTable s.e.eurl (split2 b1 0)] ++ (if s.e.enp then [] else [0x3D]))
        e := { s.e with
          eoutlen := s.e.eoutlen + (if s.e.enp then 3 else 4), eidx := s.e.elen.val, ephase := .done } })

/-- 42_encode.md R149, R150: from the write of the command byte on, with DEC not BUSY and nothing else
pending, the call is BUSY for all but the last of its steps, and ends as `encode_fn` says. That the BUSY
engine steps while nothing is pending is the model's choice (log entry 4). -/
def Obligations.EncodeCallComputesEncodeFn : Prop :=
  ∀ (s : State) (b : Byte) (url np : Bool) (out : List Byte),
    s.pending = [.regWrite 0 (.byte b)] → decodeCommand b = .ok (.encode url np) →
    s.d.dphase ≠ .busy → EncodeAcceptable s np → out = encodeFn url np (encodeData s) →
    (∀ k < encodeSteps s.e.elen.val.toNat, ∃ t : State,
      Host.Core.run Sys2Proof.core (1 + k) s = .next t ∧ t.e.ephase = .busy) ∧
    Host.Core.run Sys2Proof.core (1 + encodeSteps s.e.elen.val.toNat) s = .next { s with
      pending := []
      mem := s.mem.writeBytes s.e.edst.val.toNat out
      ecalls := ⟨(encodeRanges s np).1, (encodeRanges s np).2⟩ :: s.ecalls
      e := { s.e with
        ephase := .done
        eurl := url
        enp := np
        eidx := s.e.elen.val
        eoutlen := BitVec.ofNat 64 out.length } }

/-- 42_encode.md R151: the output length, by the size function and by its closed form. -/
def Obligations.EncodedLengthIsTheEncodedSize : Prop :=
  ∀ (url np : Bool) (d : List Byte),
    (encodeFn url np d).length = encodedSizeFor np d.length ∧
    (d.length % 3 = 0 → 3 * (encodeFn url np d).length = 4 * d.length) ∧
    (d.length % 3 ≠ 0 → (encodeFn url np d).length =
      4 * (d.length / 3) + (if np then d.length % 3 + 1 else 4))

/-- 42_encode.md R141, R151: every character is one of the chosen alphabet, but for the one or two pads at
the end of a padded text. -/
def Obligations.EncodedTextIsOfTheChosenAlphabet : Prop :=
  ∀ (url : Bool) (d : List Byte),
    (∀ c ∈ encodeFn url true d, c ≠ padChar ∧ ∃ i : Sym, c = encodeTable url i) ∧
    encodeFn url false d = encodeFn url true d ++ List.replicate ((3 - d.length % 3) % 3) padChar

/-- 42_encode.md R152: the round trip, and the decoded size of an encoded text. -/
def Obligations.DecodeUndoesEncode : Prop :=
  ∀ (url np : Bool) (d : List Byte),
    decodeFn (encodeFn url np d) = ⟨false, false, d⟩ ∧ decodedSize (encodeFn url np d) = d.length

/-- 70_reset_and_hazards.md R207: a text or data cut at block boundaries, with no pad before the last piece,
is coded piece by piece. -/
def Obligations.PiecesCutAtBlocksCodeSeparately : Prop :=
  (∀ (url np : Bool) (a b : List Byte), a.length % 3 = 0 →
    encodeFn url np (a ++ b) = encodeFn url np a ++ encodeFn url np b) ∧
  ∀ a b : List Byte, a.length % 4 = 0 → padChar ∉ a → (decodeFn a).inv = false →
    decodeFn (a ++ b) =
      ⟨(decodeFn b).dbad, (decodeFn b).inv, (decodeFn a).out ++ (decodeFn b).out⟩

/-! ## The size functions -/

/-- 43_size_functions.md R166: no value outside the domain; inside it nothing exceeds `MAX_ADDR`. -/
def Obligations.SizesHaveTheirDomain : Prop :=
  ∀ (aw : AddrWidth) (len : Nat) (t : List Byte),
    (hostEncodedSize aw len = if len ≤ maxAddr aw / 4 then some ((len + 2) / 3 * 4) else none) ∧
    (hostEncodedSizeNopad aw len = if len ≤ maxAddr aw / 4 then some (encodedSizeNopad len) else none) ∧
    (hostDecodedSizeNopad aw len = if len ≤ maxAddr aw / 3 then some (len * 3 / 4) else none) ∧
    (hostDecodedSize aw t = if t.length ≤ maxAddr aw / 3 then some (decodedSize t) else none) ∧
    (len ≤ maxAddr aw / 4 → len + 2 ≤ maxAddr aw ∧ (len + 2) / 3 * 4 ≤ maxAddr aw) ∧
    (len ≤ maxAddr aw / 3 → len * 3 ≤ maxAddr aw)

/-- 43_size_functions.md R163: the formula; the length alone gives an upper bound, which is exact for
well-formed unpadded input. -/
def Obligations.UnpaddedSizeIsAnUpperBound : Prop :=
  ∀ t : List Byte, decodedSizeNopad t.length = t.length * 3 / 4 ∧ decodedSize t ≤ decodedSizeNopad t.length ∧
    ((decodeFn t).inv = false → padChar ∉ t → (decodeFn t).out.length = decodedSizeNopad t.length)

/-- 43_size_functions.md R165, R168: decoding sizes undo encoding sizes. -/
def Obligations.UnpaddedSizesAreInverse : Prop :=
  ∀ n : Nat, decodedSizeNopad (encodedSizeNopad n) = n ∧ encodedSizeNopad n % 4 ≠ 1

/-! ## The register port -/

/-- 10_state.md R40: a register read returns the register and changes nothing of the engine, in every
phase; registers 0 and 8 are not read. -/
def Obligations.RegReadReturnsTheRegister : Prop :=
  ∀ (s : State) (n : Nat) (evs : List Event), s.pending = .regRead n :: evs →
    (n = 0 → step s = .refused .readOfCommand) ∧
    (n = 8 → step s = .refused (.reservedRegister 8)) ∧
    (n ∈ [1, 2, 3, 4, 5, 6, 7, 9, 10, 11, 12, 13, 14, 15] →
      ∃ (t : State) (v : RegVal), step s = .next t ∧ t.lastRead = some v ∧ RegisterShows s n v ∧
        t.d = s.d ∧ t.e = s.e ∧ t.mem = s.mem ∧ t.unowned = s.unowned ∧ t.pending = evs)

/-- 10_state.md R41, R22: a write of an operand register sets it, and nothing else; a write of a read-only
register is refused. That a value of another width is refused, an address of more than AW bits among them, is
the model's deduction from R22 (log entry 25). -/
def Obligations.RegWriteSetsOneRegister : Prop :=
  ∀ (s q : State) (n : Nat) (v : RegVal) (evs : List Event),
    s.pending = .regWrite n v :: evs → q = { s with pending := evs } →
    (n ∈ [1, 5, 7, 9, 13, 15] → step s = .refused (.readOnlyRegister n)) ∧
    (∀ a : Addr, v = .addr a → a.toNat < 2 ^ s.aw.bits → s.d.dphase ≠ .busy →
      (n = 2 → step s = .next { q with d := { q.d with dsrc := ⟨a, true⟩ } }) ∧
      (n = 3 → step s = .next { q with d := { q.d with dlen := ⟨a, true⟩ } }) ∧
      (n = 4 → step s = .next { q with d := { q.d with ddst := ⟨a, true⟩ } })) ∧
    (∀ w : Word, v = .word w → s.d.dphase ≠ .busy → n = 6 →
      step s = .next { q with d := { q.d with ddin := ⟨w, true⟩ } }) ∧
    (∀ a : Addr, v = .addr a → a.toNat < 2 ^ s.aw.bits → s.e.ephase ≠ .busy →
      (n = 10 → step s = .next { q with e := { q.e with esrc := ⟨a, true⟩ } }) ∧
      (n = 11 → step s = .next { q with e := { q.e with elen := ⟨a, true⟩ } }) ∧
      (n = 12 → step s = .next { q with e := { q.e with edst := ⟨a, true⟩ } })) ∧
    (∀ w : Word, v = .word w → s.e.ephase ≠ .busy → n = 14 →
      step s = .next { q with e := { q.e with edin := ⟨w, true⟩ } }) ∧
    (n ∈ [2, 3, 4, 10, 11, 12] → (∀ a : Addr, v = .addr a → 2 ^ s.aw.bits ≤ a.toNat) →
      step s = .refused (.widthMismatch n) ∨ step s = .refused (.registerOfBusyBank n)) ∧
    (n ∈ [6, 14] → (∀ w : Word, v ≠ .word w) →
      step s = .refused (.widthMismatch n) ∨ step s = .refused (.registerOfBusyBank n)) ∧
    (n = 0 → (∀ b : Byte, v ≠ .byte b) → step s = .refused (.widthMismatch 0))

/-- 10_state.md R42: the reserved register numbers. -/
def Obligations.ReservedRegisterNumbersAreRefused : Prop :=
  ∀ (s : State) (n : Nat) (v : RegVal) (evs : List Event), (n = 8 ∨ 15 < n) →
    (s.pending = .regRead n :: evs → step s = .refused (.reservedRegister n)) ∧
    (s.pending = .regWrite n v :: evs → step s = .refused (.reservedRegister n))

/-- 10_state.md R44: the operand registers of a BUSY bank; the other bank's stay writable. -/
def Obligations.OperandsOfABusyBankAreNotWritten : Prop :=
  ∀ (s : State) (n : Nat) (v : RegVal) (evs : List Event), s.pending = .regWrite n v :: evs →
    (s.d.dphase = .busy → n ∈ [2, 3, 4, 6] → step s = .refused (.registerOfBusyBank n)) ∧
    (s.e.ephase = .busy → n ∈ [10, 11, 12, 14] → step s = .refused (.registerOfBusyBank n)) ∧
    (∀ a : Addr, v = .addr a → a.toNat < 2 ^ s.aw.bits →
      (s.d.dphase = .busy → s.e.ephase ≠ .busy → n ∈ [10, 11, 12] → ∃ t, step s = .next t) ∧
      (s.e.ephase = .busy → s.d.dphase ≠ .busy → n ∈ [2, 3, 4] → ∃ t, step s = .next t)) ∧
    (∀ w : Word, v = .word w →
      (s.d.dphase = .busy → s.e.ephase ≠ .busy → n = 14 → ∃ t, step s = .next t) ∧
      (s.e.ephase = .busy → s.d.dphase ≠ .busy → n = 6 → ∃ t, step s = .next t))

/-- 30_encoding.md R82: a command to a BUSY bank is refused, whatever the other bank does; the one-block
commands of the other bank go on. -/
def Obligations.CommandsToABusyBankAreRefused : Prop :=
  ∀ s : State,
    (s.d.dphase = .busy → exec .decode s = .refused .bankBusy ∧ exec .dec4 s = .refused .bankBusy) ∧
    (s.e.ephase = .busy → ∀ url np, exec (.encode url np) s = .refused .bankBusy ∧
      exec (.enc3 url) s = .refused .bankBusy) ∧
    (s.d.dphase ≠ .busy → exec .decode s ≠ .refused .bankBusy ∧ exec .dec4 s ≠ .refused .bankBusy) ∧
    (s.e.ephase ≠ .busy → ∀ url np, exec (.encode url np) s ≠ .refused .bankBusy ∧
      exec (.enc3 url) s ≠ .refused .bankBusy)

/-- 10_state.md R45: a host-written register that nothing has written returns some value of its width (a free
value, log entry 7), and a command that uses it is refused. That the refusal has this name when the buffers are
wrong too is the model's order of checks (log entry 21). -/
def Obligations.UnwrittenOperandsAreRefused : Prop :=
  ∀ s : State,
    (s.d.dphase ≠ .busy →
      ((s.d.dsrc.written = false ∨ s.d.dlen.written = false ∨ s.d.ddst.written = false) →
        exec .decode s = .refused .operandUnwritten) ∧
      (s.d.ddin.written = false → exec .dec4 s = .refused .operandUnwritten)) ∧
    (s.e.ephase ≠ .busy → ∀ url np,
      ((s.e.esrc.written = false ∨ s.e.elen.written = false ∨ s.e.edst.written = false) →
        exec (.encode url np) s = .refused .operandUnwritten) ∧
      (s.e.edin.written = false → exec (.enc3 url) s = .refused .operandUnwritten)) ∧
    ∀ n evs, s.pending = .regRead n :: evs →
      ((n = 2 ∧ s.d.dsrc.written = false ∨ n = 3 ∧ s.d.dlen.written = false ∨
          n = 4 ∧ s.d.ddst.written = false ∨ n = 10 ∧ s.e.esrc.written = false ∨
          n = 11 ∧ s.e.elen.written = false ∨ n = 12 ∧ s.e.edst.written = false) →
        ∃ (t : State) (a : Addr), step s = .next t ∧ t.lastRead = some (.addr a) ∧
          a.toNat < 2 ^ s.aw.bits) ∧
      ((n = 6 ∧ s.d.ddin.written = false ∨ n = 14 ∧ s.e.edin.written = false) →
        ∃ (t : State) (w : Word), step s = .next t ∧ t.lastRead = some (.word w))

/-- 10_state.md R27: the status bytes that can be read. -/
def Obligations.StatusBytesThatCanBeRead : Prop :=
  ∀ s : State, Inv s →
    dstatus s.d ∈ [(0x00 : Byte), 0x01, 0x02, 0x06] ∧ estatus s.e ∈ [(0x00 : Byte), 0x01, 0x02] ∧
    ((dstatus s.d).extractLsb' 0 2 = 2 ↔ ddone s = true) ∧
    ((estatus s.e).extractLsb' 0 2 = 2 ↔ edone s = true)

/-- 20_memory.md R59: until it has read DONE the host keeps off a call's buffers; a read of DONE gives
them back. -/
def Obligations.HostKeepsOffTheBuffersOfACall : Prop :=
  ∀ (s q : State) (a : Nat) (b : Byte) (evs : List Event), q = { s with pending := evs } →
    (s.pending = .memWrite a b :: evs → a < 2 ^ s.aw.bits →
      ((∃ c ∈ s.dcalls ++ s.ecalls, c.input.holds a = true ∨ c.output.holds a = true) →
        step s = .refused (.heldByCall a)) ∧
      ((∀ c ∈ s.dcalls ++ s.ecalls, c.input.holds a = false ∧ c.output.holds a = false) →
        step s = .next { q with mem := s.mem.write a b })) ∧
    (s.pending = .memRead a :: evs → a < 2 ^ s.aw.bits →
      ((∃ c ∈ s.dcalls ++ s.ecalls, c.output.holds a = true) → step s = .refused (.heldByCall a)) ∧
      ((∀ c ∈ s.dcalls ++ s.ecalls, c.output.holds a = false) →
        step s = .next { q with lastRead := some (.byte (s.mem.read a)) })) ∧
    (s.pending = .regRead 1 :: evs →
      step s = .next { q with
        lastRead := some (.byte (dstatus s.d))
        dcalls := if s.d.dphase = .done then [] else s.dcalls }) ∧
    (s.pending = .regRead 9 :: evs →
      step s = .next { q with
        lastRead := some (.byte (estatus s.e))
        ecalls := if s.e.ephase = .done then [] else s.ecalls })

/-! ## Reset -/

/-- 70_reset_and_hazards.md R195, R197: `RESET` at any time, a running call abandoned. -/
def Obligations.ResetEventResetsTheEngine : Prop :=
  ∀ (s : State) (evs : List Event), s.pending = .reset :: evs →
    ∃ t : State, step s = .next t ∧
      t.d.dphase = .idle ∧ t.e.ephase = .idle ∧ t.d.inv = false ∧ t.d.dbad = false ∧
      t.d.didx = 0 ∧ t.e.eidx = 0 ∧ t.d.doutlen = 0 ∧ t.e.eoutlen = 0 ∧ t.e.eurl = false ∧ t.e.enp = false ∧
      t.d.dsrc.written = false ∧ t.d.dlen.written = false ∧ t.d.ddst.written = false ∧
      t.d.ddin.written = false ∧ t.d.ddout.written = false ∧ t.e.esrc.written = false ∧
      t.e.elen.written = false ∧ t.e.edst.written = false ∧ t.e.edin.written = false ∧
      t.e.edout.written = false ∧
      t.mem = s.mem ∧ t.unowned = s.unowned ∧ t.dcalls = [] ∧ t.ecalls = []

/-- 10_state.md R43: the values the spec gives for reset. -/
def Obligations.ResetStateHasTheSpecsValues : Prop :=
  dstatus State.reset.d = 0x00 ∧ estatus State.reset.e = 0x00 ∧
  State.reset.d.dphase = .idle ∧ State.reset.e.ephase = .idle ∧ State.reset.d.inv = false ∧
  State.reset.d.dbad = false ∧ State.reset.d.didx = 0 ∧ State.reset.e.eidx = 0 ∧
  State.reset.d.doutlen = 0 ∧ State.reset.e.eoutlen = 0 ∧ State.reset.e.eurl = false ∧
  State.reset.e.enp = false ∧ State.reset.d.dsrc.written = false ∧ State.reset.d.dlen.written = false ∧
  State.reset.d.ddst.written = false ∧ State.reset.d.ddin.written = false ∧
  State.reset.d.ddout.written = false ∧ State.reset.e.esrc.written = false ∧
  State.reset.e.elen.written = false ∧ State.reset.e.edst.written = false ∧
  State.reset.e.edin.written = false ∧ State.reset.e.edout.written = false

/-! ## Frames -/

/-- 00_scope.md R12, 30_encoding.md R75: a command changes its own bank only, and no byte of memory. -/
def Obligations.CommandsLeaveTheOtherBankAndMemory : Prop :=
  ∀ (i : Instr) (s t : State), exec i s = .next t →
    ((i = .decode ∨ i = .dec4) → t.e = s.e ∧ t.ecalls = s.ecalls) ∧
    ((∃ url np, i = .encode url np ∨ i = .enc3 url) → t.d = s.d ∧ t.dcalls = s.dcalls) ∧
    (∀ a, t.mem.read a = s.mem.read a) ∧ t.aw = s.aw ∧ t.unowned = s.unowned ∧ t.pending = s.pending ∧
    t.lastRead = s.lastRead

/-- 41_decode.md R113, R114, 42_encode.md R142, R143: what each command leaves of its own bank. -/
def Obligations.CommandsLeaveTheRestOfTheirBank : Prop :=
  ∀ (i : Instr) (s t : State), exec i s = .next t →
    (t.d.dsrc = s.d.dsrc ∧ t.d.dlen = s.d.dlen ∧ t.d.ddst = s.d.ddst ∧ t.d.ddin = s.d.ddin) ∧
    (t.e.esrc = s.e.esrc ∧ t.e.elen = s.e.elen ∧ t.e.edst = s.e.edst ∧ t.e.edin = s.e.edin) ∧
    (i = .decode → t.d.ddout = s.d.ddout) ∧
    (i = .dec4 → t.d.doutlen = s.d.doutlen ∧ t.d.didx = s.d.didx ∧ t.d.dbad = s.d.dbad) ∧
    (∀ url np, i = .encode url np → t.e.edout = s.e.edout) ∧
    (∀ url, i = .enc3 url → t.e.eoutlen = s.e.eoutlen ∧ t.e.eidx = s.e.eidx ∧ t.e.eurl = s.e.eurl ∧
      t.e.enp = s.e.enp)

/-- 20_memory.md R67, 30_encoding.md R84: a turn of an engine leaves the other bank, its own operand
registers, and every byte but those the output cursor counts from its address on. -/
def Obligations.EngineTurnsLeaveEverythingElse : Prop :=
  ∀ s t : State,
    (decStep s = .next t →
      t.e = s.e ∧ t.d.dsrc = s.d.dsrc ∧ t.d.dlen = s.d.dlen ∧ t.d.ddst = s.d.ddst ∧ t.d.ddin = s.d.ddin ∧
      t.d.ddout = s.d.ddout ∧ t.aw = s.aw ∧ t.unowned = s.unowned ∧ t.dcalls = s.dcalls ∧
      t.ecalls = s.ecalls ∧ t.lastRead = s.lastRead ∧
      ∀ a, (a < decOutput s ∨ decOutput s + (t.d.doutlen - s.d.doutlen).toNat ≤ a) →
        t.mem.read a = s.mem.read a) ∧
    (encStep s = .next t →
      t.d = s.d ∧ t.e.esrc = s.e.esrc ∧ t.e.elen = s.e.elen ∧ t.e.edst = s.e.edst ∧ t.e.edin = s.e.edin ∧
      t.e.edout = s.e.edout ∧ t.e.eurl = s.e.eurl ∧ t.e.enp = s.e.enp ∧ t.aw = s.aw ∧
      t.unowned = s.unowned ∧ t.dcalls = s.dcalls ∧ t.ecalls = s.ecalls ∧ t.lastRead = s.lastRead ∧
      ∀ a, (a < encOutput s ∨ encOutput s + (t.e.eoutlen - s.e.eoutlen).toNat ≤ a) →
        t.mem.read a = s.mem.read a)

/-- 10_state.md R36: nothing of an earlier call reaches the next one: neither its acceptance nor, under any
schedule, the state after any number of steps from the write of its command on. -/
def Obligations.NothingCarriesOverToTheNextCall : Prop :=
  ∀ (s sd se : State) (x y : Addr) (b v : Bool),
    sd = { s with d := { s.d with didx := x, doutlen := y, dbad := b, inv := v } } →
    se = { s with e := { s.e with eidx := x, eoutlen := y, eurl := b, enp := v } } →
    exec .decode sd = exec .decode s ∧
    (∀ url np, exec (.encode url np) se = exec (.encode url np) s) ∧
    (∀ evs k, s.pending = .regWrite 0 (.byte 0x01) :: evs →
      Host.Core.run Sys2Proof.core (1 + k) sd = Host.Core.run Sys2Proof.core (1 + k) s) ∧
    (∀ c evs k url np, s.pending = .regWrite 0 (.byte c) :: evs → decodeCommand c = .ok (.encode url np) →
      Host.Core.run Sys2Proof.core (1 + k) se = Host.Core.run Sys2Proof.core (1 + k) s)

/-! ## Host sequences -/

/-- 30_encoding.md R81, 70_reset_and_hazards.md R209: `dec4` and `enc3` return the result of their block. -/
def Obligations.OneBlockSequencesReturnTheirResult : Prop :=
  ∀ (s : State) (w : Word) (url : Bool) (evs : List Event),
    (s.pending = dec4Sequence w ++ evs → s.d.dphase ≠ .busy →
      ∃ t : State, Host.Core.run Sys2Proof.core 3 s = .next t ∧
        t.lastRead = some (.word (combine (item w 0) (item w 1) (item w 2) (item w 3))) ∧
        t.d.inv = bad (combine (item w 0) (item w 1) (item w 2) (item w 3)) ∧ t.d.ddin.val = w ∧
        t.mem = s.mem ∧ t.e = s.e ∧ t.pending = evs) ∧
    (s.pending = enc3Sequence url w ++ evs → s.e.ephase ≠ .busy →
      ∃ (t : State) (r : Word), Host.Core.run Sys2Proof.core 3 s = .next t ∧ t.lastRead = some (.word r) ∧
        [item r 0, item r 1, item r 2, item r 3] = encBlock url (item w 0) (item w 1) (item w 2) ∧
        t.e.edin.val = w ∧ t.mem = s.mem ∧ t.d = s.d ∧ t.pending = evs)

/-- 30_encoding.md R81, 70_reset_and_hazards.md R198: `decode` and `encode` run their command on the operands
they write. -/
def Obligations.CallSequencesIssueTheirCommand : Prop :=
  ∀ (s : State) (src len dst : Addr) (url np : Bool) (evs : List Event),
    src.toNat < 2 ^ s.aw.bits → len.toNat < 2 ^ s.aw.bits → dst.toNat < 2 ^ s.aw.bits →
    (s.pending = decodeSequence src len dst ++ evs → s.d.dphase ≠ .busy →
      Host.Core.run Sys2Proof.core 4 s = exec .decode { s with
        pending := evs
        d := { s.d with dsrc := ⟨src, true⟩, dlen := ⟨len, true⟩, ddst := ⟨dst, true⟩ } }) ∧
    (s.pending = encodeSequence url np src len dst ++ evs → s.e.ephase ≠ .busy →
      Host.Core.run Sys2Proof.core 4 s = exec (.encode url np) { s with
        pending := evs
        e := { s.e with esrc := ⟨src, true⟩, elen := ⟨len, true⟩, edst := ⟨dst, true⟩ } })

/-! ## The whole machine -/

/-- The state after reset meets the invariant. -/
def Obligations.ResetMeetsTheInvariant : Prop := Inv State.reset

/-- Every step keeps the invariant (10_state.md R22, R28, R34; 20_memory.md R56, R59, R66), and AW
(00_scope.md R7). -/
def Obligations.EveryStepKeepsTheInvariant : Prop :=
  ∀ s t : State, Inv s → step s = .next t → Inv t ∧ t.aw = s.aw

/-- 70_reset_and_hazards.md R210: a BUSY engine always has a step, which ends the call or comes nearer to
its end. -/
def Obligations.BusyEnginesAlwaysProgress : Prop :=
  ∀ s : State, Inv s →
    (s.d.dphase = .busy → ∃ t : State, decStep s = .next t ∧
      (t.d.dphase = .done ∨ (t.d.dphase = .busy ∧ decRem t < decRem s))) ∧
    (s.e.ephase = .busy → ∃ t : State, encStep s = .next t ∧
      (t.e.ephase = .done ∨ (t.e.ephase = .busy ∧ encRem t < encRem s)))

/-- 60_exceptions.md R187: with both engines BUSY the order of their steps does not matter. -/
def Obligations.EngineStepsCommute : Prop :=
  ∀ s : State, Inv s → s.d.dphase = .busy → s.e.ephase = .busy →
    ∃ t u v : State, decStep s = .next t ∧ encStep s = .next u ∧ encStep t = .next v ∧ decStep u = .next v

/-- 20_memory.md R67: memory changes only in the output range of a call, or by the host's own write. -/
def Obligations.MemoryChangesOnlyInOutputRanges : Prop :=
  ∀ (s t : State) (x : Nat), Inv s → step s = .next t →
    (∀ c ∈ s.dcalls ++ s.ecalls, c.output.holds x = false) →
    (∀ b evs, s.pending ≠ .memWrite x b :: evs) →
    t.mem.read x = s.mem.read x

/-- 70_reset_and_hazards.md R197, 60_exceptions.md R183: a call ends by its engine's final step or by
`RESET`, in no other way. -/
def Obligations.OnlyFinalStepOrResetEndsACall : Prop :=
  ∀ s t : State, step s = .next t →
    (s.d.dphase = .busy → t.d.dphase ≠ .busy →
      (t.d.dphase = .idle ∧ ∃ evs, s.pending = .reset :: evs) ∨
      (t.d.dphase = .done ∧ decRem s ≤ 4 ∧ (s.pending = [] ∨ ∃ evs, s.pending = .decTurn :: evs))) ∧
    (s.e.ephase = .busy → t.e.ephase ≠ .busy →
      (t.e.ephase = .idle ∧ ∃ evs, s.pending = .reset :: evs) ∨
      (t.e.ephase = .done ∧ encRem s < 3 ∧ (s.pending = [] ∨ ∃ evs, s.pending = .encTurn :: evs)))

/-- 60_exceptions.md R175: InvalidEncoding is raised by `DEC4` and by the final step of DEC, by nothing
else. -/
def Obligations.OnlyDec4AndFinalStepRaiseInvalidEncoding : Prop :=
  ∀ s t : State, step s = .next t → s.d.inv = false → t.d.inv = true →
    (∃ evs, s.pending = .regWrite 0 (.byte 0x02) :: evs) ∨
    (s.d.dphase = .busy ∧ decRem s ≤ 4 ∧ t.d.dphase = .done)

/-- 60_exceptions.md R184: encode has no error. -/
def Obligations.EncodeHasNoError : Prop :=
  (∀ e : EBank, (estatus e).getLsbD 2 = false) ∧
  (∀ s t : State, encStep s = .next t → t.d.inv = s.d.inv) ∧
  (∀ (s t : State) (url np : Bool), exec (.encode url np) s = .next t → t.d.inv = s.d.inv) ∧
  (∀ (s t : State) (url : Bool), exec (.enc3 url) s = .next t → t.d.inv = s.d.inv)

/-- 10_state.md R36, 41_decode.md R125, 42_encode.md R149: two calls on the same text (data and modes) give the
same result, whatever else the two machines hold. That the BUSY engine steps while nothing is pending is the
model's choice (log entry 4). -/
def Obligations.ResultsDependOnTheInputAlone : Prop :=
  ∀ s q : State, s.mem.wf s.aw = true → q.mem.wf q.aw = true →
    (s.pending = [.regWrite 0 (.byte 0x01)] → q.pending = [.regWrite 0 (.byte 0x01)] →
      s.e.ephase ≠ .busy → q.e.ephase ≠ .busy → DecodeAcceptable s → DecodeAcceptable q →
      decodeText s = decodeText q →
      ∃ t u : State,
        Host.Core.run Sys2Proof.core (1 + decodeSteps (decodeText s).length) s = .next t ∧
        Host.Core.run Sys2Proof.core (1 + decodeSteps (decodeText s).length) q = .next u ∧
        t.d.dphase = .done ∧ u.d.dphase = .done ∧ t.d.inv = u.d.inv ∧ t.d.dbad = u.d.dbad ∧
        t.d.didx = u.d.didx ∧ t.d.doutlen = u.d.doutlen ∧
        ∀ j < t.d.doutlen.toNat,
          t.mem.read (s.d.ddst.val.toNat + j) = u.mem.read (q.d.ddst.val.toNat + j)) ∧
    (∀ c url np, s.pending = [.regWrite 0 (.byte c)] → q.pending = [.regWrite 0 (.byte c)] →
      decodeCommand c = .ok (.encode url np) → s.d.dphase ≠ .busy → q.d.dphase ≠ .busy →
      EncodeAcceptable s np → EncodeAcceptable q np → encodeData s = encodeData q →
      ∃ t u : State,
        Host.Core.run Sys2Proof.core (1 + encodeSteps (encodeData s).length) s = .next t ∧
        Host.Core.run Sys2Proof.core (1 + encodeSteps (encodeData s).length) q = .next u ∧
        t.e.ephase = .done ∧ u.e.ephase = .done ∧ t.e.eidx = u.e.eidx ∧ t.e.eoutlen = u.e.eoutlen ∧
        ∀ j < t.e.eoutlen.toNat,
          t.mem.read (s.e.edst.val.toNat + j) = u.mem.read (q.e.edst.val.toNat + j))
end

