-- ==== Sys2Proof/Laws/State.lean ====
section
/-! SUPPORT. One lemma per field per named update of the state, each true by rfl. -/

namespace Sys2Proof.Machine

/-! The fields after `acceptDecode`. -/

@[simp] theorem acceptDecode_aw (s : State) (c : Call) :
    (acceptDecode s c).aw = s.aw := rfl
@[simp] theorem acceptDecode_e (s : State) (c : Call) :
    (acceptDecode s c).e = s.e := rfl
@[simp] theorem acceptDecode_mem (s : State) (c : Call) :
    (acceptDecode s c).mem = s.mem := rfl
@[simp] theorem acceptDecode_unowned (s : State) (c : Call) :
    (acceptDecode s c).unowned = s.unowned := rfl
@[simp] theorem acceptDecode_dcalls (s : State) (c : Call) :
    (acceptDecode s c).dcalls = c :: s.dcalls := rfl
@[simp] theorem acceptDecode_ecalls (s : State) (c : Call) :
    (acceptDecode s c).ecalls = s.ecalls := rfl
@[simp] theorem acceptDecode_pending (s : State) (c : Call) :
    (acceptDecode s c).pending = s.pending := rfl
@[simp] theorem acceptDecode_lastRead (s : State) (c : Call) :
    (acceptDecode s c).lastRead = s.lastRead := rfl
@[simp] theorem acceptDecode_free (s : State) (c : Call) :
    (acceptDecode s c).free = s.free := rfl
@[simp] theorem acceptDecode_dphase (s : State) (c : Call) :
    (acceptDecode s c).d.dphase = .busy := rfl
@[simp] theorem acceptDecode_inv (s : State) (c : Call) :
    (acceptDecode s c).d.inv = false := rfl
@[simp] theorem acceptDecode_dsrc (s : State) (c : Call) :
    (acceptDecode s c).d.dsrc = s.d.dsrc := rfl
@[simp] theorem acceptDecode_dlen (s : State) (c : Call) :
    (acceptDecode s c).d.dlen = s.d.dlen := rfl
@[simp] theorem acceptDecode_ddst (s : State) (c : Call) :
    (acceptDecode s c).d.ddst = s.d.ddst := rfl
@[simp] theorem acceptDecode_doutlen (s : State) (c : Call) :
    (acceptDecode s c).d.doutlen = 0 := rfl
@[simp] theorem acceptDecode_ddin (s : State) (c : Call) :
    (acceptDecode s c).d.ddin = s.d.ddin := rfl
@[simp] theorem acceptDecode_ddout (s : State) (c : Call) :
    (acceptDecode s c).d.ddout = s.d.ddout := rfl
@[simp] theorem acceptDecode_didx (s : State) (c : Call) :
    (acceptDecode s c).d.didx = 0 := rfl
@[simp] theorem acceptDecode_dbad (s : State) (c : Call) :
    (acceptDecode s c).d.dbad = false := rfl

/-! The fields after `acceptEncode`. -/

@[simp] theorem acceptEncode_aw (s : State) (url np : Bool) (c : Call) :
    (acceptEncode s url np c).aw = s.aw := rfl
@[simp] theorem acceptEncode_d (s : State) (url np : Bool) (c : Call) :
    (acceptEncode s url np c).d = s.d := rfl
@[simp] theorem acceptEncode_mem (s : State) (url np : Bool) (c : Call) :
    (acceptEncode s url np c).mem = s.mem := rfl
@[simp] theorem acceptEncode_unowned (s : State) (url np : Bool) (c : Call) :
    (acceptEncode s url np c).unowned = s.unowned := rfl
@[simp] theorem acceptEncode_dcalls (s : State) (url np : Bool) (c : Call) :
    (acceptEncode s url np c).dcalls = s.dcalls := rfl
@[simp] theorem acceptEncode_ecalls (s : State) (url np : Bool) (c : Call) :
    (acceptEncode s url np c).ecalls = c :: s.ecalls := rfl
@[simp] theorem acceptEncode_pending (s : State) (url np : Bool) (c : Call) :
    (acceptEncode s url np c).pending = s.pending := rfl
@[simp] theorem acceptEncode_lastRead (s : State) (url np : Bool) (c : Call) :
    (acceptEncode s url np c).lastRead = s.lastRead := rfl
@[simp] theorem acceptEncode_free (s : State) (url np : Bool) (c : Call) :
    (acceptEncode s url np c).free = s.free := rfl
@[simp] theorem acceptEncode_ephase (s : State) (url np : Bool) (c : Call) :
    (acceptEncode s url np c).e.ephase = .busy := rfl
@[simp] theorem acceptEncode_esrc (s : State) (url np : Bool) (c : Call) :
    (acceptEncode s url np c).e.esrc = s.e.esrc := rfl
@[simp] theorem acceptEncode_elen (s : State) (url np : Bool) (c : Call) :
    (acceptEncode s url np c).e.elen = s.e.elen := rfl
@[simp] theorem acceptEncode_edst (s : State) (url np : Bool) (c : Call) :
    (acceptEncode s url np c).e.edst = s.e.edst := rfl
@[simp] theorem acceptEncode_eoutlen (s : State) (url np : Bool) (c : Call) :
    (acceptEncode s url np c).e.eoutlen = 0 := rfl
@[simp] theorem acceptEncode_edin (s : State) (url np : Bool) (c : Call) :
    (acceptEncode s url np c).e.edin = s.e.edin := rfl
@[simp] theorem acceptEncode_edout (s : State) (url np : Bool) (c : Call) :
    (acceptEncode s url np c).e.edout = s.e.edout := rfl
@[simp] theorem acceptEncode_eidx (s : State) (url np : Bool) (c : Call) :
    (acceptEncode s url np c).e.eidx = 0 := rfl
@[simp] theorem acceptEncode_eurl (s : State) (url np : Bool) (c : Call) :
    (acceptEncode s url np c).e.eurl = url := rfl
@[simp] theorem acceptEncode_enp (s : State) (url np : Bool) (c : Call) :
    (acceptEncode s url np c).e.enp = np := rfl

/-! The fields after `finishDec4`. -/

@[simp] theorem finishDec4_aw (s : State) (w : Word) :
    (finishDec4 s w).aw = s.aw := rfl
@[simp] theorem finishDec4_e (s : State) (w : Word) :
    (finishDec4 s w).e = s.e := rfl
@[simp] theorem finishDec4_mem (s : State) (w : Word) :
    (finishDec4 s w).mem = s.mem := rfl
@[simp] theorem finishDec4_unowned (s : State) (w : Word) :
    (finishDec4 s w).unowned = s.unowned := rfl
@[simp] theorem finishDec4_dcalls (s : State) (w : Word) :
    (finishDec4 s w).dcalls = s.dcalls := rfl
@[simp] theorem finishDec4_ecalls (s : State) (w : Word) :
    (finishDec4 s w).ecalls = s.ecalls := rfl
@[simp] theorem finishDec4_pending (s : State) (w : Word) :
    (finishDec4 s w).pending = s.pending := rfl
@[simp] theorem finishDec4_lastRead (s : State) (w : Word) :
    (finishDec4 s w).lastRead = s.lastRead := rfl
@[simp] theorem finishDec4_free (s : State) (w : Word) :
    (finishDec4 s w).free = s.free := rfl
@[simp] theorem finishDec4_dphase (s : State) (w : Word) :
    (finishDec4 s w).d.dphase = .done := rfl
@[simp] theorem finishDec4_inv (s : State) (w : Word) :
    (finishDec4 s w).d.inv = bad w := rfl
@[simp] theorem finishDec4_dsrc (s : State) (w : Word) :
    (finishDec4 s w).d.dsrc = s.d.dsrc := rfl
@[simp] theorem finishDec4_dlen (s : State) (w : Word) :
    (finishDec4 s w).d.dlen = s.d.dlen := rfl
@[simp] theorem finishDec4_ddst (s : State) (w : Word) :
    (finishDec4 s w).d.ddst = s.d.ddst := rfl
@[simp] theorem finishDec4_doutlen (s : State) (w : Word) :
    (finishDec4 s w).d.doutlen = s.d.doutlen := rfl
@[simp] theorem finishDec4_ddin (s : State) (w : Word) :
    (finishDec4 s w).d.ddin = s.d.ddin := rfl
@[simp] theorem finishDec4_ddout (s : State) (w : Word) :
    (finishDec4 s w).d.ddout = .put w := rfl
@[simp] theorem finishDec4_didx (s : State) (w : Word) :
    (finishDec4 s w).d.didx = s.d.didx := rfl
@[simp] theorem finishDec4_dbad (s : State) (w : Word) :
    (finishDec4 s w).d.dbad = s.d.dbad := rfl

/-! The fields after `finishEnc3`. -/

@[simp] theorem finishEnc3_aw (s : State) (w : Word) :
    (finishEnc3 s w).aw = s.aw := rfl
@[simp] theorem finishEnc3_d (s : State) (w : Word) :
    (finishEnc3 s w).d = s.d := rfl
@[simp] theorem finishEnc3_mem (s : State) (w : Word) :
    (finishEnc3 s w).mem = s.mem := rfl
@[simp] theorem finishEnc3_unowned (s : State) (w : Word) :
    (finishEnc3 s w).unowned = s.unowned := rfl
@[simp] theorem finishEnc3_dcalls (s : State) (w : Word) :
    (finishEnc3 s w).dcalls = s.dcalls := rfl
@[simp] theorem finishEnc3_ecalls (s : State) (w : Word) :
    (finishEnc3 s w).ecalls = s.ecalls := rfl
@[simp] theorem finishEnc3_pending (s : State) (w : Word) :
    (finishEnc3 s w).pending = s.pending := rfl
@[simp] theorem finishEnc3_lastRead (s : State) (w : Word) :
    (finishEnc3 s w).lastRead = s.lastRead := rfl
@[simp] theorem finishEnc3_free (s : State) (w : Word) :
    (finishEnc3 s w).free = s.free := rfl
@[simp] theorem finishEnc3_ephase (s : State) (w : Word) :
    (finishEnc3 s w).e.ephase = .done := rfl
@[simp] theorem finishEnc3_esrc (s : State) (w : Word) :
    (finishEnc3 s w).e.esrc = s.e.esrc := rfl
@[simp] theorem finishEnc3_elen (s : State) (w : Word) :
    (finishEnc3 s w).e.elen = s.e.elen := rfl
@[simp] theorem finishEnc3_edst (s : State) (w : Word) :
    (finishEnc3 s w).e.edst = s.e.edst := rfl
@[simp] theorem finishEnc3_eoutlen (s : State) (w : Word) :
    (finishEnc3 s w).e.eoutlen = s.e.eoutlen := rfl
@[simp] theorem finishEnc3_edin (s : State) (w : Word) :
    (finishEnc3 s w).e.edin = s.e.edin := rfl
@[simp] theorem finishEnc3_edout (s : State) (w : Word) :
    (finishEnc3 s w).e.edout = .put w := rfl
@[simp] theorem finishEnc3_eidx (s : State) (w : Word) :
    (finishEnc3 s w).e.eidx = s.e.eidx := rfl
@[simp] theorem finishEnc3_eurl (s : State) (w : Word) :
    (finishEnc3 s w).e.eurl = s.e.eurl := rfl
@[simp] theorem finishEnc3_enp (s : State) (w : Word) :
    (finishEnc3 s w).e.enp = s.e.enp := rfl

/-! The fields after `decAdvance`. -/

@[simp] theorem decAdvance_aw (s : State) (m : Memory) (b : Bool) (n : Nat) :
    (decAdvance s m b n).aw = s.aw := rfl
@[simp] theorem decAdvance_e (s : State) (m : Memory) (b : Bool) (n : Nat) :
    (decAdvance s m b n).e = s.e := rfl
@[simp] theorem decAdvance_mem (s : State) (m : Memory) (b : Bool) (n : Nat) :
    (decAdvance s m b n).mem = m := rfl
@[simp] theorem decAdvance_unowned (s : State) (m : Memory) (b : Bool) (n : Nat) :
    (decAdvance s m b n).unowned = s.unowned := rfl
@[simp] theorem decAdvance_dcalls (s : State) (m : Memory) (b : Bool) (n : Nat) :
    (decAdvance s m b n).dcalls = s.dcalls := rfl
@[simp] theorem decAdvance_ecalls (s : State) (m : Memory) (b : Bool) (n : Nat) :
    (decAdvance s m b n).ecalls = s.ecalls := rfl
@[simp] theorem decAdvance_pending (s : State) (m : Memory) (b : Bool) (n : Nat) :
    (decAdvance s m b n).pending = s.pending := rfl
@[simp] theorem decAdvance_lastRead (s : State) (m : Memory) (b : Bool) (n : Nat) :
    (decAdvance s m b n).lastRead = s.lastRead := rfl
@[simp] theorem decAdvance_free (s : State) (m : Memory) (b : Bool) (n : Nat) :
    (decAdvance s m b n).free = s.free := rfl
@[simp] theorem decAdvance_dphase (s : State) (m : Memory) (b : Bool) (n : Nat) :
    (decAdvance s m b n).d.dphase = s.d.dphase := rfl
@[simp] theorem decAdvance_inv (s : State) (m : Memory) (b : Bool) (n : Nat) :
    (decAdvance s m b n).d.inv = s.d.inv := rfl
@[simp] theorem decAdvance_dsrc (s : State) (m : Memory) (b : Bool) (n : Nat) :
    (decAdvance s m b n).d.dsrc = s.d.dsrc := rfl
@[simp] theorem decAdvance_dlen (s : State) (m : Memory) (b : Bool) (n : Nat) :
    (decAdvance s m b n).d.dlen = s.d.dlen := rfl
@[simp] theorem decAdvance_ddst (s : State) (m : Memory) (b : Bool) (n : Nat) :
    (decAdvance s m b n).d.ddst = s.d.ddst := rfl
@[simp] theorem decAdvance_doutlen (s : State) (m : Memory) (b : Bool) (n : Nat) :
    (decAdvance s m b n).d.doutlen = advance s.d.doutlen n := rfl
@[simp] theorem decAdvance_ddin (s : State) (m : Memory) (b : Bool) (n : Nat) :
    (decAdvance s m b n).d.ddin = s.d.ddin := rfl
@[simp] theorem decAdvance_ddout (s : State) (m : Memory) (b : Bool) (n : Nat) :
    (decAdvance s m b n).d.ddout = s.d.ddout := rfl
@[simp] theorem decAdvance_didx (s : State) (m : Memory) (b : Bool) (n : Nat) :
    (decAdvance s m b n).d.didx = advance s.d.didx 4 := rfl
@[simp] theorem decAdvance_dbad (s : State) (m : Memory) (b : Bool) (n : Nat) :
    (decAdvance s m b n).d.dbad = b := rfl

/-! The fields after `decFinish`. -/

@[simp] theorem decFinish_aw (s : State) (m : Memory) (b i : Bool) (n : Nat) :
    (decFinish s m b i n).aw = s.aw := rfl
@[simp] theorem decFinish_e (s : State) (m : Memory) (b i : Bool) (n : Nat) :
    (decFinish s m b i n).e = s.e := rfl
@[simp] theorem decFinish_mem (s : State) (m : Memory) (b i : Bool) (n : Nat) :
    (decFinish s m b i n).mem = m := rfl
@[simp] theorem decFinish_unowned (s : State) (m : Memory) (b i : Bool) (n : Nat) :
    (decFinish s m b i n).unowned = s.unowned := rfl
@[simp] theorem decFinish_dcalls (s : State) (m : Memory) (b i : Bool) (n : Nat) :
    (decFinish s m b i n).dcalls = s.dcalls := rfl
@[simp] theorem decFinish_ecalls (s : State) (m : Memory) (b i : Bool) (n : Nat) :
    (decFinish s m b i n).ecalls = s.ecalls := rfl
@[simp] theorem decFinish_pending (s : State) (m : Memory) (b i : Bool) (n : Nat) :
    (decFinish s m b i n).pending = s.pending := rfl
@[simp] theorem decFinish_lastRead (s : State) (m : Memory) (b i : Bool) (n : Nat) :
    (decFinish s m b i n).lastRead = s.lastRead := rfl
@[simp] theorem decFinish_free (s : State) (m : Memory) (b i : Bool) (n : Nat) :
    (decFinish s m b i n).free = s.free := rfl
@[simp] theorem decFinish_dphase (s : State) (m : Memory) (b i : Bool) (n : Nat) :
    (decFinish s m b i n).d.dphase = .done := rfl
@[simp] theorem decFinish_inv (s : State) (m : Memory) (b i : Bool) (n : Nat) :
    (decFinish s m b i n).d.inv = i := rfl
@[simp] theorem decFinish_dsrc (s : State) (m : Memory) (b i : Bool) (n : Nat) :
    (decFinish s m b i n).d.dsrc = s.d.dsrc := rfl
@[simp] theorem decFinish_dlen (s : State) (m : Memory) (b i : Bool) (n : Nat) :
    (decFinish s m b i n).d.dlen = s.d.dlen := rfl
@[simp] theorem decFinish_ddst (s : State) (m : Memory) (b i : Bool) (n : Nat) :
    (decFinish s m b i n).d.ddst = s.d.ddst := rfl
@[simp] theorem decFinish_doutlen (s : State) (m : Memory) (b i : Bool) (n : Nat) :
    (decFinish s m b i n).d.doutlen = advance s.d.doutlen n := rfl
@[simp] theorem decFinish_ddin (s : State) (m : Memory) (b i : Bool) (n : Nat) :
    (decFinish s m b i n).d.ddin = s.d.ddin := rfl
@[simp] theorem decFinish_ddout (s : State) (m : Memory) (b i : Bool) (n : Nat) :
    (decFinish s m b i n).d.ddout = s.d.ddout := rfl
@[simp] theorem decFinish_didx (s : State) (m : Memory) (b i : Bool) (n : Nat) :
    (decFinish s m b i n).d.didx = s.d.dlen.val := rfl
@[simp] theorem decFinish_dbad (s : State) (m : Memory) (b i : Bool) (n : Nat) :
    (decFinish s m b i n).d.dbad = b := rfl

/-! The fields after `decFinishEmpty`. -/

@[simp] theorem decFinishEmpty_aw (s : State) :
    (decFinishEmpty s).aw = s.aw := rfl
@[simp] theorem decFinishEmpty_e (s : State) :
    (decFinishEmpty s).e = s.e := rfl
@[simp] theorem decFinishEmpty_mem (s : State) :
    (decFinishEmpty s).mem = s.mem := rfl
@[simp] theorem decFinishEmpty_unowned (s : State) :
    (decFinishEmpty s).unowned = s.unowned := rfl
@[simp] theorem decFinishEmpty_dcalls (s : State) :
    (decFinishEmpty s).dcalls = s.dcalls := rfl
@[simp] theorem decFinishEmpty_ecalls (s : State) :
    (decFinishEmpty s).ecalls = s.ecalls := rfl
@[simp] theorem decFinishEmpty_pending (s : State) :
    (decFinishEmpty s).pending = s.pending := rfl
@[simp] theorem decFinishEmpty_lastRead (s : State) :
    (decFinishEmpty s).lastRead = s.lastRead := rfl
@[simp] theorem decFinishEmpty_free (s : State) :
    (decFinishEmpty s).free = s.free := rfl
@[simp] theorem decFinishEmpty_dphase (s : State) :
    (decFinishEmpty s).d.dphase = .done := rfl
@[simp] theorem decFinishEmpty_inv (s : State) :
    (decFinishEmpty s).d.inv = s.d.dbad := rfl
@[simp] theorem decFinishEmpty_dsrc (s : State) :
    (decFinishEmpty s).d.dsrc = s.d.dsrc := rfl
@[simp] theorem decFinishEmpty_dlen (s : State) :
    (decFinishEmpty s).d.dlen = s.d.dlen := rfl
@[simp] theorem decFinishEmpty_ddst (s : State) :
    (decFinishEmpty s).d.ddst = s.d.ddst := rfl
@[simp] theorem decFinishEmpty_doutlen (s : State) :
    (decFinishEmpty s).d.doutlen = s.d.doutlen := rfl
@[simp] theorem decFinishEmpty_ddin (s : State) :
    (decFinishEmpty s).d.ddin = s.d.ddin := rfl
@[simp] theorem decFinishEmpty_ddout (s : State) :
    (decFinishEmpty s).d.ddout = s.d.ddout := rfl
@[simp] theorem decFinishEmpty_didx (s : State) :
    (decFinishEmpty s).d.didx = s.d.didx := rfl
@[simp] theorem decFinishEmpty_dbad (s : State) :
    (decFinishEmpty s).d.dbad = s.d.dbad := rfl

/-! The fields after `encAdvance`. -/

@[simp] theorem encAdvance_aw (s : State) (m : Memory) :
    (encAdvance s m).aw = s.aw := rfl
@[simp] theorem encAdvance_d (s : State) (m : Memory) :
    (encAdvance s m).d = s.d := rfl
@[simp] theorem encAdvance_mem (s : State) (m : Memory) :
    (encAdvance s m).mem = m := rfl
@[simp] theorem encAdvance_unowned (s : State) (m : Memory) :
    (encAdvance s m).unowned = s.unowned := rfl
@[simp] theorem encAdvance_dcalls (s : State) (m : Memory) :
    (encAdvance s m).dcalls = s.dcalls := rfl
@[simp] theorem encAdvance_ecalls (s : State) (m : Memory) :
    (encAdvance s m).ecalls = s.ecalls := rfl
@[simp] theorem encAdvance_pending (s : State) (m : Memory) :
    (encAdvance s m).pending = s.pending := rfl
@[simp] theorem encAdvance_lastRead (s : State) (m : Memory) :
    (encAdvance s m).lastRead = s.lastRead := rfl
@[simp] theorem encAdvance_free (s : State) (m : Memory) :
    (encAdvance s m).free = s.free := rfl
@[simp] theorem encAdvance_ephase (s : State) (m : Memory) :
    (encAdvance s m).e.ephase = s.e.ephase := rfl
@[simp] theorem encAdvance_esrc (s : State) (m : Memory) :
    (encAdvance s m).e.esrc = s.e.esrc := rfl
@[simp] theorem encAdvance_elen (s : State) (m : Memory) :
    (encAdvance s m).e.elen = s.e.elen := rfl
@[simp] theorem encAdvance_edst (s : State) (m : Memory) :
    (encAdvance s m).e.edst = s.e.edst := rfl
@[simp] theorem encAdvance_eoutlen (s : State) (m : Memory) :
    (encAdvance s m).e.eoutlen = advance s.e.eoutlen 4 := rfl
@[simp] theorem encAdvance_edin (s : State) (m : Memory) :
    (encAdvance s m).e.edin = s.e.edin := rfl
@[simp] theorem encAdvance_edout (s : State) (m : Memory) :
    (encAdvance s m).e.edout = s.e.edout := rfl
@[simp] theorem encAdvance_eidx (s : State) (m : Memory) :
    (encAdvance s m).e.eidx = advance s.e.eidx 3 := rfl
@[simp] theorem encAdvance_eurl (s : State) (m : Memory) :
    (encAdvance s m).e.eurl = s.e.eurl := rfl
@[simp] theorem encAdvance_enp (s : State) (m : Memory) :
    (encAdvance s m).e.enp = s.e.enp := rfl

/-! The fields after `encFinish`. -/

@[simp] theorem encFinish_aw (s : State) (m : Memory) (n : Nat) :
    (encFinish s m n).aw = s.aw := rfl
@[simp] theorem encFinish_d (s : State) (m : Memory) (n : Nat) :
    (encFinish s m n).d = s.d := rfl
@[simp] theorem encFinish_mem (s : State) (m : Memory) (n : Nat) :
    (encFinish s m n).mem = m := rfl
@[simp] theorem encFinish_unowned (s : State) (m : Memory) (n : Nat) :
    (encFinish s m n).unowned = s.unowned := rfl
@[simp] theorem encFinish_dcalls (s : State) (m : Memory) (n : Nat) :
    (encFinish s m n).dcalls = s.dcalls := rfl
@[simp] theorem encFinish_ecalls (s : State) (m : Memory) (n : Nat) :
    (encFinish s m n).ecalls = s.ecalls := rfl
@[simp] theorem encFinish_pending (s : State) (m : Memory) (n : Nat) :
    (encFinish s m n).pending = s.pending := rfl
@[simp] theorem encFinish_lastRead (s : State) (m : Memory) (n : Nat) :
    (encFinish s m n).lastRead = s.lastRead := rfl
@[simp] theorem encFinish_free (s : State) (m : Memory) (n : Nat) :
    (encFinish s m n).free = s.free := rfl
@[simp] theorem encFinish_ephase (s : State) (m : Memory) (n : Nat) :
    (encFinish s m n).e.ephase = .done := rfl
@[simp] theorem encFinish_esrc (s : State) (m : Memory) (n : Nat) :
    (encFinish s m n).e.esrc = s.e.esrc := rfl
@[simp] theorem encFinish_elen (s : State) (m : Memory) (n : Nat) :
    (encFinish s m n).e.elen = s.e.elen := rfl
@[simp] theorem encFinish_edst (s : State) (m : Memory) (n : Nat) :
    (encFinish s m n).e.edst = s.e.edst := rfl
@[simp] theorem encFinish_eoutlen (s : State) (m : Memory) (n : Nat) :
    (encFinish s m n).e.eoutlen = advance s.e.eoutlen n := rfl
@[simp] theorem encFinish_edin (s : State) (m : Memory) (n : Nat) :
    (encFinish s m n).e.edin = s.e.edin := rfl
@[simp] theorem encFinish_edout (s : State) (m : Memory) (n : Nat) :
    (encFinish s m n).e.edout = s.e.edout := rfl
@[simp] theorem encFinish_eidx (s : State) (m : Memory) (n : Nat) :
    (encFinish s m n).e.eidx = s.e.elen.val := rfl
@[simp] theorem encFinish_eurl (s : State) (m : Memory) (n : Nat) :
    (encFinish s m n).e.eurl = s.e.eurl := rfl
@[simp] theorem encFinish_enp (s : State) (m : Memory) (n : Nat) :
    (encFinish s m n).e.enp = s.e.enp := rfl

/-! The fields after `encFinishEmpty`. -/

@[simp] theorem encFinishEmpty_aw (s : State) :
    (encFinishEmpty s).aw = s.aw := rfl
@[simp] theorem encFinishEmpty_d (s : State) :
    (encFinishEmpty s).d = s.d := rfl
@[simp] theorem encFinishEmpty_mem (s : State) :
    (encFinishEmpty s).mem = s.mem := rfl
@[simp] theorem encFinishEmpty_unowned (s : State) :
    (encFinishEmpty s).unowned = s.unowned := rfl
@[simp] theorem encFinishEmpty_dcalls (s : State) :
    (encFinishEmpty s).dcalls = s.dcalls := rfl
@[simp] theorem encFinishEmpty_ecalls (s : State) :
    (encFinishEmpty s).ecalls = s.ecalls := rfl
@[simp] theorem encFinishEmpty_pending (s : State) :
    (encFinishEmpty s).pending = s.pending := rfl
@[simp] theorem encFinishEmpty_lastRead (s : State) :
    (encFinishEmpty s).lastRead = s.lastRead := rfl
@[simp] theorem encFinishEmpty_free (s : State) :
    (encFinishEmpty s).free = s.free := rfl
@[simp] theorem encFinishEmpty_ephase (s : State) :
    (encFinishEmpty s).e.ephase = .done := rfl
@[simp] theorem encFinishEmpty_esrc (s : State) :
    (encFinishEmpty s).e.esrc = s.e.esrc := rfl
@[simp] theorem encFinishEmpty_elen (s : State) :
    (encFinishEmpty s).e.elen = s.e.elen := rfl
@[simp] theorem encFinishEmpty_edst (s : State) :
    (encFinishEmpty s).e.edst = s.e.edst := rfl
@[simp] theorem encFinishEmpty_eoutlen (s : State) :
    (encFinishEmpty s).e.eoutlen = s.e.eoutlen := rfl
@[simp] theorem encFinishEmpty_edin (s : State) :
    (encFinishEmpty s).e.edin = s.e.edin := rfl
@[simp] theorem encFinishEmpty_edout (s : State) :
    (encFinishEmpty s).e.edout = s.e.edout := rfl
@[simp] theorem encFinishEmpty_eidx (s : State) :
    (encFinishEmpty s).e.eidx = s.e.eidx := rfl
@[simp] theorem encFinishEmpty_eurl (s : State) :
    (encFinishEmpty s).e.eurl = s.e.eurl := rfl
@[simp] theorem encFinishEmpty_enp (s : State) :
    (encFinishEmpty s).e.enp = s.e.enp := rfl

/-! The fields after `returnValue`. -/

@[simp] theorem returnValue_aw (s : State) (v : RegVal) :
    (returnValue s v).aw = s.aw := rfl
@[simp] theorem returnValue_d (s : State) (v : RegVal) :
    (returnValue s v).d = s.d := rfl
@[simp] theorem returnValue_e (s : State) (v : RegVal) :
    (returnValue s v).e = s.e := rfl
@[simp] theorem returnValue_mem (s : State) (v : RegVal) :
    (returnValue s v).mem = s.mem := rfl
@[simp] theorem returnValue_unowned (s : State) (v : RegVal) :
    (returnValue s v).unowned = s.unowned := rfl
@[simp] theorem returnValue_dcalls (s : State) (v : RegVal) :
    (returnValue s v).dcalls = s.dcalls := rfl
@[simp] theorem returnValue_ecalls (s : State) (v : RegVal) :
    (returnValue s v).ecalls = s.ecalls := rfl
@[simp] theorem returnValue_pending (s : State) (v : RegVal) :
    (returnValue s v).pending = s.pending := rfl
@[simp] theorem returnValue_lastRead (s : State) (v : RegVal) :
    (returnValue s v).lastRead = some v := rfl
@[simp] theorem returnValue_free (s : State) (v : RegVal) :
    (returnValue s v).free = s.free := rfl

/-! The fields after `useFree`. -/

@[simp] theorem useFree_aw (s : State) :
    (useFree s).aw = s.aw := rfl
@[simp] theorem useFree_d (s : State) :
    (useFree s).d = s.d := rfl
@[simp] theorem useFree_e (s : State) :
    (useFree s).e = s.e := rfl
@[simp] theorem useFree_mem (s : State) :
    (useFree s).mem = s.mem := rfl
@[simp] theorem useFree_unowned (s : State) :
    (useFree s).unowned = s.unowned := rfl
@[simp] theorem useFree_dcalls (s : State) :
    (useFree s).dcalls = s.dcalls := rfl
@[simp] theorem useFree_ecalls (s : State) :
    (useFree s).ecalls = s.ecalls := rfl
@[simp] theorem useFree_pending (s : State) :
    (useFree s).pending = s.pending := rfl
@[simp] theorem useFree_lastRead (s : State) :
    (useFree s).lastRead = s.lastRead := rfl
@[simp] theorem useFree_free (s : State) :
    (useFree s).free = s.free + 1 := rfl

/-! The fields after `resetEngine`. -/

@[simp] theorem resetEngine_aw (s : State) :
    (resetEngine s).aw = s.aw := rfl
@[simp] theorem resetEngine_d (s : State) :
    (resetEngine s).d = .reset := rfl
@[simp] theorem resetEngine_e (s : State) :
    (resetEngine s).e = .reset := rfl
@[simp] theorem resetEngine_mem (s : State) :
    (resetEngine s).mem = s.mem := rfl
@[simp] theorem resetEngine_unowned (s : State) :
    (resetEngine s).unowned = s.unowned := rfl
@[simp] theorem resetEngine_dcalls (s : State) :
    (resetEngine s).dcalls = [] := rfl
@[simp] theorem resetEngine_ecalls (s : State) :
    (resetEngine s).ecalls = [] := rfl
@[simp] theorem resetEngine_pending (s : State) :
    (resetEngine s).pending = s.pending := rfl
@[simp] theorem resetEngine_lastRead (s : State) :
    (resetEngine s).lastRead = s.lastRead := rfl
@[simp] theorem resetEngine_free (s : State) :
    (resetEngine s).free = s.free := rfl

end Sys2Proof.Machine
end

