-- ==== Sys2Proof/Laws/Memory.lean ====
section
/-! SUPPORT. The laws of memory: what a read sees after a write, that every operation keeps the canonical
form, and that canonical memories with the same bytes are equal. -/

namespace Sys2Proof.Machine

/-- An address below a canonical memory's first one reads as unlisted. -/
theorem read_below {hi lo : Nat} {m : Memory} (h : Memory.wfFrom hi lo m) {a : Nat} (ha : a < lo) :
    m.read a = unlistedByte := by
  induction m generalizing lo with
  | nil => rfl
  | cons p m ih =>
    obtain ⟨k, v⟩ := p
    simp only [Memory.wfFrom, Bool.and_eq_true, decide_eq_true_eq] at h
    simp only [Memory.read]
    rw [if_neg (by omega)]
    exact ih h.2 (by omega)

/-- A read of the address just written gives the byte written. -/
theorem read_write_same {hi lo : Nat} {m : Memory} (h : Memory.wfFrom hi lo m) (a : Nat) (b : Byte) :
    (m.write a b).read a = b := by
  induction m generalizing lo with
  | nil => simp only [Memory.write]; split <;> simp_all [Memory.read]
  | cons p m ih =>
    obtain ⟨k, v⟩ := p
    simp only [Memory.wfFrom, Bool.and_eq_true, decide_eq_true_eq] at h
    simp only [Memory.write]
    split
    · split
      · next hb =>
        simp only [Memory.read]
        rw [if_neg (by omega), read_below h.2 (by omega), hb]
      · simp [Memory.read]
    · split
      · split
        · next hb => rw [read_below h.2 (by omega), hb]
        · simp [Memory.read]
      · simp only [Memory.read]
        rw [if_neg (by omega)]
        exact ih h.2

/-- A write leaves every other address alone. -/
theorem read_write_other (m : Memory) {a c : Nat} (b : Byte) (hne : c ≠ a) :
    (m.write a b).read c = m.read c := by
  induction m with
  | nil => simp only [Memory.write]; split <;> simp [Memory.read, hne.symm]
  | cons p m ih =>
    obtain ⟨k, v⟩ := p
    simp only [Memory.write]
    split
    · split <;> simp [Memory.read, hne.symm]
    · split
      · next heq =>
        split
        · simp only [Memory.read]; rw [if_neg (by omega)]
        · simp only [Memory.read]; rw [if_neg (by omega), if_neg (by omega)]
      · simp only [Memory.read, ih]

/-- A write inside `lo .. hi-1` keeps the canonical form. -/
theorem wfFrom_write {hi lo : Nat} {m : Memory} (h : Memory.wfFrom hi lo m) {a : Nat} (b : Byte)
    (hlo : lo ≤ a) (hhi : a < hi) : Memory.wfFrom hi lo (m.write a b) := by
  induction m generalizing lo with
  | nil =>
    simp only [Memory.write]
    split
    · rfl
    · next hb => simp [Memory.wfFrom, hlo, hhi, hb]
  | cons p m ih =>
    obtain ⟨k, v⟩ := p
    simp only [Memory.wfFrom, Bool.and_eq_true, decide_eq_true_eq, bne_iff_ne] at h
    obtain ⟨⟨⟨h1, h2⟩, h3⟩, h4⟩ := h
    simp only [Memory.write]
    split
    · next hlt =>
      split
      · simp [Memory.wfFrom, h1, h2, h3, h4]
      · next hb =>
        have : a + 1 ≤ k := hlt
        simp [Memory.wfFrom, hlo, hhi, hb, this, h2, h3, h4]
    · next hlt =>
      split
      · next heq =>
        subst heq
        split
        · have mono : ∀ (l : Memory) x y, Memory.wfFrom hi x l → y ≤ x → Memory.wfFrom hi y l := by
            intro l x y hl hyx
            cases l with
            | nil => rfl
            | cons q l =>
              obtain ⟨k', v'⟩ := q
              simp only [Memory.wfFrom, Bool.and_eq_true, decide_eq_true_eq] at hl ⊢
              exact ⟨⟨⟨by omega, hl.1.1.2⟩, hl.1.2⟩, hl.2⟩
          exact mono m (a + 1) lo h4 (by omega)
        · next hb => simp [Memory.wfFrom, hlo, hhi, hb, h4]
      · have := ih h4 (by omega)
        simp [Memory.wfFrom, h1, h2, h3, this]

/-- A write below 2^AW keeps the canonical form. -/
theorem wf_write {aw : AddrWidth} {m : Memory} (h : m.wf aw) {a : Nat} (b : Byte)
    (ha : a < 2 ^ aw.bits) : (m.write a b).wf aw :=
  wfFrom_write h b (Nat.zero_le a) ha

/-- In a canonical memory a read of the address just written gives the byte written. -/
theorem wf_read_write_same {aw : AddrWidth} {m : Memory} (h : m.wf aw) (a : Nat) (b : Byte) :
    (m.write a b).read a = b :=
  read_write_same h a b

/-- Canonical memories that read alike are equal. -/
theorem wfFrom_ext {hi lo : Nat} {m n : Memory} (hm : Memory.wfFrom hi lo m) (hn : Memory.wfFrom hi lo n)
    (h : ∀ a, m.read a = n.read a) : m = n := by
  induction m generalizing lo n with
  | nil =>
    cases n with
    | nil => rfl
    | cons q n =>
      obtain ⟨k, v⟩ := q
      simp only [Memory.wfFrom, Bool.and_eq_true, bne_iff_ne] at hn
      have := h k
      simp only [Memory.read, if_true] at this
      exact absurd this.symm hn.1.2
  | cons p m ih =>
    obtain ⟨k, v⟩ := p
    simp only [Memory.wfFrom, Bool.and_eq_true, decide_eq_true_eq, bne_iff_ne] at hm
    cases n with
    | nil =>
      have := h k
      simp only [Memory.read, if_true] at this
      exact absurd this hm.1.2
    | cons q n =>
      obtain ⟨k', v'⟩ := q
      simp only [Memory.wfFrom, Bool.and_eq_true, decide_eq_true_eq, bne_iff_ne] at hn
      have hk : k = k' := by
        rcases Nat.lt_trichotomy k k' with hlt | heq | hgt
        · have := h k
          simp only [Memory.read, if_true] at this
          rw [if_neg (by omega), read_below hn.2 (by omega)] at this
          exact absurd this hm.1.2
        · exact heq
        · have := h k'
          simp only [Memory.read, if_true] at this
          rw [if_neg (by omega), read_below hm.2 (by omega)] at this
          exact absurd this.symm hn.1.2
      subst hk
      have hv : v = v' := by simpa [Memory.read] using h k
      subst hv
      congr 1
      refine ih hm.2 hn.2 fun a => ?_
      by_cases ha : k = a
      · rw [read_below hm.2 (by omega), read_below hn.2 (by omega)]
      · simpa [Memory.read, ha] using h a

/-- Canonical memories that read alike are equal. -/
theorem wf_ext {aw : AddrWidth} {m n : Memory} (hm : m.wf aw) (hn : n.wf aw)
    (h : ∀ a, m.read a = n.read a) : m = n :=
  wfFrom_ext hm hn h

@[simp] theorem length_readBytes (m : Memory) (a n : Nat) : (m.readBytes a n).length = n := by
  induction n generalizing a with
  | zero => rfl
  | succ n ih => simp [Memory.readBytes, ih]

/-- Byte `k` of the bytes read from `a` on is the byte at `a + k`. -/
theorem getElem?_readBytes (m : Memory) (a n k : Nat) :
    (m.readBytes a n)[k]? = if k < n then some (m.read (a + k)) else none := by
  induction n generalizing a k with
  | zero => simp [Memory.readBytes]
  | succ n ih =>
    cases k with
    | zero => simp [Memory.readBytes]
    | succ k =>
      simp only [Memory.readBytes, List.getElem?_cons_succ, ih]
      simp only [Nat.add_lt_add_iff_right]
      rw [show a + 1 + k = a + (k + 1) by omega]

/-- The bytes read are unchanged where memory is. -/
theorem readBytes_congr {m n : Memory} {a len : Nat}
    (h : ∀ x, a ≤ x → x < a + len → m.read x = n.read x) : m.readBytes a len = n.readBytes a len := by
  induction len generalizing a with
  | zero => rfl
  | succ len ih =>
    simp only [Memory.readBytes]
    rw [h a (by omega) (by omega), ih fun x h1 h2 => h x (by omega) (by omega)]

/-- Reading a range in two parts. -/
theorem readBytes_add (m : Memory) (a j k : Nat) :
    m.readBytes a (j + k) = m.readBytes a j ++ m.readBytes (a + j) k := by
  induction j generalizing a with
  | zero => simp [Memory.readBytes]
  | succ j ih =>
    rw [show j + 1 + k = (j + k) + 1 by omega]
    simp only [Memory.readBytes, ih, List.cons_append]
    rw [show a + 1 + j = a + (j + 1) by omega]

/-- Writing bytes keeps the canonical form when the range is in memory. -/
theorem wf_writeBytes {aw : AddrWidth} {m : Memory} (h : m.wf aw) {a : Nat} {bs : List Byte}
    (ha : bs = [] ∨ a + bs.length ≤ 2 ^ aw.bits) : (m.writeBytes a bs).wf aw := by
  induction bs generalizing m a with
  | nil => exact h
  | cons b bs ih =>
    have ha' : a + (bs.length + 1) ≤ 2 ^ aw.bits := by simpa using ha
    exact ih (wf_write h b (by omega)) (Or.inr (by omega))

/-- Outside the written range memory reads as before. -/
theorem read_writeBytes_other (m : Memory) (a : Nat) (bs : List Byte) {c : Nat}
    (h : c < a ∨ a + bs.length ≤ c) : (m.writeBytes a bs).read c = m.read c := by
  induction bs generalizing m a with
  | nil => rfl
  | cons b bs ih =>
    simp only [List.length_cons] at h
    rw [Memory.writeBytes, ih _ _ (by omega), read_write_other m b (by omega)]

/-- Inside the written range memory reads the bytes written. -/
theorem read_writeBytes_same {aw : AddrWidth} {m : Memory} (h : m.wf aw) {a : Nat} {bs : List Byte}
    (ha : a + bs.length ≤ 2 ^ aw.bits) {k : Nat} (hk : k < bs.length) :
    (m.writeBytes a bs).read (a + k) = bs[k] := by
  induction bs generalizing m a k with
  | nil => simp at hk
  | cons b bs ih =>
    simp only [List.length_cons] at ha hk
    have hw : (m.write a b).wf aw := wf_write h b (by omega)
    cases k with
    | zero =>
      simp only [Memory.writeBytes, Nat.add_zero]
      rw [read_writeBytes_other _ _ _ (Or.inl (by omega)), wf_read_write_same h]
      rfl
    | succ k =>
      rw [Memory.writeBytes, show a + (k + 1) = a + 1 + k by omega,
        ih hw (by omega) (by omega)]
      rfl

/-- Writing two pieces one after the other. -/
theorem writeBytes_append (m : Memory) (a : Nat) (bs cs : List Byte) :
    m.writeBytes a (bs ++ cs) = (m.writeBytes a bs).writeBytes (a + bs.length) cs := by
  induction bs generalizing m a with
  | nil => rfl
  | cons b bs ih =>
    simp only [List.cons_append, Memory.writeBytes, ih, List.length_cons]
    rw [show a + 1 + bs.length = a + (bs.length + 1) by omega]

/-- Writes of disjoint ranges commute in a canonical memory. -/
theorem writeBytes_comm {aw : AddrWidth} {m : Memory} (h : m.wf aw) {a c : Nat} {bs cs : List Byte}
    (ha : bs = [] ∨ a + bs.length ≤ 2 ^ aw.bits) (hc : cs = [] ∨ c + cs.length ≤ 2 ^ aw.bits)
    (hd : bs = [] ∨ cs = [] ∨ a + bs.length ≤ c ∨ c + cs.length ≤ a) :
    (m.writeBytes a bs).writeBytes c cs = (m.writeBytes c cs).writeBytes a bs := by
  by_cases hbs : bs = []
  · subst hbs; rfl
  by_cases hcs : cs = []
  · subst hcs; rfl
  simp only [hbs, hcs, false_or] at ha hc hd
  have w1 := wf_writeBytes h (Or.inr ha)
  have w2 := wf_writeBytes h (Or.inr hc)
  refine wf_ext (wf_writeBytes w1 (Or.inr hc)) (wf_writeBytes w2 (Or.inr ha)) fun x => ?_
  by_cases hx : a ≤ x ∧ x < a + bs.length
  · obtain ⟨k, rfl⟩ : ∃ k, x = a + k := ⟨x - a, by omega⟩
    rw [read_writeBytes_other _ _ _ (by omega), read_writeBytes_same h ha (by omega),
      read_writeBytes_same w2 ha (by omega)]
  · by_cases hy : c ≤ x ∧ x < c + cs.length
    · obtain ⟨k, rfl⟩ : ∃ k, x = c + k := ⟨x - c, by omega⟩
      rw [read_writeBytes_same w1 hc (by omega), read_writeBytes_other _ _ _ (by omega),
        read_writeBytes_same h hc (by omega)]
    · rw [read_writeBytes_other _ _ _ (by omega), read_writeBytes_other _ _ _ (by omega),
        read_writeBytes_other _ _ _ (by omega), read_writeBytes_other _ _ _ (by omega)]

end Sys2Proof.Machine
end

