-- ==== Sys2Proof/Laws/Engines.lean ====
section
/-! SUPPORT. What each shared operation can do, said once: fetching and storing, the turns of the engines,
the commands, the register port and the step. -/

namespace Sys2Proof.Machine

/-- A fetch answers the bytes of its range, which lies in memory. -/
theorem fetch_eq_ok {s : State} {r : Region} {bs : List Byte} :
    fetch s r = .ok bs ↔
      (r.len = 0 ∨ r.base + r.len ≤ 2 ^ s.aw.bits) ∧ bs = s.mem.readBytes r.base r.len := by
  unfold fetch
  split <;> rename_i h <;> simp only [inMemory, decide_eq_true_eq] at h
  · simp [h, eq_comm]
  · simp [h]

/-- A store answers memory with the bytes written to a range that lies in memory. -/
theorem store_eq_ok {s : State} {a : Nat} {bs : List Byte} {m : Memory} :
    store s a bs = .ok m ↔
      (bs = [] ∨ a + bs.length ≤ 2 ^ s.aw.bits) ∧ m = s.mem.writeBytes a bs := by
  unfold store
  split <;> rename_i h <;> simp only [inMemory, decide_eq_true_eq] at h
  · simp [h, eq_comm]
  · simp [h]

/-- Everything the end of an engine step can do. -/
theorem storeThen_eq_next {s t : State} {a : Nat} {bs : List Byte} {after : Memory → State} :
    storeThen s a bs after = .next t ↔
      (bs = [] ∨ a + bs.length ≤ 2 ^ s.aw.bits) ∧ t = after (s.mem.writeBytes a bs) := by
  unfold storeThen
  split
  · next f hs =>
    have : ∀ m, store s a bs ≠ .ok m := by simp [hs]
    simp only [ne_eq, store_eq_ok, not_and] at this
    simp only [reduceCtorEq, false_iff, not_and]
    intro h
    exact absurd rfl (this _ h)
  · next m hs =>
    obtain ⟨h1, rfl⟩ := store_eq_ok.1 hs
    simp [h1, eq_comm]

/-- The interior block DEC has before it. -/
def nextInterior (s : State) : BlockResult := interiorBlock s.d.dbad (s.mem.readBytes (decInput s) 4)

/-- The final block DEC has before it. -/
def nextFinal (s : State) : BlockResult := finalBlock s.d.dbad (s.mem.readBytes (decInput s) (decRem s))

/-- Memory after DEC writes bytes at its output cursor. -/
def decWrites (s : State) (bs : List Byte) : Memory := s.mem.writeBytes (decOutput s) bs

/-- Memory after ENC writes characters at its output cursor. -/
def encWrites (s : State) (cs : List Byte) : Memory := s.mem.writeBytes (encOutput s) cs

/-- The characters of the full block ENC has before it. -/
def nextFull (s : State) : List Byte := fullBlock s.e.eurl (s.mem.readBytes (encInput s) 3)

/-- The characters of the leftover bytes ENC has before it. -/
def nextLeftover (s : State) : List Byte :=
  leftoverBlock s.e.eurl s.e.enp (s.mem.readBytes (encInput s) (encRem s))

/-- A range in memory, or nothing to do. -/
abbrev RangeOk (s : State) (a n : Nat) : Prop := n = 0 ∨ a + n ≤ 2 ^ s.aw.bits

/-- Everything a turn of DEC can do. -/
theorem decStep_cases {s t : State} (h : decStep s = .next t) :
    (s.d.dphase ≠ .busy ∧ t = s) ∨
    (s.d.dphase = .busy ∧ 4 < decRem s ∧ decInput s + 4 ≤ 2 ^ s.aw.bits ∧
      RangeOk s (decOutput s) (nextInterior s).out.length ∧
      t = decAdvance s (decWrites s (nextInterior s).out) (nextInterior s).dbad
        (nextInterior s).out.length) ∨
    (s.d.dphase = .busy ∧ decRem s = 0 ∧ t = decFinishEmpty s) ∨
    (s.d.dphase = .busy ∧ 0 < decRem s ∧ decRem s ≤ 4 ∧ decInput s + decRem s ≤ 2 ^ s.aw.bits ∧
      RangeOk s (decOutput s) (nextFinal s).out.length ∧
      t = decFinish s (decWrites s (nextFinal s).out) (nextFinal s).dbad (nextFinal s).inv
        (nextFinal s).out.length) := by
  unfold decStep at h
  split at h
  case isFalse hb => simp only [Host.Outcome.next.injEq] at h; exact .inl ⟨hb, h.symm⟩
  case isTrue hb =>
  split at h
  case isTrue hr =>
    unfold decInterior at h
    split at h
    · simp at h
    · next bs hf =>
      obtain ⟨hin, rfl⟩ := fetch_eq_ok.1 hf
      obtain ⟨hout, rfl⟩ := storeThen_eq_next.1 h
      refine .inr (.inl ⟨hb, hr, ?_, ?_, rfl⟩)
      · simpa using hin
      · simpa [RangeOk, nextInterior] using hout
  case isFalse hr =>
    unfold decFinal at h
    split at h
    · next h0 =>
      simp only [Host.Outcome.next.injEq] at h
      exact .inr (.inr (.inl ⟨hb, h0, h.symm⟩))
    · next h0 =>
      split at h
      · simp at h
      · next bs hf =>
        obtain ⟨hin, rfl⟩ := fetch_eq_ok.1 hf
        obtain ⟨hout, rfl⟩ := storeThen_eq_next.1 h
        refine .inr (.inr (.inr ⟨hb, by omega, by omega, ?_, ?_, rfl⟩))
        · simpa [h0] using hin
        · simpa [RangeOk, nextFinal] using hout

/-- DEC in an interior block whose ranges lie in memory. -/
theorem decStep_interior {s : State} (hb : s.d.dphase = .busy) (hr : 4 < decRem s)
    (hin : decInput s + 4 ≤ 2 ^ s.aw.bits)
    (hout : RangeOk s (decOutput s) (nextInterior s).out.length) :
    decStep s = .next (decAdvance s (decWrites s (nextInterior s).out) (nextInterior s).dbad
      (nextInterior s).out.length) := by
  have hf : fetch s ⟨decInput s, 4⟩ = .ok (s.mem.readBytes (decInput s) 4) :=
    fetch_eq_ok.2 ⟨Or.inr hin, rfl⟩
  rw [decStep, if_pos hb, if_pos hr, decInterior, hf]
  exact storeThen_eq_next.2 ⟨by simpa [RangeOk, nextInterior] using hout, rfl⟩

/-- DEC with nothing left to read. -/
theorem decStep_empty {s : State} (hb : s.d.dphase = .busy) (hr : decRem s = 0) :
    decStep s = .next (decFinishEmpty s) := by
  rw [decStep, if_pos hb, if_neg (by omega), decFinal, if_pos hr]

/-- DEC in the final block, its ranges in memory. -/
theorem decStep_final {s : State} (hb : s.d.dphase = .busy) (h0 : decRem s ≠ 0) (hr : decRem s ≤ 4)
    (hin : decInput s + decRem s ≤ 2 ^ s.aw.bits)
    (hout : RangeOk s (decOutput s) (nextFinal s).out.length) :
    decStep s = .next (decFinish s (decWrites s (nextFinal s).out) (nextFinal s).dbad (nextFinal s).inv
      (nextFinal s).out.length) := by
  have hf : fetch s ⟨decInput s, decRem s⟩ = .ok (s.mem.readBytes (decInput s) (decRem s)) :=
    fetch_eq_ok.2 ⟨Or.inr hin, rfl⟩
  rw [decStep, if_pos hb, if_neg (by omega), decFinal, if_neg h0, hf]
  exact storeThen_eq_next.2 ⟨by simpa [RangeOk, nextFinal] using hout, rfl⟩

/-- Everything a turn of ENC can do. -/
theorem encStep_cases {s t : State} (h : encStep s = .next t) :
    (s.e.ephase ≠ .busy ∧ t = s) ∨
    (s.e.ephase = .busy ∧ 3 ≤ encRem s ∧ encInput s + 3 ≤ 2 ^ s.aw.bits ∧
      encOutput s + 4 ≤ 2 ^ s.aw.bits ∧ t = encAdvance s (encWrites s (nextFull s))) ∨
    (s.e.ephase = .busy ∧ encRem s = 0 ∧ t = encFinishEmpty s) ∨
    (s.e.ephase = .busy ∧ 0 < encRem s ∧ encRem s < 3 ∧ encInput s + encRem s ≤ 2 ^ s.aw.bits ∧
      RangeOk s (encOutput s) (nextLeftover s).length ∧
      t = encFinish s (encWrites s (nextLeftover s)) (nextLeftover s).length) := by
  unfold encStep at h
  split at h
  case isFalse hb => simp only [Host.Outcome.next.injEq] at h; exact .inl ⟨hb, h.symm⟩
  case isTrue hb =>
  split at h
  case isTrue hr =>
    unfold encFull at h
    split at h
    · simp at h
    · next bs hf =>
      obtain ⟨hin, rfl⟩ := fetch_eq_ok.1 hf
      obtain ⟨hout, rfl⟩ := storeThen_eq_next.1 h
      refine .inr (.inl ⟨hb, hr, ?_, ?_, rfl⟩)
      · simpa using hin
      · simpa [fullBlock, encBlock] using hout
  case isFalse hr =>
    unfold encFinal at h
    split at h
    · next h0 =>
      simp only [Host.Outcome.next.injEq] at h
      exact .inr (.inr (.inl ⟨hb, h0, h.symm⟩))
    · next h0 =>
      split at h
      · simp at h
      · next bs hf =>
        obtain ⟨hin, rfl⟩ := fetch_eq_ok.1 hf
        obtain ⟨hout, rfl⟩ := storeThen_eq_next.1 h
        refine .inr (.inr (.inr ⟨hb, by omega, by omega, ?_, ?_, rfl⟩))
        · simpa [h0] using hin
        · simpa [RangeOk, nextLeftover] using hout

/-- ENC in a full block whose ranges lie in memory. -/
theorem encStep_full {s : State} (hb : s.e.ephase = .busy) (hr : 3 ≤ encRem s)
    (hin : encInput s + 3 ≤ 2 ^ s.aw.bits) (hout : encOutput s + 4 ≤ 2 ^ s.aw.bits) :
    encStep s = .next (encAdvance s (encWrites s (nextFull s))) := by
  have hf : fetch s ⟨encInput s, 3⟩ = .ok (s.mem.readBytes (encInput s) 3) :=
    fetch_eq_ok.2 ⟨Or.inr hin, rfl⟩
  rw [encStep, if_pos hb, if_pos hr, encFull, hf]
  exact storeThen_eq_next.2 ⟨Or.inr (by simpa [fullBlock, encBlock] using hout), rfl⟩

/-- ENC with nothing left to read. -/
theorem encStep_empty {s : State} (hb : s.e.ephase = .busy) (hr : encRem s = 0) :
    encStep s = .next (encFinishEmpty s) := by
  rw [encStep, if_pos hb, if_neg (by omega), encFinal, if_pos hr]

/-- ENC with one or two leftover bytes, its ranges in memory. -/
theorem encStep_final {s : State} (hb : s.e.ephase = .busy) (h0 : encRem s ≠ 0) (hr : encRem s < 3)
    (hin : encInput s + encRem s ≤ 2 ^ s.aw.bits)
    (hout : RangeOk s (encOutput s) (nextLeftover s).length) :
    encStep s = .next (encFinish s (encWrites s (nextLeftover s)) (nextLeftover s).length) := by
  have hf : fetch s ⟨encInput s, encRem s⟩ = .ok (s.mem.readBytes (encInput s) (encRem s)) :=
    fetch_eq_ok.2 ⟨Or.inr hin, rfl⟩
  rw [encStep, if_pos hb, if_neg (by omega), encFinal, if_neg h0, hf]
  exact storeThen_eq_next.2 ⟨by simpa [RangeOk, nextLeftover] using hout, rfl⟩

/-- What an accepted call's buffers meet. -/
theorem callBreach_eq_none {s : State} {c : Call} {other : Option Call} :
    callBreach s c other = none ↔
      inMemory s.aw c.input ∧ inMemory s.aw c.output ∧ ownedStorage s.unowned c.input ∧
        ownedStorage s.unowned c.output ∧ c.input.disjoint c.output ∧ other.all c.compatible := by
  unfold callBreach
  split
  · next h =>
    simp only [Bool.not_eq_true', Bool.and_eq_false_iff] at h
    rcases h with h | h <;> simp [h]
  · split
    · simp_all
    · split
      · simp_all
      · split
        · simp_all
        · split
          · simp_all
          · simp_all

/-- Everything a command can do. -/
theorem exec_cases {i : Instr} {s t : State} (h : exec i s = .next t) :
    (i = .decode ∧ s.d.dphase ≠ .busy ∧
      (s.d.dsrc.written ∧ s.d.dlen.written ∧ s.d.ddst.written) ∧
      callBreach s (decodeCall s) (runningEncode s) = none ∧ t = acceptDecode s (decodeCall s)) ∨
    (i = .dec4 ∧ s.d.dphase ≠ .busy ∧ s.d.ddin.written ∧
      t = finishDec4 s (combine (item s.d.ddin.val 0) (item s.d.ddin.val 1) (item s.d.ddin.val 2)
        (item s.d.ddin.val 3))) ∨
    (∃ url np, i = .encode url np ∧ s.e.ephase ≠ .busy ∧
      (s.e.esrc.written ∧ s.e.elen.written ∧ s.e.edst.written) ∧
      callBreach s (encodeCall s np) (runningDecode s) = none ∧
      t = acceptEncode s url np (encodeCall s np)) ∨
    (∃ url w, i = .enc3 url ∧ s.e.ephase ≠ .busy ∧ s.e.edin.written ∧ t = finishEnc3 s w) := by
  cases i with
  | decode =>
    simp only [exec, execDecode, decodeBreach] at h
    split at h
    · simp at h
    · next hb =>
      split at hb
      · simp at hb
      · split at hb
        · simp at hb
        · next h1 h2 =>
          refine .inl ⟨rfl, h1, ?_, hb, by simpa using h.symm⟩
          simpa [and_assoc] using h2
  | dec4 =>
    simp only [exec, execDec4] at h
    split at h
    · simp at h
    · split at h
      · simp at h
      · next h1 h2 => exact .inr (.inl ⟨rfl, h1, by simpa using h2, by simpa using h.symm⟩)
  | encode url np =>
    simp only [exec, execEncode, encodeBreach] at h
    split at h
    · simp at h
    · next hb =>
      split at hb
      · simp at hb
      · split at hb
        · simp at hb
        · next h1 h2 =>
          refine .inr (.inr (.inl ⟨url, np, rfl, h1, ?_, hb, by simpa using h.symm⟩))
          simpa [and_assoc] using h2
  | enc3 url =>
    simp only [exec, execEnc3] at h
    split at h
    · simp at h
    · split at h
      · simp at h
      · next h1 h2 =>
        exact .inr (.inr (.inr ⟨url, _, rfl, h1, by simpa using h2, by simpa using h.symm⟩))

/-- Everything a register read can do: it returns a value; the engine and memory stay; a read of DONE
releases the bank's calls. -/
theorem regRead_cases {n : Nat} {s t : State} (h : regRead n s = .next t) :
    ∃ v k dc ec, t = { s with lastRead := some v, free := k, dcalls := dc, ecalls := ec } ∧
      s.free ≤ k ∧ (dc = s.dcalls ∨ (s.d.dphase = .done ∧ dc = [])) ∧
      (ec = s.ecalls ∨ (s.e.ephase = .done ∧ ec = [])) := by
  have addr : ∀ r : Held Addr, readHeldAddr s r = t →
      ∃ v k dc ec, t = { s with lastRead := some v, free := k, dcalls := dc, ecalls := ec } ∧
      s.free ≤ k ∧ (dc = s.dcalls ∨ (s.d.dphase = .done ∧ dc = [])) ∧
      (ec = s.ecalls ∨ (s.e.ephase = .done ∧ ec = [])) := by
    intro r hr
    unfold readHeldAddr at hr
    split at hr
    · exact ⟨_, s.free, _, _, hr.symm, Nat.le_refl _, .inl rfl, .inl rfl⟩
    · exact ⟨_, s.free + 1, _, _, hr.symm, by omega, .inl rfl, .inl rfl⟩
  have word : ∀ r : Held Word, readHeldWord s r = t →
      ∃ v k dc ec, t = { s with lastRead := some v, free := k, dcalls := dc, ecalls := ec } ∧
      s.free ≤ k ∧ (dc = s.dcalls ∨ (s.d.dphase = .done ∧ dc = [])) ∧
      (ec = s.ecalls ∨ (s.e.ephase = .done ∧ ec = [])) := by
    intro r hr
    unfold readHeldWord at hr
    split at hr
    · exact ⟨_, s.free, _, _, hr.symm, Nat.le_refl _, .inl rfl, .inl rfl⟩
    · exact ⟨_, s.free + 1, _, _, hr.symm, by omega, .inl rfl, .inl rfl⟩
  unfold regRead at h
  split at h
  case h_1 => exact nomatch h
  case h_2 => exact nomatch h
  all_goals simp only [Host.Outcome.next.injEq] at h
  case h_3 =>
    unfold releaseDecode at h
    split at h
    · next hd => exact ⟨_, s.free, _, _, h.symm, Nat.le_refl _, .inr ⟨hd, rfl⟩, .inl rfl⟩
    · exact ⟨_, s.free, _, _, h.symm, Nat.le_refl _, .inl rfl, .inl rfl⟩
  case h_10 =>
    unfold releaseEncode at h
    split at h
    · next hd => exact ⟨_, s.free, _, _, h.symm, Nat.le_refl _, .inl rfl, .inr ⟨hd, rfl⟩⟩
    · exact ⟨_, s.free, _, _, h.symm, Nat.le_refl _, .inl rfl, .inl rfl⟩
  all_goals first
    | exact addr _ h
    | exact word _ h
    | exact ⟨_, s.free, _, _, h.symm, Nat.le_refl _, .inl rfl, .inl rfl⟩

/-- Everything a register write can do: issue a command, or put a value of the register's width in one
operand register of a bank that is not BUSY. -/
theorem regWrite_cases {n : Nat} {v : RegVal} {s t : State} (h : regWrite n v s = .next t) :
    (n = 0 ∧ ∃ b i, v = .byte b ∧ decodeCommand b = .ok i ∧ exec i s = .next t) ∨
    (s.d.dphase ≠ .busy ∧ ∃ a, v = .addr a ∧ fits s.aw a ∧
      ((n = 2 ∧ t = { s with d := { s.d with dsrc := .put a } }) ∨
       (n = 3 ∧ t = { s with d := { s.d with dlen := .put a } }) ∨
       (n = 4 ∧ t = { s with d := { s.d with ddst := .put a } }))) ∨
    (s.d.dphase ≠ .busy ∧ n = 6 ∧ ∃ w, v = .word w ∧ t = { s with d := { s.d with ddin := .put w } }) ∨
    (s.e.ephase ≠ .busy ∧ ∃ a, v = .addr a ∧ fits s.aw a ∧
      ((n = 10 ∧ t = { s with e := { s.e with esrc := .put a } }) ∨
       (n = 11 ∧ t = { s with e := { s.e with elen := .put a } }) ∨
       (n = 12 ∧ t = { s with e := { s.e with edst := .put a } }))) ∨
    (s.e.ephase ≠ .busy ∧ n = 14 ∧ ∃ w, v = .word w ∧ t = { s with e := { s.e with edin := .put w } }) := by
  have addr : ∀ (busy : Bool) (put : Held Addr → State), writeAddr n busy v s put = .next t →
      busy = false ∧ ∃ a, v = .addr a ∧ fits s.aw a ∧ t = put (.put a) := by
    intro busy put hw
    unfold writeAddr at hw
    split at hw
    · simp at hw
    · next hb =>
      split at hw
      · split at hw
        · next a hf => exact ⟨by simpa using hb, a, rfl, hf, by simpa using hw.symm⟩
        · simp at hw
      · simp at hw
      · simp at hw
  have word : ∀ (busy : Bool) (put : Held Word → State), writeWord n busy v put = .next t →
      busy = false ∧ ∃ w, v = .word w ∧ t = put (.put w) := by
    intro busy put hw
    unfold writeWord at hw
    split at hw
    · simp at hw
    · next hb =>
      split at hw
      · next w => exact ⟨by simpa using hb, w, rfl, by simpa using hw.symm⟩
      · simp at hw
      · simp at hw
  have num : ∀ r, regOf n = some r → (r = .cmd → n = 0) ∧ (r = .dsrc → n = 2) ∧ (r = .dlen → n = 3) ∧
      (r = .ddst → n = 4) ∧ (r = .ddin → n = 6) ∧ (r = .esrc → n = 10) ∧ (r = .elen → n = 11) ∧
      (r = .edst → n = 12) ∧ (r = .edin → n = 14) := by
    intro r hr
    unfold regOf at hr
    split at hr <;> simp_all <;> subst hr <;> simp
  simp only [regWrite] at h
  split at h
  · simp at h
  · next hr =>
    have h0 := (num _ hr).1 rfl
    split at h
    · next b =>
      unfold issueCommand at h
      split at h
      · next i hi => exact .inl ⟨h0, b, i, rfl, hi, h⟩
      · simp at h
    · simp at h
    · simp at h
  · next hr =>
    obtain ⟨hb, a, hv, hf, ht⟩ := addr _ _ h
    exact .inr (.inl ⟨by simpa using hb, a, hv, hf, .inl ⟨(num _ hr).2.1 rfl, ht⟩⟩)
  · next hr =>
    obtain ⟨hb, a, hv, hf, ht⟩ := addr _ _ h
    exact .inr (.inl ⟨by simpa using hb, a, hv, hf, .inr (.inl ⟨(num _ hr).2.2.1 rfl, ht⟩)⟩)
  · next hr =>
    obtain ⟨hb, a, hv, hf, ht⟩ := addr _ _ h
    exact .inr (.inl ⟨by simpa using hb, a, hv, hf, .inr (.inr ⟨(num _ hr).2.2.2.1 rfl, ht⟩)⟩)
  · next hr =>
    obtain ⟨hb, w, hv, ht⟩ := word _ _ h
    exact .inr (.inr (.inl ⟨by simpa using hb, (num _ hr).2.2.2.2.1 rfl, w, hv, ht⟩))
  · next hr =>
    obtain ⟨hb, a, hv, hf, ht⟩ := addr _ _ h
    exact .inr (.inr (.inr (.inl ⟨by simpa using hb, a, hv, hf, .inl ⟨(num _ hr).2.2.2.2.2.1 rfl, ht⟩⟩)))
  · next hr =>
    obtain ⟨hb, a, hv, hf, ht⟩ := addr _ _ h
    exact .inr (.inr (.inr (.inl ⟨by simpa using hb, a, hv, hf,
      .inr (.inl ⟨(num _ hr).2.2.2.2.2.2.1 rfl, ht⟩)⟩)))
  · next hr =>
    obtain ⟨hb, a, hv, hf, ht⟩ := addr _ _ h
    exact .inr (.inr (.inr (.inl ⟨by simpa using hb, a, hv, hf,
      .inr (.inr ⟨(num _ hr).2.2.2.2.2.2.2.1 rfl, ht⟩)⟩)))
  · next hr =>
    obtain ⟨hb, w, hv, ht⟩ := word _ _ h
    exact .inr (.inr (.inr (.inr ⟨by simpa using hb, (num _ hr).2.2.2.2.2.2.2.2 rfl, w, hv, ht⟩)))
  all_goals simp at h

/-- A host read of memory changes what the host sees, and nothing else. -/
theorem hostMemRead_next {a : Nat} {s t : State} (h : hostMemRead a s = .next t) :
    t = returnValue s (.byte (s.mem.read a)) := by
  unfold hostMemRead at h
  split at h
  · simp at h
  · split at h
    · simp at h
    · simpa using h.symm

/-- A host write of memory goes to a byte no call holds. -/
theorem hostMemWrite_next {a : Nat} {b : Byte} {s t : State} (h : hostMemWrite a b s = .next t) :
    a < 2 ^ s.aw.bits ∧ (∀ c ∈ openCalls s, c.input.holds a = false ∧ c.output.holds a = false) ∧
      t = { s with mem := s.mem.write a b } := by
  unfold hostMemWrite at h
  split at h
  · simp at h
  · next h1 =>
    split at h
    · simp at h
    · next h2 =>
      refine ⟨by simpa [inMemory] using h1, fun c hc => ?_, by simpa using h.symm⟩
      simp only [List.any_eq_true, not_exists, not_and, Bool.or_eq_true, not_or, Bool.not_eq_true] at h2
      exact h2 c hc

/-- A change of the host's storage leaves the calls' buffers its own. -/
theorem setUnowned_next {rs : List Region} {s t : State} (h : setUnowned rs s = .next t) :
    (∀ c ∈ openCalls s, ownedStorage rs c.input ∧ ownedStorage rs c.output) ∧
      t = { s with unowned := rs } := by
  unfold setUnowned at h
  split at h
  · next h1 =>
    refine ⟨fun c hc => ?_, by simpa using h.symm⟩
    have := List.all_eq_true.1 h1 c hc
    simpa using this
  · simp at h

/-- Whose turn a step is: the next event's, or with none pending an engine's. -/
theorem step_cases {s t : State} (h : step s = .next t) :
    (∃ ev evs, s.pending = ev :: evs ∧ perform ev { s with pending := evs } = .next t) ∨
    (s.pending = [] ∧ ∃ k, (decStep { s with free := k } = .next t ∨ encStep { s with free := k } = .next t)) := by
  unfold step takeTurn at h
  split at h
  · next hp =>
    refine .inr ⟨hp, ?_⟩
    unfold quietStep at h
    split at h
    · split at h
      · split at h
        · exact ⟨s.free + 1, .inl h⟩
        · exact ⟨s.free + 1, .inr h⟩
      · exact ⟨s.free, .inl h⟩
    · exact ⟨s.free, .inr h⟩
  · next ev evs hp => exact .inl ⟨ev, evs, hp, h⟩

end Sys2Proof.Machine
end

