-- ==== Sys2Proof/Laws/Blocks.lean ====
section
/-! SUPPORT. What a block leaves, by length: the write gate, the pads, and the bound of the decoded size;
and when ranges are disjoint. -/

namespace Sys2Proof.Machine

theorem item_or (v w : Word) (k : Nat) : item (v ||| w) k = item v k ||| item w k := by
  simp [item, BitVec.extractLsb'_or]

theorem bad_or (v w : Word) : bad (v ||| w) = (bad v || bad w) := by
  have h : ∀ x y : Byte, (x ||| y != 0) = ((x != 0) || (y != 0)) := by
    intro x y
    rw [Bool.eq_iff_iff]
    simp only [bne_iff_ne, ne_eq, Bool.or_eq_true]
    rw [show (0 : Byte) = 0#8 from rfl, BitVec.or_eq_zero_iff]
    tauto
  simpa [bad, BitVec.extractLsb'_or] using h (v.extractLsb' 24 8) (w.extractLsb' 24 8)

/-- A pad has the bad marker in every table, so a block that shows one is bad. -/
theorem bad_combine_of_pad {c0 c1 c2 c3 : Byte}
    (h : c0 = padChar ∨ c1 = padChar ∨ c2 = padChar ∨ c3 = padChar) : bad (combine c0 c1 c2 c3) = true := by
  have b0 : bad (dt0 padChar) = true := by decide
  have b1 : bad (dt1 padChar) = true := by decide
  have b2 : bad (dt2 padChar) = true := by decide
  have b3 : bad (dt3 padChar) = true := by decide
  simp only [combine, bad_or, Bool.or_eq_true]
  rcases h with rfl | rfl | rfl | rfl
  · simp [b0]
  · simp [b1]
  · simp [b2]
  · simp [b3]

theorem outputBytes_length (w : Word) {n : Nat} (h : n ≤ 3) : (outputBytes w n).length = n := by
  simp [outputBytes, h]

@[simp] theorem gatedBlock_dbad (b : Bool) (w : Word) (n : Nat) : (gatedBlock b w n).dbad = (b || bad w) := rfl
@[simp] theorem gatedBlock_inv (b : Bool) (w : Word) (n : Nat) : (gatedBlock b w n).inv = (b || bad w) := rfl

/-- The write gate: nothing once the accumulated bad-bit is set (41_decode.md R124). -/
theorem gatedBlock_length (b : Bool) (w : Word) {n : Nat} (h : n ≤ 3) :
    (gatedBlock b w n).out.length = if (b || bad w) then 0 else n := by
  simp only [gatedBlock]
  split <;> simp_all [outputBytes_length]

theorem interiorBlock_length (b : Bool) (bs : List Byte) :
    (interiorBlock b bs).out.length = if (interiorBlock b bs).dbad then 0 else 3 :=
  gatedBlock_length _ _ (Nat.le_refl 3)

theorem interiorBlock_length_le (b : Bool) (bs : List Byte) : (interiorBlock b bs).out.length ≤ 3 := by
  rw [interiorBlock_length]; split <;> omega

/-- An interior block that shows a pad is bad. -/
theorem interiorBlock_dbad_of_pad {b : Bool} {bs : List Byte} {k : Nat} (hk : k < 4)
    (h : charAt bs k = padChar) : (interiorBlock b bs).dbad = true := by
  simp only [interiorBlock, gatedBlock_dbad, Bool.or_eq_true]
  right
  apply bad_combine_of_pad
  match k, hk with
  | 0, _ => exact .inl h
  | 1, _ => exact .inr (.inl h)
  | 2, _ => exact .inr (.inr (.inl h))
  | 3, _ => exact .inr (.inr (.inr h))

/-- The bad-bit only accumulates. -/
theorem interiorBlock_dbad_mono (bs : List Byte) : (interiorBlock true bs).dbad = true := by
  simp [interiorBlock]

/-- A final block writes at most what its length and its pads grant, and nothing if the bad-bit is set. -/
theorem finalBlock_length_le (b : Bool) {bs : List Byte} (h : bs.length ≤ 4) :
    (finalBlock b bs).out.length ≤ bs.length - trimOf bs - 1 ∧ (b = true → (finalBlock b bs).out = []) := by
  unfold finalBlock
  split
  · simp
  · have : bs.length - trimOf bs - 1 ≤ 3 := by omega
    rw [gatedBlock_length _ _ this]
    refine ⟨by split <;> omega, ?_⟩
    rintro rfl
    simp [gatedBlock]

/-- In a final block of two or three characters a pad in the last position stops all writing. -/
theorem finalBlock_out_of_pad {b : Bool} {bs : List Byte} (h2 : bs.length = 2 ∨ bs.length = 3)
    (h : charAt bs (bs.length - 1) = padChar) : (finalBlock b bs).out = [] := by
  have h3 : charAt bs 3 = neutralChar := by
    simp only [charAt, List.getD_eq_getElem?_getD]
    rw [List.getElem?_eq_none (by omega)]; rfl
  have hne : neutralChar ≠ padChar := by decide
  have ht : trimOf bs = 0 := by simp [trimOf, h3, hne]
  unfold finalBlock
  rcases h2 with h2 | h2
  · rw [h2] at h
    simp [impossibleRemainder, h2, h]
  · rw [h2] at h
    have hi : impossibleRemainder bs.length (charAt bs 1) = false := by simp [impossibleRemainder, h2]
    rw [hi]
    have : bad (finalWord bs) = true := by
      simp only [finalWord, ht]
      exact bad_combine_of_pad (.inr (.inr (.inl (by simpa using h))))
    simp [gatedBlock, this]

/-- One character is never decoded. -/
theorem finalBlock_one {b : Bool} {bs : List Byte} (h : bs.length = 1) : finalBlock b bs = ⟨b, true, []⟩ := by
  simp [finalBlock, impossibleRemainder, h]

theorem leftoverBlock_length (url np : Bool) {bs : List Byte} (h : bs.length ≤ 3) :
    (leftoverBlock url np bs).length = if np then bs.length + 1 else 4 := by
  unfold leftoverBlock fullBlock encBlock
  cases np <;> simp <;> omega

@[simp] theorem fullBlock_length (url : Bool) (bs : List Byte) : (fullBlock url bs).length = 4 := rfl

/-- Disjoint ranges share no address. -/
theorem disjoint_iff {r q : Region} :
    r.disjoint q = true ↔ r.len = 0 ∨ q.len = 0 ∨ r.base + r.len ≤ q.base ∨ q.base + q.len ≤ r.base := by
  simp [Region.disjoint, or_assoc]

theorem disjoint_comm (r q : Region) : r.disjoint q = q.disjoint r := by
  rw [Bool.eq_iff_iff, disjoint_iff, disjoint_iff]; omega

theorem holds_iff {r : Region} {a : Nat} : r.holds a = true ↔ r.base ≤ a ∧ a < r.base + r.len := by
  simp [Region.holds]

theorem holds_false {r : Region} {a : Nat} : r.holds a = false ↔ a < r.base ∨ r.base + r.len ≤ a := by
  rw [← Bool.not_eq_true, holds_iff]; omega

theorem inMemory_iff {aw : AddrWidth} {r : Region} : inMemory aw r = true ↔ r.base + r.len ≤ 2 ^ aw.bits := by
  simp [inMemory]

theorem pow_le (aw : AddrWidth) : 2 ^ aw.bits ≤ 2 ^ 64 := Nat.pow_le_pow_right (by omega) aw.atMost64

/-- A cursor that stays below 2^64 counts exactly. -/
theorem advance_toNat (c : Addr) (n : Nat) (h : c.toNat + n < 2 ^ 64) : (advance c n).toNat = c.toNat + n := by
  simp only [advance, BitVec.toNat_add, BitVec.toNat_ofNat]
  omega

end Sys2Proof.Machine
end

