-- ==== Sys2Proof/Laws/PerInstr.lean ====
section
/-! SUPPORT. What every command's fields and byte satisfy, command by command. -/

namespace Sys2Proof.Laws.Fields

/-- The fields are legal, the byte's `RSV` bits are zero, and its `ENG` bit is the command's bank
(30_encoding.md R71, R72). -/
def Statement (i : Instr) : Prop :=
  i.WellFormed ∧ (encode i).extractLsb' 5 3 = 0 ∧ (encode i).getLsbD 2 = i.fields.eng

theorem decode : Statement .decode := by
  unfold Statement; decide

theorem dec4 : Statement .dec4 := by
  unfold Statement; decide

theorem encode (url np : Bool) : Statement (.encode url np) := by
  unfold Statement; revert url np; decide

theorem enc3 (url : Bool) : Statement (.enc3 url) := by
  unfold Statement; revert url; decide

end Sys2Proof.Laws.Fields
end

