-- ==== Sys2Proof/Laws/Runs.lean ====
section
/-! SUPPORT. What the invariant says about a running call: its buffers, the room left in its output, and
what keeps it running. -/

namespace Sys2Proof.Machine

/-- A character of a fetched block is a byte of memory. -/
theorem charAt_readBytes (m : Memory) (a n k : Nat) (h : k < n) :
    charAt (m.readBytes a n) k = m.read (a + k) := by
  rw [charAt, List.getD_eq_getElem?_getD, getElem?_readBytes, if_pos h]; rfl

/-- The decoded size is no more than the length. -/
theorem decodedSizeOf_le (len : Nat) (x y : Byte) : decodedSizeOf len x y ≤ len := by
  unfold decodedSizeOf; omega

/-- At most two pads are counted (43_size_functions.md R161). -/
theorem padCountOf_le (len : Nat) (x y : Byte) : padCountOf len x y ≤ 2 := by
  unfold padCountOf; split <;> [omega; split <;> omega]

/-- The pads DEC strips from a block of four are the pads the size function counts. -/
theorem padCountOf_eq_trim {L : Nat} (h : 2 ≤ L) (x y : Byte) :
   (if x = padChar then (if y = padChar then 2 else 1) else 0) = padCountOf L x y := by
  have h0 : L ≠ 0 := by omega
  have h1 : L ≠ 1 := by omega
  unfold padCountOf
  by_cases hx : x = padChar <;> by_cases hy : y = padChar <;> simp [hx, hy, h0, h1]

/-- The call of a `DECODE` is the same while its operands and its text are. -/
theorem decodeCall_congr {s t : State} (hs : t.d.dsrc = s.d.dsrc) (hl : t.d.dlen = s.d.dlen)
    (hd : t.d.ddst = s.d.ddst)
    (h : ∀ x, s.d.dsrc.val.toNat ≤ x → x < s.d.dsrc.val.toNat + s.d.dlen.val.toNat → t.mem.read x = s.mem.read x) :
    decodeCall t = decodeCall s := by
  simp only [decodeCall, hs, hl, hd]
  by_cases h0 : s.d.dlen.val.toNat = 0
  · simp [h0, decodedSizeOf]
  · rw [h _ (by omega) (by omega), h _ (by omega) (by omega)]

/-- An interior block fits in what is left of the output (20_memory.md R67). -/
theorem interior_block_has_room {s : State} (hr : DecodeRuns s) (h4 : 4 < decRem s) :
    s.d.doutlen.toNat + (nextInterior s).out.length ≤ (decodeCall s).output.len ∧
    (nextInterior s).out.length ≤ 3 := by
  refine ⟨?_, interiorBlock_length_le _ _⟩
  have hl := interiorBlock_length s.d.dbad (s.mem.readBytes (decInput s) 4)
  change (nextInterior s).out.length = if (nextInterior s).dbad then 0 else 3 at hl
  obtain ⟨_, _, hb, hc, hu, ho, hg, hroom⟩ := hr
  unfold decRem at h4
  simp only [decodeCall, decodedSizeOf] at hroom ⊢
  set L := s.d.dlen.val.toNat
  set n := s.d.didx.toNat
  set last := s.mem.read (s.d.dsrc.val.toNat + (L - 1)) with hlast
  set prev := s.mem.read (s.d.dsrc.val.toNat + (L - 2)) with hprev
  have hp := padCountOf_le L last prev
  by_cases hd : (nextInterior s).dbad = true
  · rw [if_pos hd] at hl; omega
  · rw [if_neg hd] at hl
    by_cases h5 : L = n + 5
    · -- then pads are at most 1
      have : padCountOf L last prev ≤ 1 := by
        unfold padCountOf
        split
        · omega
        · split
          · omega
          · exfalso
            next h1 h2 =>
            apply hd
            refine interiorBlock_dbad_of_pad (k := 3) (by omega) ?_
            rw [charAt_readBytes _ _ _ _ (by omega)]
            have : prev = padChar := by tauto
            rw [← this, hprev]
            unfold decInput
            congr 1
            show s.d.dsrc.val.toNat + n + 3 = _
            omega
      omega
    · omega

/-- The final block fits in what is left of the output (20_memory.md R67). -/
theorem final_block_has_room {s : State} (hr : DecodeRuns s) (h0 : 0 < decRem s) (h4 : decRem s ≤ 4) :
    s.d.doutlen.toNat + (nextFinal s).out.length ≤ (decodeCall s).output.len := by
  have hlen : (s.mem.readBytes (decInput s) (decRem s)).length = decRem s := by simp
  have hle := (finalBlock_length_le s.d.dbad (bs := s.mem.readBytes (decInput s) (decRem s)) (by omega)).1
  rw [hlen] at hle
  change (nextFinal s).out.length ≤ _ at hle
  obtain ⟨_, _, hb, hc, hu, ho, hg, hroom⟩ := hr
  simp only [decodeCall, decodedSizeOf] at hroom ⊢
  set L := s.d.dlen.val.toNat with hL
  set n := s.d.didx.toNat with hn
  set last := s.mem.read (s.d.dsrc.val.toNat + (L - 1)) with hlast
  set prev := s.mem.read (s.d.dsrc.val.toNat + (L - 2)) with hprev
  have hR : decRem s = L - n := rfl
  set r := decRem s with hrr
  have hp := padCountOf_le L last prev
  have hch : ∀ k, k < r → charAt (s.mem.readBytes (decInput s) r) k = s.mem.read (s.d.dsrc.val.toNat + n + k) := by
    intro k hk; rw [charAt_readBytes _ _ _ _ hk]; rfl
  have hlastc : charAt (s.mem.readBytes (decInput s) r) (r - 1) = last := by
    rw [hch _ (by omega), hlast]; congr 1; omega
  have case1 : r = 1 → (nextFinal s).out = [] := by
    intro h; unfold nextFinal; rw [finalBlock_one (by rw [hlen]; exact h)]
  have case23 : (r = 2 ∨ r = 3) → padCountOf L last prev ≠ 0 → (nextFinal s).out = [] := by
    intro h hp0
    refine finalBlock_out_of_pad (by rw [hlen]; exact h) ?_
    rw [hlen, hlastc]
    unfold padCountOf at hp0
    by_contra hne
    exact hp0 (if_pos (Or.inr hne))
  have case4 : r = 4 → trimOf (s.mem.readBytes (decInput s) r) = padCountOf L last prev := by
    intro h
    have hprevc : charAt (s.mem.readBytes (decInput s) r) 2 = prev := by
      rw [hch _ (by omega), hprev]; congr 1; omega
    have hlc : charAt (s.mem.readBytes (decInput s) r) 3 = last := by
      rw [← hlastc, h]
    unfold trimOf
    rw [hprevc, hlc]
    exact padCountOf_eq_trim (by omega) last prev
  have : (nextFinal s).out = [] ∨ (nextFinal s).out.length ≤ r - trimOf (s.mem.readBytes (decInput s) r) - 1 := .inr hle
  have trim_le : r = 2 ∨ r = 3 → 0 ≤ trimOf (s.mem.readBytes (decInput s) r) := by intros; omega
  rcases (show r = 1 ∨ r = 2 ∨ r = 3 ∨ r = 4 by omega) with h | h | h | h
  · rw [case1 h]; simp only [List.length_nil]; omega
  · by_cases hz : padCountOf L last prev = 0
    · omega
    · rw [case23 (.inl h) hz]; simp only [List.length_nil]; omega
  · by_cases hz : padCountOf L last prev = 0
    · omega
    · rw [case23 (.inr h) hz]; simp only [List.length_nil]; omega
  · have := case4 h
    omega

/-- A full block fits in what is left of the output (20_memory.md R67). -/
theorem full_block_has_room {s : State} (hr : EncodeRuns s) (h3 : 3 ≤ encRem s) :
    s.e.eoutlen.toNat + 4 ≤ (encodeCall s s.e.enp).output.len := by
  obtain ⟨_, _, hb, hc, ho⟩ := hr
  unfold encRem at h3
  simp only [encodeCall, encodedSizeFor, encodedSizeNopad, encodedSize]
  rw [ho]
  split
  · split
    · omega
    · split <;> omega
  · omega

/-- The leftover characters fit in what is left of the output (20_memory.md R67). -/
theorem leftover_has_room {s : State} (hr : EncodeRuns s) (h0 : 0 < encRem s) (h3 : encRem s < 3) :
    s.e.eoutlen.toNat + (nextLeftover s).length ≤ (encodeCall s s.e.enp).output.len := by
  have hl : (nextLeftover s).length = if s.e.enp then encRem s + 1 else 4 := by
    unfold nextLeftover
    rw [leftoverBlock_length _ _ (by simp; omega)]; simp
  obtain ⟨_, _, hb, hc, ho⟩ := hr
  unfold encRem at *
  simp only [encodeCall, encodedSizeFor, encodedSizeNopad, encodedSize]
  rw [ho, hl]
  split
  · split
    · omega
    · split <;> omega
  · omega

/-- The newest call is one of the calls. -/
theorem mem_of_head_call {l : List Call} {c : Call} (h : l.head? = some c) :
    c ∈ l := List.mem_of_mem_head? (by simp [h])

/-- The buffers of an accepted call are sound. -/
theorem sound_of_callBreach {s : State} {c : Call} {o : Option Call} (h : callBreach s c o = none) :
    c.Sound s.aw s.unowned := by
  obtain ⟨a,b,c,d,e,f⟩ := callBreach_eq_none.1 h
  exact ⟨a,b,e,c,d⟩

/-- The buffers of a running `DECODE` are sound. -/
theorem running_decode_sound {s : State} (hi : Inv s) (hb : s.d.dphase = .busy) :
    (decodeCall s).Sound s.aw s.unowned :=
  hi.calls _ (List.mem_append_left _ (mem_of_head_call (hi.decoding hb).call))

/-- The buffers of a running `ENCODE` are sound. -/
theorem running_encode_sound {s : State} (hi : Inv s) (hb : s.e.ephase = .busy) :
    (encodeCall s s.e.enp).Sound s.aw s.unowned :=
  hi.calls _ (List.mem_append_right _ (mem_of_head_call (hi.encoding hb).call))

/-- The text of a running `DECODE` lies in memory. -/
theorem decode_input_in_memory {s : State} (hi : Inv s) (hb : s.d.dphase = .busy) :
    s.d.dsrc.val.toNat + s.d.dlen.val.toNat ≤ 2^s.aw.bits :=
  inMemory_iff.1 (running_decode_sound hi hb).inputInMemory

/-- The output of a running `DECODE` lies in memory. -/
theorem decode_output_in_memory {s : State} (hi : Inv s) (hb : s.d.dphase = .busy) :
    s.d.ddst.val.toNat + (decodeCall s).output.len ≤ 2^s.aw.bits :=
  inMemory_iff.1 (running_decode_sound hi hb).outputInMemory

/-- The data of a running `ENCODE` lie in memory. -/
theorem encode_input_in_memory {s : State} (hi : Inv s) (hb : s.e.ephase = .busy) :
    s.e.esrc.val.toNat + s.e.elen.val.toNat ≤ 2^s.aw.bits :=
  inMemory_iff.1 (running_encode_sound hi hb).inputInMemory

/-- The output of a running `ENCODE` lies in memory. -/
theorem encode_output_in_memory {s : State} (hi : Inv s) (hb : s.e.ephase = .busy) :
    s.e.edst.val.toNat + (encodeCall s s.e.enp).output.len ≤ 2^s.aw.bits :=
  inMemory_iff.1 (running_encode_sound hi hb).outputInMemory

/-- The output cursor of DEC does not wrap. -/
theorem decode_output_fits {s : State} (hi : Inv s) : (decodeCall s).output.len < 2 ^ s.aw.bits :=
  Nat.lt_of_le_of_lt (decodedSizeOf_le _ _ _) hi.dfits.dlen

/-- The output cursor of ENC does not wrap. -/
theorem encode_output_fits {s : State} (hi : Inv s) (hb : s.e.ephase = .busy) :
    (encodeCall s s.e.enp).output.len < 2 ^ s.aw.bits := by
  have hs := running_encode_sound hi hb
  have hd := hs.disjoint
  have h1 := encode_output_in_memory hi hb
  have h2 := encode_input_in_memory hi hb
  rw [disjoint_iff] at hd
  have h3 : s.e.elen.val.toNat = 0 → (encodeCall s s.e.enp).output.len = 0 := by
    intro h; simp [encodeCall, encodedSizeFor, encodedSizeNopad, encodedSize, h]
  have hpos : 0 < 2 ^ s.aw.bits := Nat.two_pow_pos _
  simp only [encodeCall] at *
  omega

/-- A block that fits in a range inside memory is inside memory. -/
theorem rangeOk_within {s : State} {a o n len : Nat} (h1 : o + n ≤ len) (h2 : a + len ≤ 2 ^ s.aw.bits) :
    RangeOk s (a + o) n := by
  unfold RangeOk; omega

/-- Compatibility of two calls is symmetric. -/
theorem compatible_comm (c k : Call) : c.compatible k = k.compatible c := by
  unfold Call.compatible
  rw [disjoint_comm k.output c.input, disjoint_comm k.output c.output, disjoint_comm c.output k.input]
  cases k.input.disjoint c.output <;> cases c.output.disjoint k.output <;> cases c.input.disjoint k.output <;> rfl

/-- Writes inside one range leave the bytes of a disjoint range. -/
theorem read_writeBytes_apart {m : Memory} {a : Nat} {bs : List Byte} {r q : Region}
    (hd : r.disjoint q = true)
   (hb : r.base ≤ a) (hl : a + bs.length ≤ r.base + r.len) {x : Nat} (h1 : q.base ≤ x) (h2 : x < q.base + q.len) :
   (m.writeBytes a bs).read x = m.read x := by
  rw [disjoint_iff] at hd
  by_cases h0 : bs.length = 0
  · have : bs = [] := List.eq_nil_of_length_eq_zero h0
    subst this; rfl
  · exact read_writeBytes_other _ _ _ (by omega)

/-- A `DECODE` runs on while its bank, its calls and its text stay. -/
theorem decodeRuns_congr {s t : State} (hd : t.d = s.d) (hc : t.dcalls = s.dcalls)
    (hcall : decodeCall t = decodeCall s) (hr : DecodeRuns s) : DecodeRuns t := by
  obtain ⟨a,b,c,d,e,f,g,h⟩ := hr
  exact ⟨by rw [hd]; exact a, by rw [hc, hcall]; exact b, by rw [hd]; exact c, by rw [hd]; exact d,
    by rw [hd]; exact e, by rw [hd]; exact f, by rw [hd]; exact g, by rw [hcall, hd]; exact h⟩

/-- An `ENCODE` runs on while its bank and its calls stay. -/
theorem encodeRuns_congr {s t : State} (hd : t.e = s.e) (hc : t.ecalls = s.ecalls) (hr : EncodeRuns s) :
    EncodeRuns t := by
  obtain ⟨a,b,c,d,e⟩ := hr
  have hcall : encodeCall t s.e.enp = encodeCall s s.e.enp := by unfold encodeCall; rw [hd]
  exact ⟨by rw [hd]; exact a, by rw [hc, hd, hcall]; exact b, by rw [hd]; exact c, by rw [hd]; exact d,
    by rw [hd]; exact e⟩

/-- The list of pending events is outside the invariant. -/
theorem inv_pending {s : State} (hi : Inv s) (evs : List Event) : Inv { s with pending := evs } := by
  obtain ⟨a, b, c, d, e, f, g, h⟩ := hi
  exact ⟨a, b, c, d, fun hb => ⟨(e hb).written, (e hb).call, (e hb).block, (e hb).cursor, (e hb).unfinished,
    (e hb).output, (e hb).good, (e hb).room⟩,
    fun hb => ⟨(f hb).written, (f hb).call, (f hb).block, (f hb).cursor, (f hb).output⟩, g, h⟩

/-- The counter of free values is outside the invariant. -/
theorem inv_free {s : State} (hi : Inv s) (k : Nat) : Inv { s with free := k } := by
  obtain ⟨a, b, c, d, e, f, g, h⟩ := hi
  exact ⟨a, b, c, d, fun hb => ⟨(e hb).written, (e hb).call, (e hb).block, (e hb).cursor, (e hb).unfinished,
    (e hb).output, (e hb).good, (e hb).room⟩,
    fun hb => ⟨(f hb).written, (f hb).call, (f hb).block, (f hb).cursor, (f hb).output⟩, g, h⟩

end Sys2Proof.Machine
end

