-- ==== Sys2Proof/Tests/Slice0.lean ====
section
/-! SUPPORT. Tests of the model, their expected results from spec/95_test_vectors.md, and a witness for the
hypotheses of every statement that has some. -/

namespace Sys2Proof.Tests

open Sys2Proof Sys2Proof.Machine

/-! ## Small states -/

/-- The state an outcome goes on with. -/
def after : Host.Outcome State Fault Refusal → Option State
  | .next s => some s
  | .fault _ => none
  | .refused _ => none

/-- The refusal an outcome stops with. -/
def refusal : Host.Outcome State Fault Refusal → Option Refusal
  | .next _ => none
  | .fault _ => none
  | .refused r => some r

theorem next_of_after {o : Host.Outcome State Fault Refusal} (h : (after o).isSome = true) :
    ∃ t, o = .next t := by
  cases o with
  | next t => exact ⟨t, rfl⟩
  | fault f => cases h
  | refused r => cases h

/-- The command a byte decodes to. -/
def commandOf (b : Byte) : Option Instr := (decodeCommand b).toOption

/-- `"Zm9vYmE="`, the text of `"fooba"` (95_test_vectors.md section 2.2). -/
def text : List Byte := [0x5A, 0x6D, 0x39, 0x76, 0x59, 0x6D, 0x45, 0x3D]

/-- `"fooba"` (95_test_vectors.md section 2.4). -/
def data : List Byte := [0x66, 0x6F, 0x6F, 0x62, 0x61]

/-- Every operand register written: `t` at 0x100 to be decoded to 0x200, `d` at 0x300 to be encoded to 0x400,
`"Zm9v"` in `DDIN`, `"foo"` with a stray top byte in `EDIN`. -/
def ready (t d : List Byte) : State :=
  { State.reset with
    mem := (Memory.writeBytes [] 0x100 t).writeBytes 0x300 d
    d := { DBank.reset with
      dsrc := .put 0x100, dlen := .put (BitVec.ofNat 64 t.length), ddst := .put 0x200
      ddin := .put 0x76396D5A }
    e := { EBank.reset with
      esrc := .put 0x300, elen := .put (BitVec.ofNat 64 d.length), edst := .put 0x400
      edin := .put 0xAB6F6F66 } }

/-- A `DECODE` of `t` accepted. -/
def decoding (t d : List Byte) : State := acceptDecode (ready t d) (decodeCall (ready t d))

/-- An `ENCODE` of `d` accepted, with padding. -/
def encoding (t d : List Byte) : State := acceptEncode (ready t d) false false (encodeCall (ready t d) false)

/-- Both accepted. -/
def both (t d : List Byte) : State := acceptEncode (decoding t d) false false (encodeCall (decoding t d) false)

/-- A state with events pending. -/
def withEvents (s : State) (evs : List Event) : State := { s with pending := evs }

/-- The D bank of a state with the input cursor moved. -/
def atCursor (s : State) (didx doutlen : Addr) : State :=
  { s with d := { s.d with didx := didx, doutlen := doutlen } }

/-- The E bank of a state with the input cursor moved. -/
def atDataCursor (s : State) (eidx eoutlen : Addr) : State :=
  { s with e := { s.e with eidx := eidx, eoutlen := eoutlen } }

/-! ## Ill-formed command bytes (30_encoding.md R78) -/

theorem test_rsv_not_zero_is_ill_formed :
    (CommandFields.mk 1 false false false 1).legal = false ∧
    (CommandFields.mk 1 false false false 1).rsvZero = false := by decide

theorem test_reserved_function_is_ill_formed :
    (CommandFields.mk 0 false false true 0).legal = false ∧
    (CommandFields.mk 0 false false true 3).fnUsed = false := by decide

theorem test_mode_bit_in_decode_is_ill_formed :
    (CommandFields.mk 0 false true false 1).legal = false ∧
    (CommandFields.mk 0 true false false 2).decodeModeClear = false := by decide

theorem test_np_in_enc3_is_ill_formed :
    (CommandFields.mk 0 true false true 2).legal = false ∧
    (CommandFields.mk 0 true false true 2).enc3PadClear = false := by decide

/-! ## Command bytes written out bit by bit (30_encoding.md R71; 95_test_vectors.md section 2.7) -/

theorem test_decode_byte : commandOf 0b00000001 = some .decode := by decide

theorem test_dec4_byte : commandOf 0b00000010 = some .dec4 := by decide

theorem test_encode_bytes :
    commandOf 0b00000101 = some (.encode false false) ∧ commandOf 0b00001101 = some (.encode true false) ∧
    commandOf 0b00010101 = some (.encode false true) ∧ commandOf 0b00011101 = some (.encode true true) := by
  decide

theorem test_enc3_bytes :
    commandOf 0b00000110 = some (.enc3 false) ∧ commandOf 0b00001110 = some (.enc3 true) := by decide

theorem test_reserved_bytes :
    [(0x00 : Byte), 0x03, 0x04, 0x07, 0x09, 0x0A, 0x11, 0x16, 0x1E, 0x21, 0x85, 0xFF].map commandOf =
      List.replicate 12 none := by decide

/-- The order of the bits of the opcode table, and that bits above `nbits` are dropped. -/
theorem test_table_word :
    decodeTableWord 8 0x1D = some (.encode true true) ∧ decodeTableWord 8 0x16 = none ∧
    decodeTableWord 8 0x102 = some .dec4 := by decide

/-! ## Tables and sizes (95_test_vectors.md sections 2.1, 2.5) -/

theorem test_table_entries :
    dt0 0x5A = 0x00000064 ∧ dt1 0x6D = 0x00006002 ∧ dt2 0x39 = 0x00400F00 ∧ dt3 0x76 = 0x002F0000 ∧
    dt1 0x2D = 0x0000E003 ∧ dt2 0x5F = 0x00C00F00 ∧ dt0 0x3D = 0x01000000 ∧ dt3 0x40 = 0x01000000 ∧
    dt0 0x5B = 0x01000000 ∧ dt2 0x60 = 0x01000000 ∧ dt1 0x7B = 0x01000000 ∧ dt0 0x3A = 0x01000000 := by
  decide

theorem test_sizes :
    decodedSize text = 5 ∧ decodedSize [0x3D, 0x3D, 0x3D] = 0 ∧ decodedSize [0x41, 0x3D, 0x41, 0x3D] = 2 ∧
    encodedSize 7 = 12 ∧ encodedSizeNopad 7 = 10 ∧ decodedSizeNopad 100 = 75 ∧
    hostEncodedSize ⟨8, by decide, by decide⟩ 63 = some 84 ∧
    hostEncodedSize ⟨8, by decide, by decide⟩ 64 = none ∧
    hostDecodedSizeNopad ⟨8, by decide, by decide⟩ 85 = some 63 ∧
    hostDecodedSizeNopad ⟨8, by decide, by decide⟩ 86 = none := by decide

/-! ## One step of each instruction -/

/-- `"Zm9v"` to `"foo"` (95_test_vectors.md section 2.1). -/
theorem test_dec4_valid :
    (after (exec .dec4 (ready [] []))).map (fun t => (t.d.ddout.val, t.d.inv, t.d.dphase)) =
      some (0x006F6F66, false, .done) := by decide

/-- `"Zg=="`: no pad is stripped, the valid data fields stay (95_test_vectors.md section 2.1). -/
theorem test_dec4_invalid :
    (after (exec .dec4 { ready [] [] with d := { (ready [] []).d with ddin := .put 0x3D3D675A } })).map
      (fun t => (t.d.ddout.val, t.d.inv)) = some (0x01000066, true) := by decide

/-- Bits 31:24 of `EDIN` are ignored (95_test_vectors.md section 2.3). -/
theorem test_enc3_ignores_the_top_byte :
    (after (exec (.enc3 false) (ready [] []))).map (fun t => (t.e.edout.val, t.e.ephase)) =
      some (0x76396D5A, .done) := by decide

/-- FB EF BE in the URL-safe alphabet (95_test_vectors.md section 2.3). -/
theorem test_enc3_url :
    (after (exec (.enc3 true) { ready [] [] with e := { (ready [] []).e with edin := .put 0x00BEEFFB } })).map
      (fun t => t.e.edout.val) = some 0x2D2D2D2D := by decide

/-- Step 2 of the trace of `"Zm9vYmE="` (95_test_vectors.md section 2.2). -/
theorem test_decode_final_step :
    (after (decStep (atCursor (decoding text []) 4 3))).map
      (fun t => (t.mem.readBytes 0x203 3, t.d.didx, t.d.doutlen, t.d.inv, t.d.dphase)) =
      some ([0x62, 0x61, 0x00], 8, 5, false, .done) := by decide

/-- Output 0x104 on the input 0x100 to 0x107 is refused (95_test_vectors.md section 2.7). -/
theorem test_decode_overlap_is_refused :
    refusal (exec .decode { ready text [] with d := { (ready text []).d with ddst := .put 0x104 } }) =
      some .buffersOverlap := by decide

/-- Step 1 of the trace of `"fooba"` (95_test_vectors.md section 2.4). -/
theorem test_encode_full_step :
    (after (encStep (encoding [] data))).map
      (fun t => (t.mem.readBytes 0x400 5, t.e.eidx, t.e.eoutlen, t.e.ephase)) =
      some ([0x5A, 0x6D, 0x39, 0x76, 0x00], 3, 4, .busy) := by decide

/-- Step 2 of the trace of `"fooba"` (95_test_vectors.md section 2.4). -/
theorem test_encode_final_step :
    (after (encStep (atDataCursor (encoding [] data) 3 4))).map
      (fun t => (t.mem.readBytes 0x404 4, t.e.eidx, t.e.eoutlen, t.e.ephase)) =
      some ([0x59, 0x6D, 0x45, 0x3D], 5, 8, .done) := by decide

/-! ## Witnesses: a state and operands that meet the hypotheses of each statement -/

/-- The buffers of the calls of `both` are sound. -/
theorem sound_of_both (t d : List Byte)
    (hd : (decodeCall (ready t d)).Sound .recommended []) (he : (encodeCall (ready t d) false).Sound .recommended [])
    {c : Call} (hc : c ∈ openCalls (both t d)) : c.Sound .recommended [] := by
  have h : c = decodeCall (ready t d) ∨ c = encodeCall (ready t d) false := by
    simpa [openCalls, both, decoding, ready, encodeCall, decodeCall, State.reset] using hc
  rcases h with rfl | rfl
  · exact hd
  · exact he

/-- Both engines BUSY, two blocks to go in each. -/
theorem witness_inv_both : Inv (both text data) where
  memory := by decide
  dfits := ⟨by decide, by decide, by decide, by decide, by decide⟩
  efits := ⟨by decide, by decide, by decide, by decide, by decide⟩
  calls := fun _ hc => sound_of_both text data
    ⟨by decide, by decide, by decide, by decide, by decide⟩
    ⟨by decide, by decide, by decide, by decide, by decide⟩ hc
  decoding := fun _ => ⟨by decide, by decide, by decide, by decide, by decide, by decide, by decide, by decide⟩
  encoding := fun _ => ⟨by decide, by decide, by decide, by decide, by decide⟩
  together := fun _ _ => by decide
  resultAtDone := fun _ => by decide

/-- Both engines BUSY, nothing to read in either: the last step of each is next. -/
theorem witness_inv_both_empty : Inv (both [] []) where
  memory := by decide
  dfits := ⟨by decide, by decide, by decide, by decide, by decide⟩
  efits := ⟨by decide, by decide, by decide, by decide, by decide⟩
  calls := fun _ hc => sound_of_both [] []
    ⟨by decide, by decide, by decide, by decide, by decide⟩
    ⟨by decide, by decide, by decide, by decide, by decide⟩ hc
  decoding := fun _ => ⟨by decide, by decide, by decide, by decide, by decide, by decide, by decide, by decide⟩
  encoding := fun _ => ⟨by decide, by decide, by decide, by decide, by decide⟩
  together := fun _ _ => by decide
  resultAtDone := fun _ => by decide

/-- CommandDecodesFromItsByte. -/
theorem witness_well_formed :
    Instr.WellFormed .decode ∧ Instr.WellFormed .dec4 ∧ Instr.WellFormed (.encode true true) ∧
    Instr.WellFormed (.enc3 true) := by decide

/-- ReservedBytesAreRefused: every reserved case. -/
theorem witness_reserved_byte :
    (withEvents .reset [.regWrite 0 (.byte 0x16)]).pending = .regWrite 0 (.byte 0x16) :: [] ∧
    (decodeCommand 0x16).toOption = none ∧ (decodeCommand 0xFF).toOption = none ∧
    (decodeCommand 0x04).toOption = none ∧ (decodeCommand 0x09).toOption = none ∧
    decodeCommand 0x16 = .error .npInEnc3 := ⟨rfl, rfl, rfl, rfl, rfl, rfl⟩

/-- StepRunsTheIssuedCommand. -/
theorem witness_issued_command :
    (withEvents .reset [.regWrite 0 (.byte 0x1D)]).pending = .regWrite 0 (.byte 0x1D) :: [] ∧
    decodeCommand 0x1D = .ok (.encode true true) ∧ Instr.WellFormed (.encode true true) := ⟨rfl, rfl, rfl⟩

/-- TurnsRunTheEngines: the turns of the two engines, one engine BUSY, the other, both, none. -/
theorem witness_turns :
    (withEvents .reset [.decTurn]).pending = .decTurn :: [] ∧
    (withEvents .reset [.encTurn]).pending = .encTurn :: [] ∧
    ((decoding text []).pending = [] ∧ (decoding text []).d.dphase = .busy ∧ (decoding text []).e.ephase ≠ .busy) ∧
    ((encoding [] data).pending = [] ∧ (encoding [] data).d.dphase ≠ .busy ∧ (encoding [] data).e.ephase = .busy) ∧
    ((both text data).pending = [] ∧ (both text data).d.dphase = .busy ∧ (both text data).e.ephase = .busy) ∧
    (State.reset.pending = [] ∧ State.reset.d.dphase ≠ .busy ∧ State.reset.e.ephase ≠ .busy) := by decide

/-- PlacedCommandRunsNext. -/
theorem witness_placed_command : decodeTableWord 8 0x0E = some (.enc3 true) := by decide

/-- OtherBytesHoldTheBadMarker, and the second case of CombineFollowsTheBitLayout, at each position. -/
theorem witness_not_in_the_alphabet :
    sym 0x40 = none ∧ sym 0x5B = none ∧ sym 0x2C = none ∧ sym 0x20 = none ∧ sym 0xFF = none := by decide

/-- CombineFollowsTheBitLayout, its first case: `"Zm9v"` and the two ends of the alphabet. -/
theorem witness_in_the_alphabet :
    sym 0x5A = some 25 ∧ sym 0x6D = some 38 ∧ sym 0x39 = some 61 ∧ sym 0x76 = some 47 ∧
    sym 0x41 = some 0 ∧ sym 0x5F = some 63 := by decide

/-- Dec4DecodesOneBlock, Enc3EncodesOneBlock, Dec4UndoesEnc3. -/
theorem witness_one_block :
    (ready [] []).d.dphase ≠ .busy ∧ (ready [] []).d.ddin.written = true ∧ (ready [] []).e.ephase ≠ .busy ∧
    (ready [] []).e.edin.written = true := by decide

/-- Buffers in memory, the output above the input, all storage the host's, no other call. -/
theorem buffersAcceptable_of_order {s : State} {i o : Region} (hu : s.unowned = [])
    (hio : i.base + i.len ≤ o.base) (ho : o.base + o.len ≤ 2 ^ s.aw.bits) : BuffersAcceptable s i o none := by
  refine ⟨by omega, ho, ?_, ?_, ?_, fun k hk => nomatch hk⟩
  · intro x _ u h
    rw [hu] at h; cases h
  · intro x _ u h
    rw [hu] at h; cases h
  · rintro x ⟨h, h'⟩
    simp only [Region.holds, Bool.and_eq_true, decide_eq_true_eq] at h h'
    omega

/-- A host about to decode, nothing done before. -/
def aboutToDecode : State := withEvents (ready text data) [.regWrite 0 (.byte 0x01)]

/-- Another one, with what an earlier failed call left, other data, and another output address. -/
def aboutToDecodeAgain : State :=
  { withEvents (ready text [0xFF]) [.regWrite 0 (.byte 0x01)] with
    d := { (ready text [0xFF]).d with
      ddst := .put 0x500, dphase := .done, inv := true, dbad := true, didx := 5, doutlen := 9 } }

/-- A host about to encode without padding, nothing done before. -/
def aboutToEncode : State := withEvents (ready text data) [.regWrite 0 (.byte 0x15)]

/-- Another one, with what an earlier call left, another text, and another output address. -/
def aboutToEncodeAgain : State :=
  { withEvents (ready [0x41] data) [.regWrite 0 (.byte 0x15)] with
    e := { (ready [0x41] data).e with
      edst := .put 0x500, ephase := .done, eidx := 3, eoutlen := 9, eurl := true, enp := true } }

/-- DecodeIsAcceptedUnderItsPreconditions, its first case; DecodeCallComputesDecodeFn. -/
theorem witness_decode_acceptable : DecodeAcceptable aboutToDecode :=
  ⟨by decide, by decide, by decide, by decide, buffersAcceptable_of_order rfl (by decide) (by decide)⟩

/-- The ends of a buffer that reaches the top of memory and of one that passes it (95_test_vectors.md
section 2.7, AW = 16). -/
theorem witness_top_of_memory :
    inMemory ⟨16, by decide, by decide⟩ ⟨0xFFFC, 4⟩ = true ∧
    inMemory ⟨16, by decide, by decide⟩ ⟨0xFFFC, 5⟩ = false := by decide

/-- DecodeIsAcceptedUnderItsPreconditions, its second case: nothing is written after reset. -/
theorem witness_decode_not_acceptable : ¬ DecodeAcceptable .reset := fun h => absurd h.2.1 (by decide)

/-- InteriorStepOfDec, with the block `"Zm9v"`. -/
theorem witness_interior_step :
    (decoding text []).d.dphase = .busy ∧
    4 < (decoding text []).d.dlen.val.toNat - (decoding text []).d.didx.toNat ∧
    (0x100 = (decoding text []).d.dsrc.val.toNat + (decoding text []).d.didx.toNat ∧
      0x200 = (decoding text []).d.ddst.val.toNat + (decoding text []).d.doutlen.toNat) ∧
    (decoding text []).mem.readBytes 0x100 4 = [0x5A, 0x6D, 0x39, 0x76] ∧
    0x200 + 3 ≤ 2 ^ (decoding text []).aw.bits := by decide

/-- FinalStepOfDec with `r` = 0, 1, 2 with a pad, 2 without, 4, its last block at the end of the text. -/
theorem witness_final_step :
    (both [] []).d.dphase = .busy ∧
    (decoding [] []).d.dlen.val.toNat - (decoding [] []).d.didx.toNat = 0 ∧
    (decoding [0x41] []).d.dlen.val.toNat - (decoding [0x41] []).d.didx.toNat = 1 ∧
    ((decoding [0x41, 0x3D] []).d.dlen.val.toNat - (decoding [0x41, 0x3D] []).d.didx.toNat = 2 ∧
      (decoding [0x41, 0x3D] []).mem.read 0x101 = 0x3D) ∧
    ((decoding [0x5A, 0x67] []).d.dlen.val.toNat - (decoding [0x5A, 0x67] []).d.didx.toNat = 2 ∧
      (decoding [0x5A, 0x67] []).mem.read 0x101 ≠ 0x3D) ∧
    ((atCursor (decoding text []) 4 3).d.dphase = .busy ∧
      (atCursor (decoding text []) 4 3).d.dlen.val.toNat - (atCursor (decoding text []) 4 3).d.didx.toNat = 4 ∧
      0x104 + 4 ≤ 2 ^ (atCursor (decoding text []) 4 3).aw.bits) := by decide

/-- DecodeCallComputesDecodeFn, with witness_decode_acceptable. -/
theorem witness_decode_call :
    aboutToDecode.pending = [.regWrite 0 (.byte 0x01)] ∧
    aboutToDecode.e.ephase ≠ .busy ∧
    decodeFn (decodeText aboutToDecode) =
      ⟨false, false, [0x66, 0x6F, 0x6F, 0x62, 0x61]⟩ := by decide

/-- DecodeWritesAtMostTheDecodedSize, UnpaddedSizeIsAnUpperBound: a text that decodes, without a pad. -/
theorem witness_valid_unpadded_text :
    (decodeFn [0x5A, 0x6D, 0x39, 0x76, 0x59, 0x67]).inv = false ∧
    padChar ∉ [(0x5A : Byte), 0x6D, 0x39, 0x76, 0x59, 0x67] := by decide

/-- EdgeCasesOfDecode: lengths 1, 2 and 3. -/
theorem witness_edge_cases :
    [(0x41 : Byte)].length % 4 = 1 ∧
    ((∀ c ∈ [(0x5A : Byte), 0x67], sym c ≠ none) ∧ [(0x5A : Byte), 0x67].length % 4 = 2) ∧
    ((∀ c ∈ [(0x5A : Byte), 0x6D, 0x38], sym c ≠ none) ∧ [(0x5A : Byte), 0x6D, 0x38].length % 4 = 3) := by decide

/-- UnusedLowBitsAreNotTested: `Zh==` beside `Zg==`, `Zm9=` beside `Zm8=`. -/
theorem witness_unused_low_bits :
    sym 0x67 = some 32 ∧ sym 0x68 = some 33 ∧ (32 : Sym) >>> 4 = 33 >>> 4 ∧
    sym 0x38 = some 60 ∧ sym 0x39 = some 61 ∧ (60 : Sym) >>> 2 = 61 >>> 2 := by decide

/-- FailedDecodeWritesTheBlocksBeforeTheFailure: `"AAAA===="`, and `"AAAAA"` with its impossible remainder. -/
theorem witness_failed_decode :
    (decodeFn [0x41, 0x41, 0x41, 0x41, 0x3D, 0x3D, 0x3D, 0x3D]) = ⟨true, true, [0, 0, 0]⟩ ∧
    (decodeFn [0x41, 0x41, 0x41, 0x41, 0x41]) = ⟨false, true, [0, 0, 0]⟩ := by decide

/-- EncodeIsAcceptedUnderItsPreconditions, its first case; EncodeCallComputesEncodeFn. -/
theorem witness_encode_acceptable : EncodeAcceptable aboutToEncode true :=
  ⟨by decide, by decide, by decide, by decide, buffersAcceptable_of_order rfl (by decide) (by decide)⟩

/-- EncodeIsAcceptedUnderItsPreconditions, its second case. -/
theorem witness_encode_not_acceptable : ¬ EncodeAcceptable .reset false := fun h => absurd h.2.1 (by decide)

/-- FullBlockStepOfEnc. -/
theorem witness_full_block_step :
    (encoding [] data).e.ephase = .busy ∧
    3 ≤ (encoding [] data).e.elen.val.toNat - (encoding [] data).e.eidx.toNat ∧
    (0x300 = (encoding [] data).e.esrc.val.toNat + (encoding [] data).e.eidx.toNat ∧
      0x400 = (encoding [] data).e.edst.val.toNat + (encoding [] data).e.eoutlen.toNat) ∧
    0x300 + 3 ≤ 2 ^ (encoding [] data).aw.bits ∧ 0x400 + 4 ≤ 2 ^ (encoding [] data).aw.bits := by decide

/-- FinalStepOfEnc with nothing, one byte and two bytes left. -/
theorem witness_leftover_step :
    (encoding [] []).e.ephase = .busy ∧
    (encoding [] []).e.elen.val.toNat - (encoding [] []).e.eidx.toNat = 0 ∧
    (encoding [] [0xFF]).e.elen.val.toNat - (encoding [] [0xFF]).e.eidx.toNat = 1 ∧
    (atDataCursor (encoding [] data) 3 4).e.elen.val.toNat - (atDataCursor (encoding [] data) 3 4).e.eidx.toNat = 2 ∧
    0x404 + 4 ≤ 2 ^ (encoding [] data).aw.bits := by decide

/-- EncodeCallComputesEncodeFn, with witness_encode_acceptable. -/
theorem witness_encode_call :
    aboutToEncode.pending = [.regWrite 0 (.byte 0x15)] ∧
    commandOf 0x15 = some (.encode false true) ∧
    aboutToEncode.d.dphase ≠ .busy ∧
    encodeFn false true (encodeData aboutToEncode) =
      [0x5A, 0x6D, 0x39, 0x76, 0x59, 0x6D, 0x45] := by decide

/-- EncodedLengthIsTheEncodedSize: a whole number of blocks, and a leftover. -/
theorem witness_encoded_length : [(0x66 : Byte), 0x6F, 0x6F].length % 3 = 0 ∧ data.length % 3 ≠ 0 := by decide

/-- PiecesCutAtBlocksCodeSeparately. -/
theorem witness_pieces :
    [(0x66 : Byte), 0x6F, 0x6F].length % 3 = 0 ∧
    ([(0x5A : Byte), 0x6D, 0x39, 0x76].length % 4 = 0 ∧ padChar ∉ [(0x5A : Byte), 0x6D, 0x39, 0x76] ∧
      (decodeFn [0x5A, 0x6D, 0x39, 0x76]).inv = false) := by decide

/-- SizesHaveTheirDomain, at its edge. -/
theorem witness_size_domain :
    63 ≤ maxAddr ⟨8, by decide, by decide⟩ / 4 ∧ ¬ 64 ≤ maxAddr ⟨8, by decide, by decide⟩ / 4 ∧
    85 ≤ maxAddr ⟨8, by decide, by decide⟩ / 3 ∧ ¬ 86 ≤ maxAddr ⟨8, by decide, by decide⟩ / 3 := by decide

/-- RegReadReturnsTheRegister, for every register number it speaks of; RegisterShows of an operand register
that is written and of one that is not. -/
theorem witness_reg_read (n : Nat) :
    (withEvents .reset [.regRead n]).pending = .regRead n :: [] ∧ (ready text data).d.dsrc.written = true ∧
    State.reset.d.dsrc.written = false := ⟨rfl, rfl, rfl⟩

/-- RegWriteSetsOneRegister: every register, at the largest value AW = 32 bits hold and at the first one
they do not. -/
theorem witness_reg_write (n : Nat) (v : RegVal) :
    (withEvents .reset [.regWrite n v]).pending = .regWrite n v :: [] ∧
    (0xFFFFFFFF : Addr).toNat < 2 ^ State.reset.aw.bits ∧ 2 ^ State.reset.aw.bits ≤ (0x100000000 : Addr).toNat ∧
    State.reset.d.dphase ≠ .busy ∧ State.reset.e.ephase ≠ .busy := ⟨rfl, by decide, by decide, by decide, by decide⟩

/-- RegWriteSetsOneRegister, its width clauses: an address of AW + 1 bits, a word and a byte for an AW-bit
register, a byte and an address for a 32-bit one, a word and an address for `CMD`. -/
theorem witness_other_width :
    (∀ a : Addr, RegVal.addr 0x100000000 = .addr a → 2 ^ State.reset.aw.bits ≤ a.toNat) ∧
    (∀ a : Addr, RegVal.word 7 = .addr a → 2 ^ State.reset.aw.bits ≤ a.toNat) ∧
    (∀ a : Addr, RegVal.byte 7 = .addr a → 2 ^ State.reset.aw.bits ≤ a.toNat) ∧
    (∀ w : Word, RegVal.byte 7 ≠ .word w ∧ RegVal.addr 7 ≠ .word w) ∧
    (∀ b : Byte, RegVal.word 7 ≠ .byte b ∧ RegVal.addr 7 ≠ .byte b) := by
  refine ⟨?_, ?_, ?_, by simp, by simp⟩
  · rintro a ⟨⟩
    decide
  · rintro a ⟨⟩
  · rintro a ⟨⟩

/-- ReservedRegisterNumbersAreRefused, at the edges of the reserved numbers. -/
theorem witness_reserved_register :
    ((8 : Nat) = 8 ∨ 15 < 8) ∧ ((16 : Nat) = 8 ∨ 15 < 16) ∧
    (withEvents .reset [.regRead 16]).pending = .regRead 16 :: [] ∧
    (withEvents .reset [.regWrite 8 (.word 0)]).pending = .regWrite 8 (.word 0) :: [] := by decide

/-- OperandsOfABusyBankAreNotWritten, CommandsToABusyBankAreRefused: each bank BUSY beside an idle one. -/
theorem witness_busy_bank :
    ((decoding text []).d.dphase = .busy ∧ (decoding text []).e.ephase ≠ .busy) ∧
    ((encoding [] data).e.ephase = .busy ∧ (encoding [] data).d.dphase ≠ .busy) ∧
    (withEvents (decoding text []) [.regWrite 3 (.addr 4)]).pending = .regWrite 3 (.addr 4) :: [] ∧
    (4 : Addr).toNat < 2 ^ (decoding text []).aw.bits := by decide

/-- UnwrittenOperandsAreRefused, for every host-written register. -/
theorem witness_unwritten (n : Nat) :
    (withEvents .reset [.regRead n]).pending = .regRead n :: [] ∧
    State.reset.d.dphase ≠ .busy ∧ State.reset.e.ephase ≠ .busy ∧
    State.reset.d.dsrc.written = false ∧ State.reset.d.dlen.written = false ∧
    State.reset.d.ddst.written = false ∧ State.reset.d.ddin.written = false ∧
    State.reset.e.esrc.written = false ∧ State.reset.e.elen.written = false ∧
    State.reset.e.edst.written = false ∧ State.reset.e.edin.written = false := ⟨rfl, by decide⟩

/-- HostKeepsOffTheBuffersOfACall: the first and the last byte of the output, and the bytes beside it. -/
theorem witness_held_bytes :
    ((decoding text []).dcalls.any fun c => c.output.holds 0x200) = true ∧
    ((decoding text []).dcalls.any fun c => c.output.holds 0x204) = true ∧
    ((decoding text []).dcalls.any fun c => c.input.holds 0x107) = true ∧
    ((openCalls (decoding text [])).all fun c => !c.input.holds 0x205 && !c.output.holds 0x205) = true ∧
    ((openCalls (decoding text [])).all fun c => !c.input.holds 0x108 && !c.output.holds 0x1FF) = true ∧
    (withEvents (decoding text []) [.memWrite 0x205 7]).pending = .memWrite 0x205 7 :: [] ∧
    (withEvents (decoding text []) [.memRead 0x204]).pending = .memRead 0x204 :: [] ∧
    (withEvents (decoding text []) [.regRead 1]).pending = .regRead 1 :: [] := by decide

/-- NothingCarriesOverToTheNextCall, ResultsDependOnTheInputAlone: two machines about to decode. -/
theorem witness_two_decodes :
    DecodeAcceptable aboutToDecode ∧ DecodeAcceptable aboutToDecodeAgain ∧
    (aboutToDecode.pending = .regWrite 0 (.byte 0x01) :: [] ∧
      aboutToDecodeAgain.pending = [.regWrite 0 (.byte 0x01)] ∧
      aboutToDecode.e.ephase ≠ .busy ∧ aboutToDecodeAgain.e.ephase ≠ .busy ∧
      aboutToDecode.mem.wf aboutToDecode.aw = true ∧ aboutToDecodeAgain.mem.wf aboutToDecodeAgain.aw = true ∧
      decodeText aboutToDecode = decodeText aboutToDecodeAgain ∧ aboutToDecode ≠ aboutToDecodeAgain) :=
  ⟨witness_decode_acceptable,
    ⟨by decide, by decide, by decide, by decide, buffersAcceptable_of_order rfl (by decide) (by decide)⟩, by decide⟩

/-- NothingCarriesOverToTheNextCall, ResultsDependOnTheInputAlone: two machines about to encode. -/
theorem witness_two_encodes :
    EncodeAcceptable aboutToEncode true ∧ EncodeAcceptable aboutToEncodeAgain true ∧
    (aboutToEncode.pending = .regWrite 0 (.byte 0x15) :: [] ∧
      aboutToEncodeAgain.pending = [.regWrite 0 (.byte 0x15)] ∧ commandOf 0x15 = some (.encode false true) ∧
      aboutToEncode.d.dphase ≠ .busy ∧ aboutToEncodeAgain.d.dphase ≠ .busy ∧
      aboutToEncode.mem.wf aboutToEncode.aw = true ∧ aboutToEncodeAgain.mem.wf aboutToEncodeAgain.aw = true ∧
      encodeData aboutToEncode = encodeData aboutToEncodeAgain ∧ aboutToEncode ≠ aboutToEncodeAgain) :=
  ⟨witness_encode_acceptable,
    ⟨by decide, by decide, by decide, by decide, buffersAcceptable_of_order rfl (by decide) (by decide)⟩, by decide⟩

/-- OneBlockSequencesReturnTheirResult, CallSequencesIssueTheirCommand: from reset. -/
theorem witness_sequences :
    (withEvents .reset (dec4Sequence 0x76396D5A)).pending = dec4Sequence 0x76396D5A ++ [] ∧
    (withEvents .reset (enc3Sequence true 0x006F6F66)).pending = enc3Sequence true 0x006F6F66 ++ [] ∧
    (withEvents .reset (decodeSequence 0 8 0x20)).pending = decodeSequence 0 8 0x20 ++ [] ∧
    (withEvents .reset (encodeSequence true true 0 8 0x20)).pending = encodeSequence true true 0 8 0x20 ++ [] ∧
    State.reset.d.dphase ≠ .busy ∧ State.reset.e.ephase ≠ .busy ∧ (0x20 : Addr).toNat < 2 ^ State.reset.aw.bits := by
  decide

/-- The command bytes of the notation (30_encoding.md R80). -/
theorem test_issue : issue (.encode true true) = .regWrite 0 (.byte 0x1D) ∧ issue .dec4 = .regWrite 0 (.byte 0x02) := by
  decide

/-- ResetEventResetsTheEngine, during a call. -/
theorem witness_reset_event : (withEvents (both text data) [.reset]).pending = .reset :: [] := by decide

/-- CommandsLeaveTheOtherBankAndMemory, CommandsLeaveTheRestOfTheirBank, EncodeHasNoError: each command
completes. -/
theorem witness_commands_complete :
    (∃ t, exec .decode (ready text data) = .next t) ∧ (∃ t, exec .dec4 (ready text data) = .next t) ∧
    (∃ t, exec (.encode true false) (ready text data) = .next t) ∧
    (∃ t, exec (.enc3 true) (ready text data) = .next t) :=
  ⟨next_of_after (by decide), next_of_after (by decide), next_of_after (by decide), next_of_after (by decide)⟩

/-- EngineTurnsLeaveEverythingElse, BusyEnginesAlwaysProgress, EngineStepsCommute, EncodeHasNoError. -/
theorem witness_engine_turns :
    (∃ t, decStep (both text data) = .next t) ∧ (∃ t, encStep (both text data) = .next t) ∧
    (both text data).d.dphase = .busy ∧ (both text data).e.ephase = .busy :=
  ⟨next_of_after (by decide), next_of_after (by decide), by decide, by decide⟩

/-- EveryStepKeepsTheInvariant, StatusBytesThatCanBeRead. -/
theorem witness_step_with_invariant :
    Inv (withEvents (both text data) [.encTurn]) ∧
    ∃ t, step (withEvents (both text data) [.encTurn]) = .next t :=
  ⟨inv_pending witness_inv_both _, next_of_after (by decide)⟩

/-- MemoryChangesOnlyInOutputRanges: a byte beside the outputs, at a turn of DEC. -/
theorem witness_unchanged_byte :
    Inv (withEvents (both text data) [.decTurn]) ∧
    (∃ t, step (withEvents (both text data) [.decTurn]) = .next t) ∧
    ((openCalls (both text data)).all fun c => !c.output.holds 0x205) = true ∧
    ∀ b evs, (withEvents (both text data) [.decTurn]).pending ≠ .memWrite 0x205 b :: evs := by
  refine ⟨inv_pending witness_inv_both _, next_of_after (by decide), by decide, ?_⟩
  intro b evs h
  simp [withEvents] at h

/-- OnlyFinalStepOrResetEndsACall: a call of each engine that its last step ends, and one that RESET ends. -/
theorem witness_call_ends :
    (after (step (withEvents (both [] []) [.decTurn]))).map (fun t => t.d.dphase) = some .done ∧
    (after (step (withEvents (both [] []) [.encTurn]))).map (fun t => t.e.ephase) = some .done ∧
    (after (step (withEvents (both text data) [.reset]))).map (fun t => (t.d.dphase, t.e.ephase)) =
      some (.idle, .idle) := by decide

/-- OnlyDec4AndFinalStepRaiseInvalidEncoding: raised by `DEC4`, and by the step that finds one character. -/
theorem witness_invalid_raised :
    (after (step (withEvents { ready [] [] with d := { (ready [] []).d with ddin := .put 0 } }
      [.regWrite 0 (.byte 0x02)]))).map (fun t => t.d.inv) = some true ∧
    (after (step (withEvents (decoding [0x41] []) [.decTurn]))).map (fun t => t.d.inv) = some true := by decide

end Sys2Proof.Tests
end

section
/-! PROOFS. The frame of a command: the other bank, memory and the rest of the system
(00_scope.md R12, 30_encoding.md R75). Each part is read off `exec_cases`. -/

namespace Sys2Proof.Machine

/-- A decode command works in the D bank alone. -/
theorem exec_decode_keeps_eBank {i : Instr} {s t : State} (h : exec i s = .next t)
    (hi : i = .decode ∨ i = .dec4) : t.e = s.e ∧ t.ecalls = s.ecalls := by
  obtain ⟨-, -, -, -, rfl⟩ | ⟨-, -, -, rfl⟩ | ⟨_, _, rfl, -⟩ | ⟨_, _, rfl, -⟩ := exec_cases h
  · exact ⟨acceptDecode_e .., acceptDecode_ecalls ..⟩
  · exact ⟨finishDec4_e .., finishDec4_ecalls ..⟩
  · simp at hi
  · simp at hi

/-- An encode command works in the E bank alone. -/
theorem exec_encode_keeps_dBank {i : Instr} {s t : State} (h : exec i s = .next t)
    (hi : ∃ url np, i = .encode url np ∨ i = .enc3 url) : t.d = s.d ∧ t.dcalls = s.dcalls := by
  obtain ⟨rfl, -⟩ | ⟨rfl, -⟩ | ⟨_, _, -, -, -, -, rfl⟩ | ⟨_, _, -, -, -, rfl⟩ := exec_cases h
  · simp at hi
  · simp at hi
  · exact ⟨acceptEncode_d .., acceptEncode_dcalls ..⟩
  · exact ⟨finishEnc3_d .., finishEnc3_dcalls ..⟩

/-- No command stores at its issue: an accepted call leaves memory to the turns of its engine, and the
block commands have register operands only. -/
theorem exec_keeps_mem {i : Instr} {s t : State} (h : exec i s = .next t) : t.mem = s.mem := by
  obtain ⟨-, -, -, -, rfl⟩ | ⟨-, -, -, rfl⟩ | ⟨_, _, -, -, -, -, rfl⟩ | ⟨_, _, -, -, -, rfl⟩ := exec_cases h
  · exact acceptDecode_mem ..
  · exact finishDec4_mem ..
  · exact acceptEncode_mem ..
  · exact finishEnc3_mem ..

/-- What surrounds the two banks and memory is the same after every command. -/
theorem exec_keeps_system {i : Instr} {s t : State} (h : exec i s = .next t) :
    t.aw = s.aw ∧ t.unowned = s.unowned ∧ t.pending = s.pending ∧ t.lastRead = s.lastRead := by
  obtain ⟨-, -, -, -, rfl⟩ | ⟨-, -, -, rfl⟩ | ⟨_, _, -, -, -, -, rfl⟩ | ⟨_, _, -, -, -, rfl⟩ := exec_cases h
  · simp
  · simp
  · simp
  · simp

/-- Settles O46: each command touches only the bank of its engine, and none of them stores. -/
theorem commandsLeaveTheOtherBankAndMemory : Obligations.CommandsLeaveTheOtherBankAndMemory := by
  intro i s t h
  exact ⟨exec_decode_keeps_eBank h, exec_encode_keeps_dBank h, fun a => by rw [exec_keeps_mem h],
    exec_keeps_system h⟩

end Sys2Proof.Machine
end

section
/-! PROOFS. A running call between two of its steps: what a turn of its engine, or a write beside its text,
leaves of what the invariant says about it (10_state.md R28, R31, R34; 20_memory.md R56, R66, R67). -/

namespace Sys2Proof.Machine

/-- The output of an `ENCODE` with sound buffers is shorter than memory: the bytes it encodes lie beside it. -/
theorem encode_output_lt_of_sound {s : State} {np : Bool} {u : List Region}
    (hs : (encodeCall s np).Sound s.aw u) : (encodeCall s np).output.len < 2 ^ s.aw.bits := by
  have hin := inMemory_iff.1 hs.inputInMemory
  have hout := inMemory_iff.1 hs.outputInMemory
  have hd := disjoint_iff.1 hs.disjoint
  have h0 : s.e.elen.val.toNat = 0 → (encodeCall s np).output.len = 0 := by
    intro h; simp [encodeCall, encodedSizeFor, encodedSizeNopad, encodedSize, h]
  have hpos : 0 < 2 ^ s.aw.bits := Nat.two_pow_pos _
  simp only [encodeCall] at *
  omega

/-- DEC's own writes leave its text. -/
theorem decWrites_keeps_text {s : State} {u : List Region} {bs : List Byte}
    (hs : (decodeCall s).Sound s.aw u) (hroom : s.d.doutlen.toNat + bs.length ≤ (decodeCall s).output.len)
    {x : Nat} (h1 : s.d.dsrc.val.toNat ≤ x) (h2 : x < s.d.dsrc.val.toNat + s.d.dlen.val.toNat) :
    (decWrites s bs).read x = s.mem.read x := by
  refine read_writeBytes_apart (disjoint_comm _ _ ▸ hs.disjoint) (Nat.le_add_right _ _) ?_ h1 h2
  change decOutput s + bs.length ≤ s.d.ddst.val.toNat + (decodeCall s).output.len
  unfold decOutput
  omega

/-- Writes inside the output of a running `ENCODE` leave every range apart from that output. -/
theorem encWrites_keeps_apart {s : State} {cs : List Byte} {q : Region}
    (hd : (encodeCall s s.e.enp).output.disjoint q = true)
    (hroom : s.e.eoutlen.toNat + cs.length ≤ (encodeCall s s.e.enp).output.len)
    {x : Nat} (h1 : q.base ≤ x) (h2 : x < q.base + q.len) : (encWrites s cs).read x = s.mem.read x := by
  refine read_writeBytes_apart hd (Nat.le_add_right _ _) ?_ h1 h2
  change encOutput s + cs.length ≤ s.e.edst.val.toNat + (encodeCall s s.e.enp).output.len
  unfold encOutput
  omega

/-- DEC's own writes leave its buffers, since they leave its text. -/
theorem decWrites_keeps_decodeCall {s : State} {u : List Region} {bs : List Byte}
    (hs : (decodeCall s).Sound s.aw u) (hroom : s.d.doutlen.toNat + bs.length ≤ (decodeCall s).output.len) :
    decodeCall { s with mem := decWrites s bs } = decodeCall s :=
  decodeCall_congr rfl rfl rfl fun _ h1 h2 => decWrites_keeps_text hs hroom h1 h2

/-- ENC's writes leave the buffers of a `DECODE` in flight beside it (20_memory.md R66). -/
theorem encWrites_keeps_decodeCall {s : State} {cs : List Byte}
    (hc : (decodeCall s).compatible (encodeCall s s.e.enp) = true)
    (hroom : s.e.eoutlen.toNat + cs.length ≤ (encodeCall s s.e.enp).output.len) :
    decodeCall { s with mem := encWrites s cs } = decodeCall s := by
  have hd : (encodeCall s s.e.enp).output.disjoint (decodeCall s).input = true := by
    simp only [Call.compatible, Bool.and_eq_true] at hc
    exact hc.2
  exact decodeCall_congr rfl rfl rfl fun _ h1 h2 => encWrites_keeps_apart hd hroom h1 h2

/-- The output cursor of DEC after a block that fits counts exactly. -/
theorem decode_output_advance {s : State} {n : Nat}
    (hroom : s.d.doutlen.toNat + n ≤ (decodeCall s).output.len) :
    (advance s.d.doutlen n).toNat = s.d.doutlen.toNat + n :=
  advance_toNat _ _ (Nat.lt_of_le_of_lt (hroom.trans (decodedSizeOf_le _ _ _)) s.d.dlen.val.isLt)

/-- The input cursor of DEC after an interior block stands inside the text. -/
theorem decode_input_advance {s : State} (h4 : 4 < decRem s) :
    (advance s.d.didx 4).toNat = s.d.didx.toNat + 4 := by
  have := s.d.dlen.val.isLt
  unfold decRem at h4
  exact advance_toNat _ _ (by omega)

/-- The state DEC reaches by the interior block it has before it. -/
def afterInterior (s : State) : State :=
  decAdvance s (decWrites s (nextInterior s).out) (nextInterior s).dbad (nextInterior s).out.length

/-- The state ENC reaches by the full block it has before it. -/
def afterFull (s : State) : State := encAdvance s (encWrites s (nextFull s))

/-- An interior step keeps the buffers of its call. -/
theorem afterInterior_decodeCall {s : State} {u : List Region} (hr : DecodeRuns s)
    (hs : (decodeCall s).Sound s.aw u) (h4 : 4 < decRem s) : decodeCall (afterInterior s) = decodeCall s :=
  decWrites_keeps_decodeCall hs (interior_block_has_room hr h4).1

/-- While the bad-bit is clear an interior block yields its three bytes, and the bad-bit was clear before. -/
theorem nextInterior_good {s : State} (h : (nextInterior s).dbad = false) :
    s.d.dbad = false ∧ (nextInterior s).out.length = 3 := by
  refine ⟨?_, by rw [nextInterior, interiorBlock_length, ← nextInterior, h]; rfl⟩
  simp only [nextInterior, interiorBlock, gatedBlock_dbad, Bool.or_eq_false_iff] at h
  exact h.1

/-- The call runs on after an interior step. -/
theorem afterInterior_runs {s : State} {u : List Region} (hr : DecodeRuns s)
    (hs : (decodeCall s).Sound s.aw u) (h4 : 4 < decRem s) : DecodeRuns (afterInterior s) := by
  have hcall := afterInterior_decodeCall hr hs h4
  obtain ⟨hroom, hle⟩ := interior_block_has_room hr h4
  have hin : (afterInterior s).d.didx.toNat = _ := decode_input_advance h4
  have hout : (afterInterior s).d.doutlen.toNat = _ := decode_output_advance hroom
  have hgood := @nextInterior_good s
  obtain ⟨hw, hc, hblock, hcursor, hunf, houtput, hg, -⟩ := hr
  unfold decRem at h4
  have hlen : (afterInterior s).d.dlen.val.toNat = s.d.dlen.val.toNat := rfl
  refine ⟨hw, hcall ▸ hc, ?_, ?_, ?_, ?_, fun hb => ?_, hcall ▸ hout ▸ hroom⟩
  · omega
  · omega
  · omega
  · omega
  · obtain ⟨hb', h3⟩ := hgood hb
    have := hg hb'
    omega

/-- The output cursor of ENC after characters that fit counts exactly. -/
theorem encode_output_advance {s : State} {u : List Region} {n : Nat}
    (hs : (encodeCall s s.e.enp).Sound s.aw u)
    (hroom : s.e.eoutlen.toNat + n ≤ (encodeCall s s.e.enp).output.len) :
    (advance s.e.eoutlen n).toNat = s.e.eoutlen.toNat + n :=
  advance_toNat _ _ (Nat.lt_of_le_of_lt hroom
    (Nat.lt_of_lt_of_le (encode_output_lt_of_sound hs) (pow_le s.aw)))

/-- The input cursor of ENC after a full block stands inside the data or at their end. -/
theorem encode_input_advance {s : State} (h3 : 3 ≤ encRem s) :
    (advance s.e.eidx 3).toNat = s.e.eidx.toNat + 3 := by
  have := s.e.elen.val.isLt
  unfold encRem at h3
  exact advance_toNat _ _ (by omega)

/-- The call runs on after a full-block step. -/
theorem afterFull_runs {s : State} {u : List Region} (hr : EncodeRuns s)
    (hs : (encodeCall s s.e.enp).Sound s.aw u) (h3 : 3 ≤ encRem s) : EncodeRuns (afterFull s) := by
  have hin : (afterFull s).e.eidx.toNat = _ := encode_input_advance h3
  have hout : (afterFull s).e.eoutlen.toNat = _ := encode_output_advance hs (full_block_has_room hr h3)
  obtain ⟨hw, hc, hblock, hcursor, houtput⟩ := hr
  unfold encRem at h3
  have hlen : (afterFull s).e.elen.val.toNat = s.e.elen.val.toNat := rfl
  refine ⟨hw, hc, ?_, ?_, ?_⟩
  · omega
  · omega
  · omega

/-- A `DECODE` that has just been accepted runs, at the start of its text. -/
theorem acceptDecode_runs {s : State} (hw : s.d.dsrc.written ∧ s.d.dlen.written ∧ s.d.ddst.written) :
    DecodeRuns (acceptDecode s (decodeCall s)) :=
  ⟨hw, rfl, rfl, Nat.zero_le _, Nat.pos_of_ne_zero, Nat.zero_le _, fun _ => by simp, Nat.zero_le _⟩

/-- An `ENCODE` that has just been accepted runs, at the start of its data. -/
theorem acceptEncode_runs {s : State} {url np : Bool}
    (hw : s.e.esrc.written ∧ s.e.elen.written ∧ s.e.edst.written) :
    EncodeRuns (acceptEncode s url np (encodeCall s np)) :=
  ⟨hw, rfl, rfl, Nat.zero_le _, by simp⟩

end Sys2Proof.Machine
end

section
/-! PROOFS. The invariant holds at reset and every step keeps it. A transition changes one bank (and its calls)
at a time, so there is one lemma per bank that says what such a change owes the invariant; each transition
pays it, read off the `_cases` lemma of its operation. -/

namespace Sys2Proof.Machine

/-- A change of memory, the D bank and the `DECODE` calls owes the invariant nothing about ENC but that the two
calls stay compatible. -/
theorem inv_of_dBank {s : State} (hi : Inv s) {m : Memory} {d : DBank} {dc : List Call}
    (hm : m.wf s.aw = true) (hf : d.Fits s.aw) (hc : ∀ c ∈ dc, c.Sound s.aw s.unowned)
    (hrun : d.dphase = .busy → DecodeRuns { s with mem := m, d := d, dcalls := dc } ∧
      (s.e.ephase = .busy →
        (decodeCall { s with mem := m, d := d, dcalls := dc }).compatible (encodeCall s s.e.enp) = true))
    (hres : d.dphase ≠ .done → d.inv = false) : Inv { s with mem := m, d := d, dcalls := dc } where
  memory := hm
  dfits := hf
  efits := hi.efits
  calls c h := (List.mem_append.1 h).elim (hc c) fun he => hi.calls c (List.mem_append_right _ he)
  decoding hb := (hrun hb).1
  encoding hb := encodeRuns_congr (s := s) rfl rfl (hi.encoding hb)
  together hb := (hrun hb).2
  resultAtDone := hres

/-- A change of memory, the E bank and the `ENCODE` calls owes the invariant nothing about DEC but that its
buffers stay and that the two calls stay compatible. -/
theorem inv_of_eBank {s : State} (hi : Inv s) {m : Memory} {e : EBank} {ec : List Call}
    (hm : m.wf s.aw = true) (hkeep : s.d.dphase = .busy → decodeCall { s with mem := m } = decodeCall s)
    (hf : e.Fits s.aw) (hc : ∀ c ∈ ec, c.Sound s.aw s.unowned)
    (hrun : e.ephase = .busy → EncodeRuns { s with mem := m, e := e, ecalls := ec } ∧
      (s.d.dphase = .busy → (decodeCall s).compatible (encodeCall { s with e := e } e.enp) = true)) :
    Inv { s with mem := m, e := e, ecalls := ec } where
  memory := hm
  dfits := hi.dfits
  efits := hf
  calls c h := (List.mem_append.1 h).elim (fun hd => hi.calls c (List.mem_append_left _ hd)) (hc c)
  decoding hb := decodeRuns_congr (s := s) rfl rfl (hkeep hb) (hi.decoding hb)
  encoding hb := (hrun hb).1
  together hd he := by
    change (decodeCall { s with mem := m }).compatible _ = true
    rw [hkeep hd]
    exact (hrun he).2 hd
  resultAtDone := hi.resultAtDone

/-- The open `DECODE` calls have sound buffers. -/
theorem dcalls_sound {s : State} (hi : Inv s) : ∀ c ∈ s.dcalls, c.Sound s.aw s.unowned :=
  fun c h => hi.calls c (List.mem_append_left _ h)

/-- The open `ENCODE` calls have sound buffers. -/
theorem ecalls_sound {s : State} (hi : Inv s) : ∀ c ∈ s.ecalls, c.Sound s.aw s.unowned :=
  fun c h => hi.calls c (List.mem_append_right _ h)

/-- What the host last read is outside the invariant. -/
theorem inv_lastRead {s : State} (hi : Inv s) (v : Option RegVal) : Inv { s with lastRead := v } where
  memory := hi.memory
  dfits := hi.dfits
  efits := hi.efits
  calls := hi.calls
  decoding hb := decodeRuns_congr (s := s) rfl rfl rfl (hi.decoding hb)
  encoding hb := encodeRuns_congr (s := s) rfl rfl (hi.encoding hb)
  together := hi.together
  resultAtDone := hi.resultAtDone

/-! ## The commands -/

/-- A command keeps the invariant: an accepted call brings sound buffers, compatible with the other engine's
(10_state.md R28; 20_memory.md R66). -/
theorem exec_keeps_inv {i : Instr} {s t : State} (hi : Inv s) (h : exec i s = .next t) : Inv t := by
  have hpos : 0 < 2 ^ s.aw.bits := Nat.two_pow_pos _
  obtain ⟨-, hnb, hw, hb, rfl⟩ | ⟨-, hnb, -, rfl⟩ | ⟨url, np, -, hnb, hw, hb, rfl⟩ | ⟨_, _, -, hnb, -, rfl⟩ :=
    exec_cases h
  · refine inv_of_dBank hi hi.memory ⟨hi.dfits.dsrc, hi.dfits.dlen, hi.dfits.ddst, hpos, hpos⟩
      (List.forall_mem_cons.2 ⟨sound_of_callBreach hb, dcalls_sound hi⟩)
      (fun _ => ⟨acceptDecode_runs hw, fun he => ?_⟩) (fun _ => rfl)
    have hk : runningEncode s = some (encodeCall s s.e.enp) := by
      rw [runningEncode, if_pos he, (hi.encoding he).call]
    obtain ⟨-, -, -, -, -, hcomp⟩ := callBreach_eq_none.1 hb
    rw [hk] at hcomp
    exact hcomp
  · exact inv_of_dBank hi hi.memory
      ⟨hi.dfits.dsrc, hi.dfits.dlen, hi.dfits.ddst, hi.dfits.doutlen, hi.dfits.didx⟩
      (dcalls_sound hi) nofun (fun hd => absurd rfl hd)
  · refine inv_of_eBank hi hi.memory (fun _ => rfl)
      ⟨hi.efits.esrc, hi.efits.elen, hi.efits.edst, hpos, hpos⟩
      (List.forall_mem_cons.2 ⟨sound_of_callBreach hb, ecalls_sound hi⟩)
      (fun _ => ⟨acceptEncode_runs hw, fun hd => ?_⟩)
    have hk : runningDecode s = some (decodeCall s) := by
      rw [runningDecode, if_pos hd, (hi.decoding hd).call]
    obtain ⟨-, -, -, -, -, hcomp⟩ := callBreach_eq_none.1 hb
    rw [compatible_comm]
    rw [hk] at hcomp
    exact hcomp
  · exact inv_of_eBank hi hi.memory (fun _ => rfl)
      ⟨hi.efits.esrc, hi.efits.elen, hi.efits.edst, hi.efits.eoutlen, hi.efits.eidx⟩
      (ecalls_sound hi) nofun

/-! ## The engines -/

/-- DEC's writes inside memory keep its canonical form. -/
theorem decWrites_wf {s : State} {bs : List Byte} (hm : s.mem.wf s.aw = true)
    (hout : RangeOk s (decOutput s) bs.length) : (decWrites s bs).wf s.aw = true :=
  wf_writeBytes hm (hout.imp_left List.eq_nil_of_length_eq_zero)

/-- ENC's writes inside memory keep its canonical form. -/
theorem encWrites_wf {s : State} {cs : List Byte} (hm : s.mem.wf s.aw = true)
    (hout : RangeOk s (encOutput s) cs.length) : (encWrites s cs).wf s.aw = true :=
  wf_writeBytes hm (hout.imp_left List.eq_nil_of_length_eq_zero)

/-- The output cursor of DEC holds AW bits after a block that fits. -/
theorem decode_output_fits_after {s : State} (hi : Inv s) {n : Nat}
    (hroom : s.d.doutlen.toNat + n ≤ (decodeCall s).output.len) :
    (advance s.d.doutlen n).toNat < 2 ^ s.aw.bits :=
  decode_output_advance hroom ▸ Nat.lt_of_le_of_lt hroom (decode_output_fits hi)

/-- The output cursor of ENC holds AW bits after characters that fit. -/
theorem encode_output_fits_after {s : State} (hi : Inv s) (hb : s.e.ephase = .busy) {n : Nat}
    (hroom : s.e.eoutlen.toNat + n ≤ (encodeCall s s.e.enp).output.len) :
    (advance s.e.eoutlen n).toNat < 2 ^ s.aw.bits :=
  encode_output_advance (running_encode_sound hi hb) hroom ▸ Nat.lt_of_le_of_lt hroom (encode_output_fits hi hb)

/-- A turn of DEC keeps the invariant: it writes inside its own output, apart from its text. -/
theorem decStep_keeps_inv {s t : State} (hi : Inv s) (h : decStep s = .next t) : Inv t := by
  obtain ⟨-, rfl⟩ | ⟨hb, h4, -, hout, rfl⟩ | ⟨hb, -, rfl⟩ | ⟨hb, h0, h4, -, hout, rfl⟩ := decStep_cases h
  · exact hi
  · have hr := hi.decoding hb
    have hs := running_decode_sound hi hb
    have hidx : (advance s.d.didx 4).toNat < 2 ^ s.aw.bits := by
      have := hi.dfits.dlen
      have := decode_input_advance h4
      unfold decRem at h4
      omega
    refine inv_of_dBank hi (decWrites_wf hi.memory hout)
      ⟨hi.dfits.dsrc, hi.dfits.dlen, hi.dfits.ddst,
        decode_output_fits_after hi (interior_block_has_room hr h4).1, hidx⟩
      (dcalls_sound hi) (fun _ => ⟨afterInterior_runs hr hs h4, fun he => ?_⟩) hi.resultAtDone
    change (decodeCall (afterInterior s)).compatible _ = true
    rw [afterInterior_decodeCall hr hs h4]
    exact hi.together hb he
  · exact inv_of_dBank hi hi.memory
      ⟨hi.dfits.dsrc, hi.dfits.dlen, hi.dfits.ddst, hi.dfits.doutlen, hi.dfits.didx⟩
      (dcalls_sound hi) nofun (fun hd => absurd rfl hd)
  · exact inv_of_dBank hi (decWrites_wf hi.memory hout)
      ⟨hi.dfits.dsrc, hi.dfits.dlen, hi.dfits.ddst,
        decode_output_fits_after hi (final_block_has_room (hi.decoding hb) h0 h4), hi.dfits.dlen⟩
      (dcalls_sound hi) nofun (fun hd => absurd rfl hd)

/-- A turn of ENC keeps the invariant: it writes inside its own output, apart from the text of DEC. -/
theorem encStep_keeps_inv {s t : State} (hi : Inv s) (h : encStep s = .next t) : Inv t := by
  obtain ⟨-, rfl⟩ | ⟨hb, h3, -, hout, rfl⟩ | ⟨hb, -, rfl⟩ | ⟨hb, h0, h3, -, hout, rfl⟩ := encStep_cases h
  · exact hi
  · have hr := hi.encoding hb
    have hroom := full_block_has_room hr h3
    have hidx : (advance s.e.eidx 3).toNat < 2 ^ s.aw.bits := by
      have := hi.efits.elen
      have := encode_input_advance h3
      unfold encRem at h3
      omega
    exact inv_of_eBank hi (encWrites_wf hi.memory (.inr hout))
      (fun hd => encWrites_keeps_decodeCall (hi.together hd hb) hroom)
      ⟨hi.efits.esrc, hi.efits.elen, hi.efits.edst, encode_output_fits_after hi hb hroom, hidx⟩
      (ecalls_sound hi)
      (fun _ => ⟨afterFull_runs hr (running_encode_sound hi hb) h3, fun hd => hi.together hd hb⟩)
  · exact inv_of_eBank hi hi.memory (fun _ => rfl)
      ⟨hi.efits.esrc, hi.efits.elen, hi.efits.edst, hi.efits.eoutlen, hi.efits.eidx⟩
      (ecalls_sound hi) nofun
  · have hroom := leftover_has_room (hi.encoding hb) h0 h3
    exact inv_of_eBank hi (encWrites_wf hi.memory hout)
      (fun hd => encWrites_keeps_decodeCall (hi.together hd hb) hroom)
      ⟨hi.efits.esrc, hi.efits.elen, hi.efits.edst, encode_output_fits_after hi hb hroom, hi.efits.elen⟩
      (ecalls_sound hi) nofun

/-! ## The host -/

/-- The `DECODE` calls are given back only at DONE, when none of them runs (20_memory.md R59). -/
theorem inv_releaseDecode {s : State} (hi : Inv s) {dc : List Call}
    (h : dc = s.dcalls ∨ (s.d.dphase = .done ∧ dc = [])) : Inv { s with dcalls := dc } := by
  rcases h with rfl | ⟨hd, rfl⟩
  · exact hi
  · exact inv_of_dBank hi hi.memory hi.dfits nofun (by simp [hd]) hi.resultAtDone

/-- The `ENCODE` calls are given back only at DONE, when none of them runs (20_memory.md R59). -/
theorem inv_releaseEncode {s : State} (hi : Inv s) {ec : List Call}
    (h : ec = s.ecalls ∨ (s.e.ephase = .done ∧ ec = [])) : Inv { s with ecalls := ec } := by
  rcases h with rfl | ⟨hd, rfl⟩
  · exact hi
  · exact inv_of_eBank hi hi.memory (fun _ => rfl) hi.efits nofun (by simp [hd])

/-- A register read keeps the invariant. -/
theorem regRead_keeps_inv {n : Nat} {s t : State} (hi : Inv s) (h : regRead n s = .next t) : Inv t := by
  obtain ⟨v, k, dc, ec, rfl, -, hdc, hec⟩ := regRead_cases h
  exact inv_free (inv_lastRead (inv_releaseEncode (inv_releaseDecode hi hdc) hec) (some v)) k

/-- The operands of a D bank that is not BUSY may be set to any values of their width. -/
theorem inv_setDBank {s : State} (hi : Inv s) {d : DBank} (hf : d.Fits s.aw) (hp : d.dphase = s.d.dphase)
    (hv : d.inv = s.d.inv) (hnb : s.d.dphase ≠ .busy) : Inv { s with d := d } :=
  inv_of_dBank hi hi.memory hf (dcalls_sound hi) (fun hb => absurd (hp ▸ hb) hnb)
    (fun hd => hv ▸ hi.resultAtDone (hp ▸ hd))

/-- The operands of an E bank that is not BUSY may be set to any values of their width. -/
theorem inv_setEBank {s : State} (hi : Inv s) {e : EBank} (hf : e.Fits s.aw) (hp : e.ephase = s.e.ephase)
    (hnb : s.e.ephase ≠ .busy) : Inv { s with e := e } :=
  inv_of_eBank hi hi.memory (fun _ => rfl) hf (ecalls_sound hi) (fun hb => absurd (hp ▸ hb) hnb)

/-- A register write keeps the invariant: it runs a command, or sets an operand of a bank that is not BUSY to
a value of its width (10_state.md R22, R44). -/
theorem regWrite_keeps_inv {n : Nat} {v : RegVal} {s t : State} (hi : Inv s) (h : regWrite n v s = .next t) :
    Inv t := by
  obtain ⟨d1, d2, d3, d4, d5⟩ := hi.dfits
  obtain ⟨e1, e2, e3, e4, e5⟩ := hi.efits
  obtain ⟨-, _, _, -, -, hx⟩ | ⟨hnb, a, -, hf, hput⟩ | ⟨hnb, -, _, -, rfl⟩ | ⟨hnb, a, -, hf, hput⟩ |
    ⟨hnb, -, _, -, rfl⟩ := regWrite_cases h
  · exact exec_keeps_inv hi hx
  · have ha : a.toNat < 2 ^ s.aw.bits := by simpa [fits] using hf
    obtain ⟨-, rfl⟩ | ⟨-, rfl⟩ | ⟨-, rfl⟩ := hput
    · exact inv_setDBank hi ⟨ha, d2, d3, d4, d5⟩ rfl rfl hnb
    · exact inv_setDBank hi ⟨d1, ha, d3, d4, d5⟩ rfl rfl hnb
    · exact inv_setDBank hi ⟨d1, d2, ha, d4, d5⟩ rfl rfl hnb
  · exact inv_setDBank hi ⟨d1, d2, d3, d4, d5⟩ rfl rfl hnb
  · have ha : a.toNat < 2 ^ s.aw.bits := by simpa [fits] using hf
    obtain ⟨-, rfl⟩ | ⟨-, rfl⟩ | ⟨-, rfl⟩ := hput
    · exact inv_setEBank hi ⟨ha, e2, e3, e4, e5⟩ rfl hnb
    · exact inv_setEBank hi ⟨e1, ha, e3, e4, e5⟩ rfl hnb
    · exact inv_setEBank hi ⟨e1, e2, ha, e4, e5⟩ rfl hnb
  · exact inv_setEBank hi ⟨e1, e2, e3, e4, e5⟩ rfl hnb

/-- A host write of memory keeps the invariant: it is beside the text of a running `DECODE`
(20_memory.md R59). -/
theorem hostMemWrite_keeps_inv {a : Nat} {b : Byte} {s t : State} (hi : Inv s)
    (h : hostMemWrite a b s = .next t) : Inv t := by
  obtain ⟨ha, hfree, rfl⟩ := hostMemWrite_next h
  have hkeep (hd : s.d.dphase = .busy) : decodeCall { s with mem := s.mem.write a b } = decodeCall s := by
    have hc := hfree _ (List.mem_append_left _ (mem_of_head_call (hi.decoding hd).call))
    have hbeside := holds_false.1 hc.1
    refine decodeCall_congr rfl rfl rfl fun x h1 h2 => read_write_other _ _ ?_
    simp only [decodeCall] at hbeside
    omega
  exact inv_of_eBank hi (wf_write hi.memory b ha) hkeep hi.efits (ecalls_sound hi)
    fun hb => ⟨encodeRuns_congr (s := s) rfl rfl (hi.encoding hb), fun hd => hi.together hd hb⟩

/-- A change of the host's storage keeps the invariant: the calls' buffers stay owned. -/
theorem setUnowned_keeps_inv {rs : List Region} {s t : State} (hi : Inv s) (h : setUnowned rs s = .next t) :
    Inv t := by
  obtain ⟨hown, rfl⟩ := setUnowned_next h
  exact {
    memory := hi.memory
    dfits := hi.dfits
    efits := hi.efits
    calls := fun c hc =>
      ⟨(hi.calls c hc).inputInMemory, (hi.calls c hc).outputInMemory, (hi.calls c hc).disjoint,
        (hown c hc).1, (hown c hc).2⟩
    decoding := fun hb => decodeRuns_congr (s := s) rfl rfl rfl (hi.decoding hb)
    encoding := fun hb => encodeRuns_congr (s := s) rfl rfl (hi.encoding hb)
    together := hi.together
    resultAtDone := hi.resultAtDone }

/-- The reset values of the D bank hold AW bits. -/
theorem dBank_reset_fits (aw : AddrWidth) : DBank.reset.Fits aw := by
  have hpos : 0 < 2 ^ aw.bits := Nat.two_pow_pos _
  exact ⟨hpos, hpos, hpos, hpos, hpos⟩

/-- The reset values of the E bank hold AW bits. -/
theorem eBank_reset_fits (aw : AddrWidth) : EBank.reset.Fits aw := by
  have hpos : 0 < 2 ^ aw.bits := Nat.two_pow_pos _
  exact ⟨hpos, hpos, hpos, hpos, hpos⟩

/-- `RESET` keeps the invariant: no call runs after it. -/
theorem resetEngine_keeps_inv {s : State} (hi : Inv s) : Inv (resetEngine s) := by
  have hd : Inv { s with d := .reset, dcalls := [] } :=
    inv_of_dBank hi hi.memory (dBank_reset_fits _) nofun nofun (fun _ => rfl)
  exact inv_of_eBank hd hd.memory (fun _ => rfl) (eBank_reset_fits _) nofun nofun

/-! ## The step -/

/-- Every event keeps the invariant. -/
theorem perform_keeps_inv {ev : Event} {s t : State} (hi : Inv s) (h : perform ev s = .next t) : Inv t := by
  cases ev with
  | regRead n => exact regRead_keeps_inv hi h
  | regWrite n v => exact regWrite_keeps_inv hi h
  | memRead a => exact hostMemRead_next h ▸ inv_lastRead hi _
  | memWrite a b => exact hostMemWrite_keeps_inv hi h
  | setUnowned rs => exact setUnowned_keeps_inv hi h
  | decTurn => exact decStep_keeps_inv hi h
  | encTurn => exact encStep_keeps_inv hi h
  | reset => exact Host.Outcome.next.inj h ▸ resetEngine_keeps_inv hi

/-- A turn of DEC leaves AW. -/
theorem decStep_keeps_aw {s t : State} (h : decStep s = .next t) : t.aw = s.aw := by
  obtain ⟨-, rfl⟩ | ⟨-, -, -, -, rfl⟩ | ⟨-, -, rfl⟩ | ⟨-, -, -, -, -, rfl⟩ := decStep_cases h
  · rfl
  · exact decAdvance_aw ..
  · exact decFinishEmpty_aw ..
  · exact decFinish_aw ..

/-- A turn of ENC leaves AW. -/
theorem encStep_keeps_aw {s t : State} (h : encStep s = .next t) : t.aw = s.aw := by
  obtain ⟨-, rfl⟩ | ⟨-, -, -, -, rfl⟩ | ⟨-, -, rfl⟩ | ⟨-, -, -, -, -, rfl⟩ := encStep_cases h
  · rfl
  · exact encAdvance_aw ..
  · exact encFinishEmpty_aw ..
  · exact encFinish_aw ..

/-- A register write leaves AW. -/
theorem regWrite_keeps_aw {n : Nat} {v : RegVal} {s t : State} (h : regWrite n v s = .next t) :
    t.aw = s.aw := by
  obtain ⟨-, _, _, -, -, hx⟩ | ⟨-, _, -, -, ⟨-, rfl⟩ | ⟨-, rfl⟩ | ⟨-, rfl⟩⟩ | ⟨-, -, _, -, rfl⟩ |
    ⟨-, _, -, -, ⟨-, rfl⟩ | ⟨-, rfl⟩ | ⟨-, rfl⟩⟩ | ⟨-, -, _, -, rfl⟩ := regWrite_cases h
  · exact (exec_keeps_system hx).1
  all_goals rfl

/-- Every event leaves AW (00_scope.md R7). -/
theorem perform_keeps_aw {ev : Event} {s t : State} (h : perform ev s = .next t) : t.aw = s.aw := by
  cases ev with
  | regRead n => obtain ⟨_, _, _, _, rfl, -⟩ := regRead_cases h; rfl
  | regWrite n v => exact regWrite_keeps_aw h
  | memRead a => exact hostMemRead_next h ▸ returnValue_aw ..
  | memWrite a b => obtain ⟨-, -, rfl⟩ := hostMemWrite_next h; rfl
  | setUnowned rs => obtain ⟨-, rfl⟩ := setUnowned_next h; rfl
  | decTurn => exact decStep_keeps_aw h
  | encTurn => exact encStep_keeps_aw h
  | reset => exact Host.Outcome.next.inj h ▸ resetEngine_aw s

/-- Settles O53: a step performs an event or a turn, and each of them keeps the invariant and AW. -/
theorem everyStepKeepsTheInvariant : Obligations.EveryStepKeepsTheInvariant := by
  intro s t hi h
  obtain ⟨ev, evs, -, hp⟩ | ⟨-, k, hd | he⟩ := step_cases h
  · exact ⟨perform_keeps_inv (inv_pending hi evs) hp, (perform_keeps_aw hp :)⟩
  · exact ⟨decStep_keeps_inv (inv_free hi k) hd, (decStep_keeps_aw hd :)⟩
  · exact ⟨encStep_keeps_inv (inv_free hi k) he, (encStep_keeps_aw he :)⟩

/-- Settles O52: after reset memory is empty, every register holds 0 and no call is open. -/
theorem resetMeetsTheInvariant : Obligations.ResetMeetsTheInvariant where
  memory := rfl
  dfits := dBank_reset_fits _
  efits := eBank_reset_fits _
  calls := nofun
  decoding := nofun
  encoding := nofun
  together := nofun
  resultAtDone _ := rfl

end Sys2Proof.Machine
end

section
/-! PROOFS. The register port (10_state.md R40 to R45): what a read returns, what a write sets, and what is
refused. The AW-bit operand registers of a bank share one rule, and so do the 32-bit ones. -/

namespace Sys2Proof.Machine

/-- With an event pending, the step performs it. -/
theorem step_of_pending {s : State} {ev : Event} {evs : List Event} (h : s.pending = ev :: evs) :
    step s = perform ev { s with pending := evs } := by
  simp only [step, takeTurn, h]

/-- The reserved register numbers name no register (10_state.md R42). -/
theorem regOf_reserved {n : Nat} (h : n = 8 ∨ 15 < n) : regOf n = none := by
  unfold regOf
  split
  case h_16 => rfl
  all_goals omega

/-- Settles O38: neither a read nor a write finds a register there. -/
theorem reservedRegisterNumbersAreRefused : Obligations.ReservedRegisterNumbersAreRefused := by
  intro s n v evs hn
  have hr := regOf_reserved hn
  constructor
  · intro h
    simp only [step_of_pending h, perform, regRead, hr]
  · intro h
    simp only [step_of_pending h, perform, regWrite, hr]

/-! ## Reads -/

/-- A value of a free AW-bit register has AW bits. -/
theorem anyAddr_lt (s : State) : (anyAddr s).toNat < 2 ^ s.aw.bits := by
  rw [anyAddr, BitVec.toNat_ofNat]
  exact Nat.lt_of_le_of_lt (Nat.mod_le _ _) (Nat.mod_lt _ (Nat.two_pow_pos _))

/-- A read of an AW-bit register returns what it shows. -/
theorem readHeldAddr_shows (s : State) (r : Held Addr) :
    ∃ v, (readHeldAddr s r).lastRead = some v ∧ ShowsAddr s r v := by
  unfold readHeldAddr
  split
  · next hw => exact ⟨.addr r.val, rfl, fun _ => rfl, by simp [hw]⟩
  · next hw => exact ⟨.addr (anyAddr s), rfl, by simp [hw], fun _ => ⟨_, rfl, anyAddr_lt s⟩⟩

/-- A read of a 32-bit register returns what it shows. -/
theorem readHeldWord_shows (s : State) (r : Held Word) :
    ∃ v, (readHeldWord s r).lastRead = some v ∧ ShowsWord r v := by
  unfold readHeldWord
  split
  · next hw => exact ⟨.word r.val, rfl, fun _ => rfl, by simp [hw]⟩
  · next hw => exact ⟨.word (anyWord s), rfl, by simp [hw], fun _ => ⟨_, rfl⟩⟩

/-- Giving `DECODE` calls back leaves what the host last read. -/
@[simp] theorem releaseDecode_lastRead (s : State) : (releaseDecode s).lastRead = s.lastRead := by
  unfold releaseDecode; split <;> rfl

/-- Giving `ENCODE` calls back leaves what the host last read. -/
@[simp] theorem releaseEncode_lastRead (s : State) : (releaseEncode s).lastRead = s.lastRead := by
  unfold releaseEncode; split <;> rfl

/-- A read of a register that can be read completes and returns what the register shows. -/
theorem regRead_shows {n : Nat} (s : State) (hn : n ∈ [1, 2, 3, 4, 5, 6, 7, 9, 10, 11, 12, 13, 14, 15]) :
    ∃ t v, regRead n s = .next t ∧ t.lastRead = some v ∧ RegisterShows s n v := by
  have addr (r : Held Addr) (hr : regRead n s = .next (readHeldAddr s r))
      (hs : ∀ v, ShowsAddr s r v → RegisterShows s n v) :
      ∃ t v, regRead n s = .next t ∧ t.lastRead = some v ∧ RegisterShows s n v := by
    obtain ⟨v, hv, hshow⟩ := readHeldAddr_shows s r
    exact ⟨_, v, hr, hv, hs v hshow⟩
  have word (r : Held Word) (hr : regRead n s = .next (readHeldWord s r))
      (hs : ∀ v, ShowsWord r v → RegisterShows s n v) :
      ∃ t v, regRead n s = .next t ∧ t.lastRead = some v ∧ RegisterShows s n v := by
    obtain ⟨v, hv, hshow⟩ := readHeldWord_shows s r
    exact ⟨_, v, hr, hv, hs v hshow⟩
  simp only [List.mem_cons, List.not_mem_nil, or_false] at hn
  rcases hn with rfl | rfl | rfl | rfl | rfl | rfl | rfl | rfl | rfl | rfl | rfl | rfl | rfl | rfl
  · exact ⟨_, _, rfl, releaseDecode_lastRead _, by simp [RegisterShows]⟩
  · exact addr s.d.dsrc rfl (by simp [RegisterShows])
  · exact addr s.d.dlen rfl (by simp [RegisterShows])
  · exact addr s.d.ddst rfl (by simp [RegisterShows])
  · exact ⟨_, _, rfl, rfl, by simp [RegisterShows]⟩
  · exact word s.d.ddin rfl (by simp [RegisterShows])
  · exact word s.d.ddout rfl (by simp [RegisterShows])
  · exact ⟨_, _, rfl, releaseEncode_lastRead _, by simp [RegisterShows]⟩
  · exact addr s.e.esrc rfl (by simp [RegisterShows])
  · exact addr s.e.elen rfl (by simp [RegisterShows])
  · exact addr s.e.edst rfl (by simp [RegisterShows])
  · exact ⟨_, _, rfl, rfl, by simp [RegisterShows]⟩
  · exact word s.e.edin rfl (by simp [RegisterShows])
  · exact word s.e.edout rfl (by simp [RegisterShows])

/-- Settles O36: the value is the register's, and a read changes neither bank nor memory. -/
theorem regReadReturnsTheRegister : Obligations.RegReadReturnsTheRegister := by
  intro s n evs hp
  rw [step_of_pending hp]
  refine ⟨?_, ?_, fun hn => ?_⟩
  · rintro rfl
    rfl
  · rintro rfl
    rfl
  · obtain ⟨t, v, ht, hv, hshow⟩ := regRead_shows { s with pending := evs } hn
    obtain ⟨_, _, _, _, rfl, -⟩ := regRead_cases ht
    exact ⟨_, v, ht, hv, hshow, rfl, rfl, rfl, rfl, rfl⟩

/-! ## Writes -/

/-- A write of an operand of a BUSY bank is refused (10_state.md R44). -/
theorem writeAddr_busy (n : Nat) (v : RegVal) (s : State) (put : Held Addr → State) :
    writeAddr n true v s put = .refused (.registerOfBusyBank n) := rfl

/-- An AW-bit value is put in the register. -/
theorem writeAddr_addr (n : Nat) {a : Addr} {s : State} (ha : a.toNat < 2 ^ s.aw.bits)
    (put : Held Addr → State) : writeAddr n false (.addr a) s put = .next (put (.put a)) := by
  simp [writeAddr, fits, ha]

/-- Any other value is refused, for its width or because the bank is BUSY (10_state.md R22, R44). -/
theorem writeAddr_misfit (n : Nat) (busy : Bool) {v : RegVal} {s : State} (put : Held Addr → State)
    (hv : ∀ a : Addr, v = .addr a → 2 ^ s.aw.bits ≤ a.toNat) :
    writeAddr n busy v s put = .refused (.widthMismatch n) ∨
      writeAddr n busy v s put = .refused (.registerOfBusyBank n) := by
  cases busy with
  | true => exact .inr (writeAddr_busy n v s put)
  | false =>
    left
    cases v with
    | addr a =>
      have : ¬ a.toNat < 2 ^ s.aw.bits := Nat.not_lt.2 (hv a rfl)
      simp [writeAddr, fits, this]
    | byte _ => rfl
    | word _ => rfl

/-- A write of an operand of a BUSY bank is refused (10_state.md R44). -/
theorem writeWord_busy (n : Nat) (v : RegVal) (put : Held Word → State) :
    writeWord n true v put = .refused (.registerOfBusyBank n) := rfl

/-- A value that is not of 32 bits is refused, for its width or because the bank is BUSY
(10_state.md R22, R44). -/
theorem writeWord_misfit (n : Nat) (busy : Bool) {v : RegVal} (put : Held Word → State)
    (hv : ∀ w : Word, v ≠ .word w) :
    writeWord n busy v put = .refused (.widthMismatch n) ∨
      writeWord n busy v put = .refused (.registerOfBusyBank n) := by
  cases busy with
  | true => exact .inr (writeWord_busy n v put)
  | false =>
    left
    cases v with
    | word w => exact absurd rfl (hv w)
    | byte _ => rfl
    | addr _ => rfl

/-! The rule of each operand register (10_state.md R21, R41). -/

theorem regWrite_dsrc (v : RegVal) (s : State) : regWrite 2 v s =
    writeAddr 2 (s.d.dphase == .busy) v s fun r => { s with d := { s.d with dsrc := r } } := rfl
theorem regWrite_dlen (v : RegVal) (s : State) : regWrite 3 v s =
    writeAddr 3 (s.d.dphase == .busy) v s fun r => { s with d := { s.d with dlen := r } } := rfl
theorem regWrite_ddst (v : RegVal) (s : State) : regWrite 4 v s =
    writeAddr 4 (s.d.dphase == .busy) v s fun r => { s with d := { s.d with ddst := r } } := rfl
theorem regWrite_ddin (v : RegVal) (s : State) : regWrite 6 v s =
    writeWord 6 (s.d.dphase == .busy) v fun r => { s with d := { s.d with ddin := r } } := rfl
theorem regWrite_esrc (v : RegVal) (s : State) : regWrite 10 v s =
    writeAddr 10 (s.e.ephase == .busy) v s fun r => { s with e := { s.e with esrc := r } } := rfl
theorem regWrite_elen (v : RegVal) (s : State) : regWrite 11 v s =
    writeAddr 11 (s.e.ephase == .busy) v s fun r => { s with e := { s.e with elen := r } } := rfl
theorem regWrite_edst (v : RegVal) (s : State) : regWrite 12 v s =
    writeAddr 12 (s.e.ephase == .busy) v s fun r => { s with e := { s.e with edst := r } } := rfl
theorem regWrite_edin (v : RegVal) (s : State) : regWrite 14 v s =
    writeWord 14 (s.e.ephase == .busy) v fun r => { s with e := { s.e with edin := r } } := rfl

/-- The AW-bit operand registers of the D bank are written by one rule. -/
theorem regWrite_dBank_addr {n : Nat} (hn : n ∈ [2, 3, 4]) (v : RegVal) (s : State) :
    ∃ put, regWrite n v s = writeAddr n (s.d.dphase == .busy) v s put := by
  simp only [List.mem_cons, List.not_mem_nil, or_false] at hn
  rcases hn with rfl | rfl | rfl
  · exact ⟨_, regWrite_dsrc v s⟩
  · exact ⟨_, regWrite_dlen v s⟩
  · exact ⟨_, regWrite_ddst v s⟩

/-- The AW-bit operand registers of the E bank are written by one rule. -/
theorem regWrite_eBank_addr {n : Nat} (hn : n ∈ [10, 11, 12]) (v : RegVal) (s : State) :
    ∃ put, regWrite n v s = writeAddr n (s.e.ephase == .busy) v s put := by
  simp only [List.mem_cons, List.not_mem_nil, or_false] at hn
  rcases hn with rfl | rfl | rfl
  · exact ⟨_, regWrite_esrc v s⟩
  · exact ⟨_, regWrite_elen v s⟩
  · exact ⟨_, regWrite_edst v s⟩

/-- A phase other than BUSY, as the check of the register port sees it. -/
theorem busy_check {p : Phase} (h : p ≠ .busy) : (p == .busy) = false := beq_eq_false_iff_ne.2 h

/-- An AW-bit value is put in the register of a D bank that is not BUSY, and nothing else changes. -/
theorem regWrite_dBank_sets {s : State} {a : Addr} (ha : a.toNat < 2 ^ s.aw.bits) (hb : s.d.dphase ≠ .busy) :
    regWrite 2 (.addr a) s = .next { s with d := { s.d with dsrc := ⟨a, true⟩ } } ∧
    regWrite 3 (.addr a) s = .next { s with d := { s.d with dlen := ⟨a, true⟩ } } ∧
    regWrite 4 (.addr a) s = .next { s with d := { s.d with ddst := ⟨a, true⟩ } } := by
  refine ⟨?_, ?_, ?_⟩
  · rw [regWrite_dsrc, busy_check hb]
    exact writeAddr_addr _ ha _
  · rw [regWrite_dlen, busy_check hb]
    exact writeAddr_addr _ ha _
  · rw [regWrite_ddst, busy_check hb]
    exact writeAddr_addr _ ha _

/-- A 32-bit value is put in `DDIN` while its bank is not BUSY, and nothing else changes. -/
theorem regWrite_ddin_sets {s : State} (w : Word) (hb : s.d.dphase ≠ .busy) :
    regWrite 6 (.word w) s = .next { s with d := { s.d with ddin := ⟨w, true⟩ } } := by
  rw [regWrite_ddin, busy_check hb]
  rfl

/-- An AW-bit value is put in the register of a E bank that is not BUSY, and nothing else changes. -/
theorem regWrite_eBank_sets {s : State} {a : Addr} (ha : a.toNat < 2 ^ s.aw.bits) (hb : s.e.ephase ≠ .busy) :
    regWrite 10 (.addr a) s = .next { s with e := { s.e with esrc := ⟨a, true⟩ } } ∧
    regWrite 11 (.addr a) s = .next { s with e := { s.e with elen := ⟨a, true⟩ } } ∧
    regWrite 12 (.addr a) s = .next { s with e := { s.e with edst := ⟨a, true⟩ } } := by
  refine ⟨?_, ?_, ?_⟩
  · rw [regWrite_esrc, busy_check hb]
    exact writeAddr_addr _ ha _
  · rw [regWrite_elen, busy_check hb]
    exact writeAddr_addr _ ha _
  · rw [regWrite_edst, busy_check hb]
    exact writeAddr_addr _ ha _

/-- A 32-bit value is put in `EDIN` while its bank is not BUSY, and nothing else changes. -/
theorem regWrite_edin_sets {s : State} (w : Word) (hb : s.e.ephase ≠ .busy) :
    regWrite 14 (.word w) s = .next { s with e := { s.e with edin := ⟨w, true⟩ } } := by
  rw [regWrite_edin, busy_check hb]
  rfl

/-- The read-only registers (10_state.md R21, R41). -/
theorem regWrite_readOnly {n : Nat} (hn : n ∈ [1, 5, 7, 9, 13, 15]) (v : RegVal) (s : State) :
    regWrite n v s = .refused (.readOnlyRegister n) := by
  simp only [List.mem_cons, List.not_mem_nil, or_false] at hn
  rcases hn with rfl | rfl | rfl | rfl | rfl | rfl <;> rfl

/-- An AW-bit operand register refuses a value of another width, or its BUSY bank does. -/
theorem regWrite_addr_misfit {n : Nat} (hn : n ∈ [2, 3, 4, 10, 11, 12]) {v : RegVal} {s : State}
    (hv : ∀ a : Addr, v = .addr a → 2 ^ s.aw.bits ≤ a.toNat) :
    regWrite n v s = .refused (.widthMismatch n) ∨ regWrite n v s = .refused (.registerOfBusyBank n) := by
  have hbank : n ∈ [2, 3, 4] ∨ n ∈ [10, 11, 12] := List.mem_append.1 hn
  rcases hbank with hd | he
  · obtain ⟨put, h⟩ := regWrite_dBank_addr hd v s
    exact h ▸ writeAddr_misfit n _ put hv
  · obtain ⟨put, h⟩ := regWrite_eBank_addr he v s
    exact h ▸ writeAddr_misfit n _ put hv

/-- A 32-bit operand register refuses a value of another width, or its BUSY bank does. -/
theorem regWrite_word_misfit {n : Nat} (hn : n ∈ [6, 14]) {v : RegVal} (s : State)
    (hv : ∀ w : Word, v ≠ .word w) :
    regWrite n v s = .refused (.widthMismatch n) ∨ regWrite n v s = .refused (.registerOfBusyBank n) := by
  simp only [List.mem_cons, List.not_mem_nil, or_false] at hn
  rcases hn with rfl | rfl
  · rw [regWrite_ddin]
    exact writeWord_misfit 6 _ _ hv
  · rw [regWrite_edin]
    exact writeWord_misfit 14 _ _ hv

/-- Only a byte is written to `CMD`. -/
theorem regWrite_cmd_misfit {v : RegVal} (s : State) (hv : ∀ b : Byte, v ≠ .byte b) :
    regWrite 0 v s = .refused (.widthMismatch 0) := by
  cases v with
  | byte b => exact absurd rfl (hv b)
  | addr _ => rfl
  | word _ => rfl

/-- Settles O37: each operand register takes a value of its width while its bank is not BUSY, and refuses any
other; the read-only registers refuse all. -/
theorem regWriteSetsOneRegister : Obligations.RegWriteSetsOneRegister := by
  rintro s q n v evs hp rfl
  rw [step_of_pending hp]
  refine ⟨fun hn => regWrite_readOnly hn v _, ?_, ?_, ?_, ?_, fun hn hv => regWrite_addr_misfit hn hv,
    fun hn hv => regWrite_word_misfit hn _ hv, ?_⟩
  · rintro a rfl ha hb
    obtain ⟨h2, h3, h4⟩ := regWrite_dBank_sets (s := { s with pending := evs }) ha hb
    exact ⟨fun hn => hn ▸ h2, fun hn => hn ▸ h3, fun hn => hn ▸ h4⟩
  · rintro w rfl hb rfl
    exact regWrite_ddin_sets w hb
  · rintro a rfl ha hb
    obtain ⟨h10, h11, h12⟩ := regWrite_eBank_sets (s := { s with pending := evs }) ha hb
    exact ⟨fun hn => hn ▸ h10, fun hn => hn ▸ h11, fun hn => hn ▸ h12⟩
  · rintro w rfl hb rfl
    exact regWrite_edin_sets w hb
  · rintro rfl hv
    exact regWrite_cmd_misfit _ hv

/-- The operand registers of a BUSY D bank are not written. -/
theorem regWrite_busy_dBank {n : Nat} (hn : n ∈ [2, 3, 4, 6]) (v : RegVal) {s : State}
    (hb : s.d.dphase = .busy) : regWrite n v s = .refused (.registerOfBusyBank n) := by
  have hcase : n ∈ [2, 3, 4] ∨ n ∈ [6] := List.mem_append.1 hn
  rcases hcase with ha | hw
  · obtain ⟨put, h⟩ := regWrite_dBank_addr ha v s
    rw [h, hb]
    exact writeAddr_busy ..
  · obtain rfl := List.mem_singleton.1 hw
    rw [regWrite_ddin, hb]
    exact writeWord_busy ..

/-- The operand registers of a BUSY E bank are not written. -/
theorem regWrite_busy_eBank {n : Nat} (hn : n ∈ [10, 11, 12, 14]) (v : RegVal) {s : State}
    (hb : s.e.ephase = .busy) : regWrite n v s = .refused (.registerOfBusyBank n) := by
  have hcase : n ∈ [10, 11, 12] ∨ n ∈ [14] := List.mem_append.1 hn
  rcases hcase with ha | hw
  · obtain ⟨put, h⟩ := regWrite_eBank_addr ha v s
    rw [h, hb]
    exact writeAddr_busy ..
  · obtain rfl := List.mem_singleton.1 hw
    rw [regWrite_edin, hb]
    exact writeWord_busy ..

/-- Settles O39: a BUSY bank refuses its own operands, and the other bank's writes do not look at it. -/
theorem operandsOfABusyBankAreNotWritten : Obligations.OperandsOfABusyBankAreNotWritten := by
  intro s n v evs hp
  rw [step_of_pending hp]
  refine ⟨fun hb hn => regWrite_busy_dBank hn v hb, fun hb hn => regWrite_busy_eBank hn v hb, ?_, ?_⟩
  · rintro a rfl ha
    refine ⟨fun _ hb hn => ?_, fun _ hb hn => ?_⟩
    · obtain ⟨put, h⟩ := regWrite_eBank_addr hn (.addr a) { s with pending := evs }
      exact ⟨_, h.trans (busy_check hb ▸ writeAddr_addr n ha put)⟩
    · obtain ⟨put, h⟩ := regWrite_dBank_addr hn (.addr a) { s with pending := evs }
      exact ⟨_, h.trans (busy_check hb ▸ writeAddr_addr n ha put)⟩
  · rintro w rfl
    constructor
    · rintro - hb rfl
      exact ⟨_, regWrite_edin_sets w hb⟩
    · rintro - hb rfl
      exact ⟨_, regWrite_ddin_sets w hb⟩

/-! ## Registers nothing has written -/

/-- `DECODE` and `DEC4` refuse an unwritten operand (10_state.md R45). -/
theorem decode_commands_refuse_unwritten {s : State} (hb : s.d.dphase ≠ .busy) :
    ((s.d.dsrc.written = false ∨ s.d.dlen.written = false ∨ s.d.ddst.written = false) →
      exec .decode s = .refused .operandUnwritten) ∧
    (s.d.ddin.written = false → exec .dec4 s = .refused .operandUnwritten) := by
  refine ⟨fun h => ?_, fun h => ?_⟩
  · have hw : (s.d.dsrc.written && s.d.dlen.written && s.d.ddst.written) = false := by
      rcases h with h | h | h <;> simp [h]
    simp [exec, execDecode, decodeBreach, hb, hw]
  · simp [exec, execDec4, hb, h]

/-- `ENCODE` and `ENC3` refuse an unwritten operand (10_state.md R45). -/
theorem encode_commands_refuse_unwritten {s : State} (hb : s.e.ephase ≠ .busy) (url np : Bool) :
    ((s.e.esrc.written = false ∨ s.e.elen.written = false ∨ s.e.edst.written = false) →
      exec (.encode url np) s = .refused .operandUnwritten) ∧
    (s.e.edin.written = false → exec (.enc3 url) s = .refused .operandUnwritten) := by
  refine ⟨fun h => ?_, fun h => ?_⟩
  · have hw : (s.e.esrc.written && s.e.elen.written && s.e.edst.written) = false := by
      rcases h with h | h | h <;> simp [h]
    simp [exec, execEncode, encodeBreach, hb, hw]
  · simp [exec, execEnc3, hb, h]

/-- Settles O41: the commands check their operands' marks before the buffers; a read shows some value of the
width of the register. -/
theorem unwrittenOperandsAreRefused : Obligations.UnwrittenOperandsAreRefused := by
  intro s
  refine ⟨decode_commands_refuse_unwritten, encode_commands_refuse_unwritten, fun n evs hp => ?_⟩
  have reads (hn : n ∈ [1, 2, 3, 4, 5, 6, 7, 9, 10, 11, 12, 13, 14, 15]) :
      ∃ t v, step s = .next t ∧ t.lastRead = some v ∧ RegisterShows s n v :=
    step_of_pending hp ▸ regRead_shows { s with pending := evs } hn
  constructor
  · intro h
    obtain ⟨t, v, ht, hv, hshow⟩ := reads (by simp; omega)
    obtain ⟨r, hr, hw⟩ : ∃ r, ShowsAddr s r v ∧ r.written = false := by
      obtain ⟨-, h2, h3, h4, -, -, -, -, h10, h11, h12, -⟩ := hshow
      rcases h with ⟨rfl, hw⟩ | ⟨rfl, hw⟩ | ⟨rfl, hw⟩ | ⟨rfl, hw⟩ | ⟨rfl, hw⟩ | ⟨rfl, hw⟩
      · exact ⟨_, h2 rfl, hw⟩
      · exact ⟨_, h3 rfl, hw⟩
      · exact ⟨_, h4 rfl, hw⟩
      · exact ⟨_, h10 rfl, hw⟩
      · exact ⟨_, h11 rfl, hw⟩
      · exact ⟨_, h12 rfl, hw⟩
    obtain ⟨a, rfl, ha⟩ := hr.2 hw
    exact ⟨t, a, ht, hv, ha⟩
  · intro h
    obtain ⟨t, v, ht, hv, hshow⟩ := reads (by simp; omega)
    obtain ⟨r, hr, hw⟩ : ∃ r, ShowsWord r v ∧ r.written = false := by
      obtain ⟨-, -, -, -, -, h6, -, -, -, -, -, -, h14, -⟩ := hshow
      rcases h with ⟨rfl, hw⟩ | ⟨rfl, hw⟩
      · exact ⟨_, h6 rfl, hw⟩
      · exact ⟨_, h14 rfl, hw⟩
    obtain ⟨w, rfl⟩ := hr.2 hw
    exact ⟨t, w, ht, hv⟩

/-! ## The status registers -/

/-- The phase field of a status byte shows DONE at DONE only (10_state.md R27). -/
theorem statusByte_phase_eq_done (p : Phase) (inv : Bool) :
    (statusByte p inv).extractLsb' 0 2 = 2 ↔ (p == .done) = true := by
  cases p <;> cases inv <;> decide

/-- A status byte without INV is one of three, by its phase. -/
theorem statusByte_without_inv (p : Phase) : statusByte p false ∈ [(0x00 : Byte), 0x01, 0x02] := by
  cases p <;> decide

/-- With INV at DONE only, the fourth status byte is that of DONE with INV. -/
theorem statusByte_inv_at_done {p : Phase} {inv : Bool} (h : p ≠ .done → inv = false) :
    statusByte p inv ∈ [(0x00 : Byte), 0x01, 0x02, 0x06] := by
  cases inv with
  | false => exact List.mem_append_left [0x06] (statusByte_without_inv p)
  | true =>
    obtain rfl : p = .done := by_contra fun hp => nomatch h hp
    decide

/-- Settles O42: INV is high at DONE only, and ESTATUS has no INV (10_state.md R27). -/
theorem statusBytesThatCanBeRead : Obligations.StatusBytesThatCanBeRead := fun s hi =>
  ⟨statusByte_inv_at_done hi.resultAtDone, statusByte_without_inv s.e.ephase,
    statusByte_phase_eq_done s.d.dphase s.d.inv, statusByte_phase_eq_done s.e.ephase false⟩

/-- Settles O45: each value is the one `State.reset` writes out. -/
theorem resetStateHasTheSpecsValues : Obligations.ResetStateHasTheSpecsValues := by
  unfold Obligations.ResetStateHasTheSpecsValues
  decide

end Sys2Proof.Machine
end

section
/-! PROOFS. Nothing an earlier call left reaches the next one (10_state.md R36): a command overwrites all it
could see of it. -/

namespace Sys2Proof.Machine

/-- States with one next step have one future. -/
theorem run_congr_of_step {M : Host.Core} {s q : M.State} (h : M.step s = M.step q) (k : Nat) :
    M.run (1 + k) s = M.run (1 + k) q := by
  rw [Nat.add_comm]
  simp only [Host.Core.run, h]

/-- The write of a command byte runs its command (30_encoding.md R70). -/
theorem step_of_command {s : State} {b : Byte} {evs : List Event} {i : Instr}
    (hp : s.pending = .regWrite 0 (.byte b) :: evs) (hi : decodeCommand b = .ok i) :
    step s = exec i { s with pending := evs } := by
  rw [step_of_pending hp]
  simp only [perform, regWrite, regOf, issueCommand, hi]

/-- Where a command answers the same, so does the step that issues it. -/
theorem step_congr_of_command {s q : State} {b : Byte} {evs : List Event} {i : Instr}
    (hs : s.pending = .regWrite 0 (.byte b) :: evs) (hq : q.pending = .regWrite 0 (.byte b) :: evs)
    (hi : decodeCommand b = .ok i)
    (h : exec i { s with pending := evs } = exec i { q with pending := evs }) : step s = step q := by
  rw [step_of_command hs hi, step_of_command hq hi, h]

/-- `DECODE` answers the same whatever the cursors and results of the D bank held. -/
theorem exec_decode_forgets (s : State) (x y : Addr) (b v : Bool) :
    exec .decode { s with d := { s.d with didx := x, doutlen := y, dbad := b, inv := v } } = exec .decode s :=
  rfl

/-- `ENCODE` answers the same whatever the cursors and modes of the E bank held. -/
theorem exec_encode_forgets (s : State) (x y : Addr) (b v url np : Bool) :
    exec (.encode url np) { s with e := { s.e with eidx := x, eoutlen := y, eurl := b, enp := v } } =
      exec (.encode url np) s :=
  rfl

/-- Settles O49: acceptance overwrites what is left, so from the write of the command on the states agree. -/
theorem nothingCarriesOverToTheNextCall : Obligations.NothingCarriesOverToTheNextCall := by
  rintro s _ _ x y b v rfl rfl
  refine ⟨exec_decode_forgets s x y b v, exec_encode_forgets s x y b v, fun evs k hp => ?_,
    fun c evs k url np hp hc => ?_⟩
  · refine run_congr_of_step (M := Sys2Proof.core) ?_ k
    exact step_congr_of_command hp hp rfl (exec_decode_forgets { s with pending := evs } x y b v)
  · refine run_congr_of_step (M := Sys2Proof.core) ?_ k
    exact step_congr_of_command hp hp hc (exec_encode_forgets { s with pending := evs } x y b v url np)

end Sys2Proof.Machine
end

section
/-! PROOFS. The preconditions of the buffer commands, said address by address, are what acceptance checks
(20_memory.md R51, R55 to R58, R65, R66; 41_decode.md R115; 42_encode.md R144). -/

namespace Sys2Proof.Machine

/-- Ranges that share no address are those the check finds disjoint. -/
theorem apart_iff_disjoint {r q : Region} : Apart r q ↔ r.disjoint q = true := by
  simp only [Apart, holds_iff, disjoint_iff]
  constructor
  · intro h
    have := h (max r.base q.base)
    omega
  · intro h x
    omega

/-- The host owns every address of a range exactly when the range is apart from all it does not own. -/
theorem hostOwns_iff {s : State} {r : Region} : HostOwns s r ↔ ownedStorage s.unowned r = true := by
  simp only [ownedStorage, List.all_eq_true, ← apart_iff_disjoint, HostOwns, Apart, not_and, Bool.not_eq_true]
  exact ⟨fun h u hu x hx => h x hx u hu, fun h x hx u hu => h u hu x hx⟩

/-- The calls a call may run beside, address by address (20_memory.md R66). -/
theorem compatible_iff {c k : Call} :
    c.compatible k = true ↔ Apart c.output k.input ∧ Apart c.output k.output ∧ Apart k.output c.input := by
  simp only [Call.compatible, Bool.and_eq_true, apart_iff_disjoint, and_assoc]

/-- The checks of acceptance find nothing wrong exactly with acceptable buffers. -/
theorem callBreach_eq_none_iff_acceptable {s : State} {c : Call} {other : Option Call} :
    callBreach s c other = none ↔ BuffersAcceptable s c.input c.output other := by
  have hother : other.all c.compatible = true ↔
      ∀ k, other = some k → Apart c.output k.input ∧ Apart c.output k.output ∧ Apart k.output c.input := by
    cases other with
    | none => simp
    | some k => simp [compatible_iff]
  rw [callBreach_eq_none, BuffersAcceptable, inMemory_iff, inMemory_iff, hostOwns_iff, hostOwns_iff,
    apart_iff_disjoint, hother]

/-- The size acceptance computes from the trailing bytes in memory is the decoded size of the text. -/
theorem decodedSize_decodeText (s : State) : decodedSize (decodeText s) = (decodeCall s).output.len := by
  have hlen : (decodeText s).length = s.d.dlen.val.toNat := length_readBytes ..
  have hat {k : Nat} (h : k < s.d.dlen.val.toNat) :
      (decodeText s).getD k 0 = s.mem.read (s.d.dsrc.val.toNat + k) := by
    rw [List.getD_eq_getElem?_getD, decodeText, getElem?_readBytes, if_pos h]
    rfl
  simp only [decodedSize, padCount, decodeCall, decodedSizeOf, hlen]
  by_cases h0 : s.d.dlen.val.toNat = 0
  · simp [h0]
  · rw [hat (by omega), hat (by omega)]

/-- The ranges of a `DECODE` are those of its call. -/
theorem decodeRanges_eq (s : State) : decodeRanges s = ((decodeCall s).input, (decodeCall s).output) := by
  rw [decodeRanges, decodedSize_decodeText]
  rfl

/-- The ranges of an `ENCODE` are those of its call. -/
theorem encodeRanges_eq (s : State) (np : Bool) :
    encodeRanges s np = ((encodeCall s np).input, (encodeCall s np).output) := rfl

/-- `DECODE` is acceptable exactly when the model finds no reason to refuse it. -/
theorem decodeBreach_eq_none_iff {s : State} : decodeBreach s = none ↔ DecodeAcceptable s := by
  rw [DecodeAcceptable, decodeRanges_eq, ← callBreach_eq_none_iff_acceptable, decodeBreach]
  by_cases hb : s.d.dphase = .busy
  · simp [hb]
  · by_cases hw : (s.d.dsrc.written && s.d.dlen.written && s.d.ddst.written) = true
    · simp only [Bool.and_eq_true, and_assoc] at hw
      simp [hb, hw]
    · simp only [Bool.and_eq_true, and_assoc] at hw
      simp only [hb]
      grind

/-- `ENCODE` is acceptable exactly when the model finds no reason to refuse it. -/
theorem encodeBreach_eq_none_iff {s : State} {np : Bool} : encodeBreach s np = none ↔ EncodeAcceptable s np := by
  rw [EncodeAcceptable, encodeRanges_eq, ← callBreach_eq_none_iff_acceptable, encodeBreach]
  by_cases hb : s.e.ephase = .busy
  · simp [hb]
  · by_cases hw : (s.e.esrc.written && s.e.elen.written && s.e.edst.written) = true
    · simp only [Bool.and_eq_true, and_assoc] at hw
      simp [hb, hw]
    · simp only [Bool.and_eq_true, and_assoc] at hw
      simp only [hb]
      grind

/-- An acceptable `DECODE` is accepted. -/
theorem exec_decode_of_acceptable {s : State} (h : DecodeAcceptable s) :
    exec .decode s = .next (acceptDecode s (decodeCall s)) := by
  rw [exec, execDecode, decodeBreach_eq_none_iff.2 h]

/-- An acceptable `ENCODE` is accepted. -/
theorem exec_encode_of_acceptable {s : State} {np : Bool} (url : Bool) (h : EncodeAcceptable s np) :
    exec (.encode url np) s = .next (acceptEncode s url np (encodeCall s np)) := by
  rw [exec, execEncode, encodeBreach_eq_none_iff.2 h]

/-- The operands of an acceptable `DECODE` are written, and its buffers are sound. -/
theorem sound_of_decodeAcceptable {s : State} (h : DecodeAcceptable s) :
    (s.d.dsrc.written ∧ s.d.dlen.written ∧ s.d.ddst.written) ∧ (decodeCall s).Sound s.aw s.unowned := by
  obtain ⟨-, hsrc, hlen, hdst, hbuf⟩ := h
  rw [decodeRanges_eq] at hbuf
  exact ⟨⟨hsrc, hlen, hdst⟩, sound_of_callBreach (callBreach_eq_none_iff_acceptable.2 hbuf)⟩

/-- The operands of an acceptable `ENCODE` are written, and its buffers are sound. -/
theorem sound_of_encodeAcceptable {s : State} {np : Bool} (h : EncodeAcceptable s np) :
    (s.e.esrc.written ∧ s.e.elen.written ∧ s.e.edst.written) ∧ (encodeCall s np).Sound s.aw s.unowned := by
  obtain ⟨-, hsrc, hlen, hdst, hbuf⟩ := h
  rw [encodeRanges_eq] at hbuf
  exact ⟨⟨hsrc, hlen, hdst⟩, sound_of_callBreach (callBreach_eq_none_iff_acceptable.2 hbuf)⟩

end Sys2Proof.Machine
end

section
/-! PROOFS. A whole call: from its acceptance on the steps of its engine work off the text (the data) as
`decodeFn` (`encodeFn`) does (41_decode.md R125, R126; 42_encode.md R149, R150). -/

namespace Sys2Proof.Machine

/-! ## The functions of a whole call, block by block -/

/-- A block of four with more behind it is an interior block. -/
theorem decodeBlocks_interior {b : Bool} {bs cs : List Byte} (h : bs.length = 4) (hc : cs ≠ []) :
    decodeBlocks b (bs ++ cs) =
      ⟨(decodeBlocks (interiorBlock b bs).dbad cs).dbad, (decodeBlocks (interiorBlock b bs).dbad cs).inv,
        (interiorBlock b bs).out ++ (decodeBlocks (interiorBlock b bs).dbad cs).out⟩ := by
  obtain ⟨c0, c1, c2, c3, rfl⟩ := List.length_eq_four.1 h
  obtain ⟨c4, t, rfl⟩ := List.exists_cons_of_ne_nil hc
  rfl

/-- One to four characters are the final block. -/
theorem decodeBlocks_final (b : Bool) {bs : List Byte} (h0 : bs ≠ []) (h : bs.length ≤ 4) :
    decodeBlocks b bs = finalBlock b bs := by
  match bs, h0, h with
  | [_], _, _ => rfl
  | [_, _], _, _ => rfl
  | [_, _, _], _, _ => rfl
  | [_, _, _, _], _, _ => rfl

/-- Three bytes are a full block. -/
theorem encodeFn_full (url np : Bool) {bs : List Byte} (cs : List Byte) (h : bs.length = 3) :
    encodeFn url np (bs ++ cs) = fullBlock url bs ++ encodeFn url np cs := by
  obtain ⟨b0, b1, b2, rfl⟩ := List.length_eq_three.1 h
  rfl

/-- One or two bytes are the leftover block. -/
theorem encodeFn_leftover (url np : Bool) {bs : List Byte} (h0 : bs ≠ []) (h : bs.length < 3) :
    encodeFn url np bs = leftoverBlock url np bs := by
  match bs, h0, h with
  | [_], _, _ => rfl
  | [_, _], _, _ => rfl

/-! ## Runs -/

/-- A run takes its first step and goes on from there. -/
theorem run_of_step {M : Host.Core} {s t : M.State} (h : M.step s = .next t) (k : Nat) :
    M.run (1 + k) s = M.run k t := by
  rw [Nat.add_comm]
  simp only [Host.Core.run, h]

/-- With nothing pending and ENC not BUSY, the step is a turn of DEC. -/
theorem step_quiet_decode {s : State} (hp : s.pending = []) (hb : s.d.dphase = .busy) (he : s.e.ephase ≠ .busy) :
    step s = decStep s := by
  simp only [step, takeTurn, hp, quietStep, hb, he, if_true, if_false]

/-- With nothing pending and DEC not BUSY, the step is a turn of ENC. -/
theorem step_quiet_encode {s : State} (hp : s.pending = []) (hd : s.d.dphase ≠ .busy) : step s = encStep s := by
  simp only [step, takeTurn, hp, quietStep, hd, if_false]

/-- A cursor that advances twice has advanced by the sum. -/
theorem advance_advance (c : Addr) (m n : Nat) : advance (advance c m) n = advance c (m + n) := by
  simp only [advance, BitVec.ofNat_add, BitVec.add_assoc]

/-- A cursor that advances by nothing stays. -/
@[simp] theorem advance_zero (c : Addr) : advance c 0 = c := by simp [advance]

/-- Bytes written are read back. -/
theorem readBytes_writeBytes {aw : AddrWidth} {m : Memory} (h : m.wf aw = true) {a : Nat} {bs : List Byte}
    (ha : a + bs.length ≤ 2 ^ aw.bits) : (m.writeBytes a bs).readBytes a bs.length = bs := by
  refine List.ext_getElem? fun k => ?_
  rw [getElem?_readBytes]
  split
  · next hk => rw [read_writeBytes_same h ha hk, List.getElem?_eq_getElem hk]
  · next hk => rw [List.getElem?_eq_none (Nat.le_of_not_lt hk)]

/-- Where the bytes read from two memories agree, the memories do. -/
theorem read_eq_of_readBytes_eq {m n : Memory} {a c len : Nat} (h : m.readBytes a len = n.readBytes c len)
    {k : Nat} (hk : k < len) : m.read (a + k) = n.read (c + k) := by
  have hat := congrArg (·[k]?) h
  simpa only [getElem?_readBytes, if_pos hk, Option.some.injEq] using hat

/-- A 64-bit count is at most what it counts. -/
theorem lt_of_lt_ofNat {k n : Nat} (h : k < (BitVec.ofNat 64 n).toNat) : k < n :=
  Nat.lt_of_lt_of_le h (BitVec.toNat_ofNat .. ▸ Nat.mod_le ..)

/-! ## DECODE -/

/-- The characters DEC has left. -/
def decodeLeft (s : State) : List Byte := s.mem.readBytes (decInput s) (decRem s)

/-- The state at the end of a `DECODE` whose remaining blocks leave `q`. -/
def decodeEnd (s : State) (q : BlockResult) : State := decFinish s (decWrites s q.out) q.dbad q.inv q.out.length

/-- After an interior step DEC has the characters behind the block left. -/
theorem afterInterior_left {s : State} {u : List Region} (hr : DecodeRuns s) (hs : (decodeCall s).Sound s.aw u)
    (h4 : 4 < decRem s) :
    decRem (afterInterior s) = decRem s - 4 ∧
    decodeLeft s = s.mem.readBytes (decInput s) 4 ++ decodeLeft (afterInterior s) := by
  have hidx := decode_input_advance h4
  have hrem : decRem (afterInterior s) = decRem s - 4 := by
    change s.d.dlen.val.toNat - (advance s.d.didx 4).toNat = _
    unfold decRem
    omega
  have hin : decInput (afterInterior s) = decInput s + 4 := by
    change s.d.dsrc.val.toNat + (advance s.d.didx 4).toNat = _
    unfold decInput
    omega
  refine ⟨hrem, ?_⟩
  have hkeep : decodeLeft (afterInterior s) = s.mem.readBytes (decInput s + 4) (decRem s - 4) := by
    rw [decodeLeft, hrem, hin]
    refine readBytes_congr fun x h1 h2 => decWrites_keeps_text hs (interior_block_has_room hr h4).1 ?_ ?_
    · unfold decInput at h1
      omega
    · unfold decInput decRem at h2
      unfold decRem at h4
      omega
  rw [hkeep, ← readBytes_add, decodeLeft]
  congr 1
  omega

/-- The end of a call is the same from the state after an interior step. -/
theorem decodeEnd_afterInterior {s : State} (hroom : s.d.doutlen.toNat + (nextInterior s).out.length ≤
      (decodeCall s).output.len) (q : BlockResult) :
    decodeEnd (afterInterior s) q = decodeEnd s ⟨q.dbad, q.inv, (nextInterior s).out ++ q.out⟩ := by
  have hout : decOutput (afterInterior s) = decOutput s + (nextInterior s).out.length := by
    change s.d.ddst.val.toNat + (advance s.d.doutlen _).toNat = _
    rw [decode_output_advance hroom, decOutput]
    omega
  have hmem : decWrites (afterInterior s) q.out = decWrites s ((nextInterior s).out ++ q.out) := by
    rw [decWrites, hout, decWrites, writeBytes_append]
    rfl
  simp only [decodeEnd, hmem, List.length_append, ← advance_advance, decFinish]
  rfl

/-- An interior turn of a running `DECODE` is never stopped. -/
theorem decStep_of_runs_interior {s : State} {u : List Region} (hb : s.d.dphase = .busy) (hr : DecodeRuns s)
    (hs : (decodeCall s).Sound s.aw u) (h4 : 4 < decRem s) : decStep s = .next (afterInterior s) := by
  have hin : s.d.dsrc.val.toNat + s.d.dlen.val.toNat ≤ 2 ^ s.aw.bits := inMemory_iff.1 hs.inputInMemory
  refine decStep_interior hb h4 ?_
    (rangeOk_within (interior_block_has_room hr h4).1 (inMemory_iff.1 hs.outputInMemory))
  unfold decRem at h4
  unfold decInput
  omega

/-- The final turn of a running `DECODE` is never stopped: it ends the call as the last block says, inside
the output. -/
theorem decStep_of_runs_final {s : State} {u : List Region} (hb : s.d.dphase = .busy) (hr : DecodeRuns s)
    (hs : (decodeCall s).Sound s.aw u) (h4 : decRem s ≤ 4) :
    decStep s = .next (decodeEnd s (decodeBlocks s.d.dbad (decodeLeft s))) ∧
    s.d.doutlen.toNat + (decodeBlocks s.d.dbad (decodeLeft s)).out.length ≤ (decodeCall s).output.len := by
  have hcursor := hr.cursor
  have hlen : (decodeLeft s).length = decRem s := length_readBytes ..
  by_cases h0 : decRem s = 0
  · have hnil : decodeLeft s = [] := List.eq_nil_of_length_eq_zero (hlen.trans h0)
    have hidx : s.d.didx = s.d.dlen.val := by
      unfold decRem at h0
      exact BitVec.eq_of_toNat_eq (by omega)
    rw [hnil, decStep_empty hb h0]
    refine ⟨?_, hr.room⟩
    simp only [decodeEnd, decFinish, decodeBlocks, List.length_nil, advance_zero, ← hidx]
    rfl
  · have hne : decodeLeft s ≠ [] := List.ne_nil_of_length_pos (by omega)
    have hroom := final_block_has_room hr (Nat.pos_of_ne_zero h0) h4
    have hin : s.d.dsrc.val.toNat + s.d.dlen.val.toNat ≤ 2 ^ s.aw.bits := inMemory_iff.1 hs.inputInMemory
    rw [decodeBlocks_final _ hne (by omega)]
    refine ⟨decStep_final hb h0 h4 ?_ (rangeOk_within hroom (inMemory_iff.1 hs.outputInMemory)), hroom⟩
    unfold decInput decRem
    omega

/-- A running `DECODE` with nothing beside it ends after its steps as its blocks say, inside its output. -/
theorem run_decode {s : State} {u : List Region} (hp : s.pending = []) (he : s.e.ephase ≠ .busy)
    (hb : s.d.dphase = .busy) (hr : DecodeRuns s) (hs : (decodeCall s).Sound s.aw u) :
    Host.Core.run Sys2Proof.core (decodeSteps (decRem s)) s =
      .next (decodeEnd s (decodeBlocks s.d.dbad (decodeLeft s))) ∧
    s.d.doutlen.toNat + (decodeBlocks s.d.dbad (decodeLeft s)).out.length ≤ (decodeCall s).output.len := by
  have hquiet := step_quiet_decode hp hb he
  induction hn : decRem s using Nat.strong_induction_on generalizing s with
  | _ n ih =>
  subst hn
  by_cases h4 : decRem s ≤ 4
  · obtain ⟨hstep, hroom⟩ := decStep_of_runs_final hb hr hs h4
    rw [show decodeSteps (decRem s) = 1 + 0 by unfold decodeSteps; omega]
    exact ⟨run_of_step (M := Sys2Proof.core) (hquiet.trans hstep) 0, hroom⟩
  · have h4 : 4 < decRem s := Nat.lt_of_not_le h4
    have hcall := afterInterior_decodeCall hr hs h4
    have hroom := (interior_block_has_room hr h4).1
    obtain ⟨hrem, hleft⟩ := afterInterior_left hr hs h4
    have hne : decodeLeft (afterInterior s) ≠ [] :=
      List.ne_nil_of_length_pos (by rw [decodeLeft, length_readBytes, hrem]; omega)
    obtain ⟨hrun, hend⟩ := ih _ (by omega) (s := afterInterior s) hp he hb (afterInterior_runs hr hs h4)
      (hcall ▸ hs) (step_quiet_decode hp hb he) rfl
    have hout : (afterInterior s).d.doutlen.toNat = _ := decode_output_advance hroom
    rw [hleft, decodeBlocks_interior (length_readBytes ..) hne]
    rw [hcall, hout] at hend
    rw [decodeEnd_afterInterior hroom, hrem] at hrun
    rw [show decodeSteps (decRem s) = 1 + decodeSteps (decRem s - 4) by unfold decodeSteps; omega]
    have hstep : step s = .next (afterInterior s) := hquiet.trans (decStep_of_runs_interior hb hr hs h4)
    refine ⟨(run_of_step (M := Sys2Proof.core) hstep _).trans hrun, ?_⟩
    rw [List.length_append, ← Nat.add_assoc]
    exact hend

/-- At its acceptance a `DECODE` has all of its text left. -/
theorem acceptDecode_left (s : State) (evs : List Event) (c : Call) :
    decodeLeft (acceptDecode { s with pending := evs } c) = decodeText s := by
  simp [decodeLeft, decInput, decRem, decodeText]

/-- At its acceptance a `DECODE` has the length of its text left. -/
theorem acceptDecode_rem (s : State) (evs : List Event) (c : Call) :
    decRem (acceptDecode { s with pending := evs } c) = (decodeText s).length := by
  simp [decRem, decodeText]

/-- An acceptable `DECODE` with nothing beside it, from the write of its command to its end. -/
theorem run_decode_call {s : State} (hp : s.pending = [.regWrite 0 (.byte 0x01)]) (he : s.e.ephase ≠ .busy)
    (ha : DecodeAcceptable s) :
    Host.Core.run Sys2Proof.core (1 + decodeSteps (decodeText s).length) s =
      .next (decodeEnd (acceptDecode { s with pending := [] } (decodeCall s)) (decodeFn (decodeText s))) ∧
    (decodeFn (decodeText s)).out.length ≤ (decodeCall s).output.len := by
  obtain ⟨hw, hs⟩ := sound_of_decodeAcceptable ha
  have haccept : step s = .next (acceptDecode { s with pending := [] } (decodeCall s)) :=
    (step_of_command hp rfl).trans (exec_decode_of_acceptable (s := { s with pending := [] }) ha)
  obtain ⟨hrun, hroom⟩ := run_decode (s := acceptDecode { s with pending := [] } (decodeCall s)) rfl he rfl
    (acceptDecode_runs (s := { s with pending := [] }) hw) hs
  rw [acceptDecode_left, acceptDecode_rem] at hrun
  rw [acceptDecode_left] at hroom
  exact ⟨(run_of_step (M := Sys2Proof.core) haccept _).trans hrun, (Nat.le_add_left _ _).trans hroom⟩

/-- What the end of such a call shows: the result of `decodeFn`, its bytes from `DDST` on. -/
theorem decode_call_result {s : State} (hm : s.mem.wf s.aw = true) (hp : s.pending = [.regWrite 0 (.byte 0x01)])
    (he : s.e.ephase ≠ .busy) (ha : DecodeAcceptable s) {q : BlockResult} (hq : q = decodeFn (decodeText s)) :
    ∃ t : State, Host.Core.run Sys2Proof.core (1 + decodeSteps (decodeText s).length) s = .next t ∧
      t.d.dphase = .done ∧ t.d.inv = q.inv ∧ t.d.dbad = q.dbad ∧
      t.d.didx = BitVec.ofNat 64 (decodeText s).length ∧ t.d.doutlen = BitVec.ofNat 64 q.out.length ∧
      t.mem.readBytes s.d.ddst.val.toNat q.out.length = q.out := by
  subst hq
  obtain ⟨hrun, hroom⟩ := run_decode_call hp he ha
  have hout : s.d.ddst.val.toNat + (decodeCall s).output.len ≤ 2 ^ s.aw.bits :=
    inMemory_iff.1 (sound_of_decodeAcceptable ha).2.outputInMemory
  have hlen : (decodeText s).length = s.d.dlen.val.toNat := length_readBytes ..
  have hmem : decWrites (acceptDecode { s with pending := [] } (decodeCall s)) (decodeFn (decodeText s)).out =
      s.mem.writeBytes s.d.ddst.val.toNat (decodeFn (decodeText s)).out := by
    simp [decWrites, decOutput]
  refine ⟨_, hrun, rfl, rfl, rfl, by simp [decodeEnd, hlen], by simp [decodeEnd, advance], ?_⟩
  rw [decodeEnd, decFinish_mem, hmem]
  exact readBytes_writeBytes hm (by omega)

/-! ## ENCODE -/

/-- The bytes ENC has left. -/
def encodeLeft (s : State) : List Byte := s.mem.readBytes (encInput s) (encRem s)

/-- The state at the end of an `ENCODE` whose remaining bytes give `cs`. -/
def encodeEnd (s : State) (cs : List Byte) : State := encFinish s (encWrites s cs) cs.length

/-- A full-block step keeps the buffers of its call. -/
theorem afterFull_encodeCall (s : State) : encodeCall (afterFull s) (afterFull s).e.enp = encodeCall s s.e.enp :=
  rfl

/-- After a full-block step ENC has the bytes behind the block left. -/
theorem afterFull_left {s : State} {u : List Region} (hr : EncodeRuns s)
    (hs : (encodeCall s s.e.enp).Sound s.aw u) (h3 : 3 ≤ encRem s) :
    encRem (afterFull s) = encRem s - 3 ∧
    encodeLeft s = s.mem.readBytes (encInput s) 3 ++ encodeLeft (afterFull s) := by
  have hidx := encode_input_advance h3
  have hrem : encRem (afterFull s) = encRem s - 3 := by
    change s.e.elen.val.toNat - (advance s.e.eidx 3).toNat = _
    unfold encRem
    omega
  have hin : encInput (afterFull s) = encInput s + 3 := by
    change s.e.esrc.val.toNat + (advance s.e.eidx 3).toNat = _
    unfold encInput
    omega
  refine ⟨hrem, ?_⟩
  have hkeep : encodeLeft (afterFull s) = s.mem.readBytes (encInput s + 3) (encRem s - 3) := by
    rw [encodeLeft, hrem, hin]
    refine readBytes_congr fun x h1 h2 =>
      encWrites_keeps_apart (disjoint_comm _ _ ▸ hs.disjoint) (full_block_has_room hr h3) ?_ ?_
    · change s.e.esrc.val.toNat ≤ x
      unfold encInput at h1
      omega
    · change x < s.e.esrc.val.toNat + s.e.elen.val.toNat
      unfold encInput encRem at h2
      unfold encRem at h3
      omega
  rw [hkeep, ← readBytes_add, encodeLeft]
  congr 1
  omega

/-- The end of a call is the same from the state after a full-block step. -/
theorem encodeEnd_afterFull {s : State} {u : List Region} (hs : (encodeCall s s.e.enp).Sound s.aw u)
    (hroom : s.e.eoutlen.toNat + 4 ≤ (encodeCall s s.e.enp).output.len) (cs : List Byte) :
    encodeEnd (afterFull s) cs = encodeEnd s (nextFull s ++ cs) := by
  have hlen : (nextFull s).length = 4 := fullBlock_length ..
  have hout : encOutput (afterFull s) = encOutput s + (nextFull s).length := by
    change s.e.edst.val.toNat + (advance s.e.eoutlen 4).toNat = _
    rw [encode_output_advance hs hroom, encOutput]
    omega
  have hmem : encWrites (afterFull s) cs = encWrites s (nextFull s ++ cs) := by
    rw [encWrites, hout, encWrites, writeBytes_append]
    rfl
  simp only [encodeEnd, hmem, List.length_append, hlen, ← advance_advance, encFinish]
  rfl

/-- What ENC has written lies in its output. -/
theorem encode_output_has_room {s : State} (hr : EncodeRuns s) :
    s.e.eoutlen.toNat ≤ (encodeCall s s.e.enp).output.len := by
  have hcursor := hr.cursor
  rw [hr.output]
  simp only [encodeCall, encodedSizeFor, encodedSizeNopad, encodedSize]
  split
  · split
    · omega
    · split <;> omega
  · omega

/-- A full-block turn of a running `ENCODE` is never stopped. -/
theorem encStep_of_runs_full {s : State} {u : List Region} (hb : s.e.ephase = .busy) (hr : EncodeRuns s)
    (hs : (encodeCall s s.e.enp).Sound s.aw u) (h3 : 3 ≤ encRem s) : encStep s = .next (afterFull s) := by
  have hin : s.e.esrc.val.toNat + s.e.elen.val.toNat ≤ 2 ^ s.aw.bits := inMemory_iff.1 hs.inputInMemory
  have hout : s.e.edst.val.toNat + (encodeCall s s.e.enp).output.len ≤ 2 ^ s.aw.bits :=
    inMemory_iff.1 hs.outputInMemory
  have hroom := full_block_has_room hr h3
  refine encStep_full hb h3 ?_ ?_
  · unfold encRem at h3
    unfold encInput
    omega
  · unfold encOutput
    omega

/-- The final turn of a running `ENCODE` is never stopped: it ends the call as the leftover bytes say, inside
the output. -/
theorem encStep_of_runs_final {s : State} {u : List Region} (hb : s.e.ephase = .busy) (hr : EncodeRuns s)
    (hs : (encodeCall s s.e.enp).Sound s.aw u) (h3 : encRem s < 3) :
    encStep s = .next (encodeEnd s (encodeFn s.e.eurl s.e.enp (encodeLeft s))) ∧
    s.e.eoutlen.toNat + (encodeFn s.e.eurl s.e.enp (encodeLeft s)).length ≤
      (encodeCall s s.e.enp).output.len := by
  have hcursor := hr.cursor
  have hlen : (encodeLeft s).length = encRem s := length_readBytes ..
  by_cases h0 : encRem s = 0
  · have hnil : encodeLeft s = [] := List.eq_nil_of_length_eq_zero (hlen.trans h0)
    have hidx : s.e.eidx = s.e.elen.val := by
      unfold encRem at h0
      exact BitVec.eq_of_toNat_eq (by omega)
    rw [hnil, encStep_empty hb h0]
    refine ⟨?_, encode_output_has_room hr⟩
    simp only [encodeEnd, encFinish, encodeFn, List.length_nil, advance_zero, ← hidx]
    rfl
  · have hne : encodeLeft s ≠ [] := List.ne_nil_of_length_pos (by omega)
    have hroom := leftover_has_room hr (Nat.pos_of_ne_zero h0) h3
    have hin : s.e.esrc.val.toNat + s.e.elen.val.toNat ≤ 2 ^ s.aw.bits := inMemory_iff.1 hs.inputInMemory
    rw [encodeFn_leftover _ _ hne (by omega)]
    refine ⟨encStep_final hb h0 h3 ?_ (rangeOk_within hroom (inMemory_iff.1 hs.outputInMemory)), hroom⟩
    unfold encInput encRem
    omega

/-- A running `ENCODE` with nothing beside it ends after its steps as its bytes say, inside its output. -/
theorem run_encode {s : State} {u : List Region} (hp : s.pending = []) (hd : s.d.dphase ≠ .busy)
    (hb : s.e.ephase = .busy) (hr : EncodeRuns s) (hs : (encodeCall s s.e.enp).Sound s.aw u) :
    Host.Core.run Sys2Proof.core (encodeSteps (encRem s)) s =
      .next (encodeEnd s (encodeFn s.e.eurl s.e.enp (encodeLeft s))) ∧
    s.e.eoutlen.toNat + (encodeFn s.e.eurl s.e.enp (encodeLeft s)).length ≤
      (encodeCall s s.e.enp).output.len := by
  have hquiet := step_quiet_encode hp hd
  induction hn : encRem s using Nat.strong_induction_on generalizing s with
  | _ n ih =>
  subst hn
  by_cases h3 : 3 ≤ encRem s
  · have hroom := full_block_has_room hr h3
    obtain ⟨hrem, hleft⟩ := afterFull_left hr hs h3
    obtain ⟨hrun, hend⟩ := ih _ (by omega) (s := afterFull s) hp hd hb (afterFull_runs hr hs h3) hs
      (step_quiet_encode hp hd) rfl
    have hout : (afterFull s).e.eoutlen.toNat = _ := encode_output_advance hs hroom
    rw [hleft, encodeFn_full _ _ _ (length_readBytes ..)]
    rw [afterFull_encodeCall, hout] at hend
    rw [encodeEnd_afterFull hs hroom, hrem] at hrun
    rw [show encodeSteps (encRem s) = 1 + encodeSteps (encRem s - 3) by unfold encodeSteps; omega]
    have hstep : step s = .next (afterFull s) := hquiet.trans (encStep_of_runs_full hb hr hs h3)
    refine ⟨(run_of_step (M := Sys2Proof.core) hstep _).trans hrun, ?_⟩
    rw [List.length_append, fullBlock_length, ← Nat.add_assoc]
    exact hend
  · obtain ⟨hstep, hroom⟩ := encStep_of_runs_final hb hr hs (Nat.lt_of_not_le h3)
    rw [show encodeSteps (encRem s) = 1 + 0 by unfold encodeSteps; omega]
    exact ⟨run_of_step (M := Sys2Proof.core) (hquiet.trans hstep) 0, hroom⟩

/-- At its acceptance an `ENCODE` has all of its data left. -/
theorem acceptEncode_left (s : State) (evs : List Event) (url np : Bool) (c : Call) :
    encodeLeft (acceptEncode { s with pending := evs } url np c) = encodeData s := by
  simp [encodeLeft, encInput, encRem, encodeData]

/-- At its acceptance an `ENCODE` has the length of its data left. -/
theorem acceptEncode_rem (s : State) (evs : List Event) (url np : Bool) (c : Call) :
    encRem (acceptEncode { s with pending := evs } url np c) = (encodeData s).length := by
  simp [encRem, encodeData]

/-- An acceptable `ENCODE` with nothing beside it, from the write of its command to its end. -/
theorem run_encode_call {s : State} {c : Byte} {url np : Bool} (hp : s.pending = [.regWrite 0 (.byte c)])
    (hc : decodeCommand c = .ok (.encode url np)) (hd : s.d.dphase ≠ .busy) (ha : EncodeAcceptable s np) :
    Host.Core.run Sys2Proof.core (1 + encodeSteps (encodeData s).length) s =
      .next (encodeEnd (acceptEncode { s with pending := [] } url np (encodeCall s np))
        (encodeFn url np (encodeData s))) ∧
    (encodeFn url np (encodeData s)).length ≤ (encodeCall s np).output.len := by
  obtain ⟨hw, hs⟩ := sound_of_encodeAcceptable ha
  have haccept : step s = .next (acceptEncode { s with pending := [] } url np (encodeCall s np)) :=
    (step_of_command hp hc).trans (exec_encode_of_acceptable (s := { s with pending := [] }) url ha)
  obtain ⟨hrun, hroom⟩ := run_encode (s := acceptEncode { s with pending := [] } url np (encodeCall s np)) rfl hd
    rfl (acceptEncode_runs (s := { s with pending := [] }) hw) hs
  rw [acceptEncode_left, acceptEncode_rem] at hrun
  rw [acceptEncode_left] at hroom
  exact ⟨(run_of_step (M := Sys2Proof.core) haccept _).trans hrun, (Nat.le_add_left _ _).trans hroom⟩

/-- What the end of such a call shows: the characters of `encodeFn` from `EDST` on. -/
theorem encode_call_result {s : State} {c : Byte} {url np : Bool} (hm : s.mem.wf s.aw = true)
    (hp : s.pending = [.regWrite 0 (.byte c)]) (hc : decodeCommand c = .ok (.encode url np))
    (hd : s.d.dphase ≠ .busy) (ha : EncodeAcceptable s np) {cs : List Byte}
    (hcs : cs = encodeFn url np (encodeData s)) :
    ∃ t : State, Host.Core.run Sys2Proof.core (1 + encodeSteps (encodeData s).length) s = .next t ∧
      t.e.ephase = .done ∧ t.e.eidx = BitVec.ofNat 64 (encodeData s).length ∧
      t.e.eoutlen = BitVec.ofNat 64 cs.length ∧
      t.mem.readBytes s.e.edst.val.toNat cs.length = cs := by
  subst hcs
  obtain ⟨hrun, hroom⟩ := run_encode_call hp hc hd ha
  have hout : s.e.edst.val.toNat + (encodeCall s np).output.len ≤ 2 ^ s.aw.bits :=
    inMemory_iff.1 (sound_of_encodeAcceptable ha).2.outputInMemory
  have hlen : (encodeData s).length = s.e.elen.val.toNat := length_readBytes ..
  have hmem : encWrites (acceptEncode { s with pending := [] } url np (encodeCall s np))
      (encodeFn url np (encodeData s)) = s.mem.writeBytes s.e.edst.val.toNat (encodeFn url np (encodeData s)) := by
    simp [encWrites, encOutput]
  refine ⟨_, hrun, rfl, by simp [encodeEnd, hlen], by simp [encodeEnd, advance], ?_⟩
  rw [encodeEnd, encFinish_mem, hmem]
  exact readBytes_writeBytes hm (by omega)

/-- Settles O60: each of the two ends is a function of the text (the data and the modes). -/
theorem resultsDependOnTheInputAlone : Obligations.ResultsDependOnTheInputAlone := by
  intro s q hsm hqm
  constructor
  · intro hsp hqp hse hqe hsa hqa htext
    obtain ⟨t, hrun, hphase, hinv, hbad, hidx, hlen, hout⟩ := decode_call_result hsm hsp hse hsa rfl
    obtain ⟨u, hrun', hphase', hinv', hbad', hidx', hlen', hout'⟩ :=
      decode_call_result hqm hqp hqe hqa (congrArg decodeFn htext)
    rw [← htext] at hrun' hidx'
    refine ⟨t, u, hrun, hrun', hphase, hphase', hinv.trans hinv'.symm, hbad.trans hbad'.symm,
      hidx.trans hidx'.symm, hlen.trans hlen'.symm, fun j hj => ?_⟩
    exact read_eq_of_readBytes_eq (hout.trans hout'.symm) (lt_of_lt_ofNat (hlen ▸ hj))
  · intro c url np hsp hqp hc hsd hqd hsa hqa hdata
    obtain ⟨t, hrun, hphase, hidx, hlen, hout⟩ := encode_call_result hsm hsp hc hsd hsa rfl
    obtain ⟨u, hrun', hphase', hidx', hlen', hout'⟩ :=
      encode_call_result hqm hqp hc hqd hqa (congrArg (encodeFn url np) hdata)
    rw [← hdata] at hrun' hidx'
    refine ⟨t, u, hrun, hrun', hphase, hphase', hidx.trans hidx'.symm, hlen.trans hlen'.symm, fun j hj => ?_⟩
    exact read_eq_of_readBytes_eq (hout.trans hout'.symm) (lt_of_lt_ofNat (hlen ▸ hj))

end Sys2Proof.Machine
end

section
/-! PROOFS. Memory and its owners. An engine stores at its output cursor alone, inside the output of its running
call (20_memory.md R67); the host stores in bytes no call holds, and gets a call's buffers back by reading DONE
(R59). -/

namespace Sys2Proof.Machine

/-! ## What a turn of an engine stores -/

/-- A turn of DEC stores at most three bytes at its output cursor and counts them; those of a running call fit in
what is left of its output (41_decode.md R121, R122). -/
theorem decStep_stores {s t : State} (h : decStep s = .next t) :
    ∃ bs : List Byte, bs.length ≤ 3 ∧ t.mem = decWrites s bs ∧ t.d.doutlen = advance s.d.doutlen bs.length ∧
      (bs = [] ∨ s.d.dphase = .busy ∧
        (DecodeRuns s → s.d.doutlen.toNat + bs.length ≤ (decodeCall s).output.len)) := by
  obtain ⟨-, rfl⟩ | ⟨hb, h4, -, -, rfl⟩ | ⟨-, -, rfl⟩ | ⟨hb, h0, h4, -, -, rfl⟩ := decStep_cases h
  · exact ⟨[], by simp, rfl, (advance_zero _).symm, .inl rfl⟩
  · exact ⟨(nextInterior s).out, interiorBlock_length_le _ _, rfl, rfl,
      .inr ⟨hb, fun hr => (interior_block_has_room hr h4).1⟩⟩
  · exact ⟨[], by simp, rfl, (advance_zero _).symm, .inl rfl⟩
  · have hlen : (s.mem.readBytes (decInput s) (decRem s)).length = decRem s := length_readBytes ..
    have hle : (nextFinal s).out.length ≤ _ := (finalBlock_length_le s.d.dbad (hlen.trans_le h4)).1
    exact ⟨(nextFinal s).out, by omega, rfl, rfl, .inr ⟨hb, fun hr => final_block_has_room hr h0 h4⟩⟩

/-- A turn of ENC stores at most four characters at its output cursor and counts them; those of a running call fit
in what is left of its output (42_encode.md R147, R148). -/
theorem encStep_stores {s t : State} (h : encStep s = .next t) :
    ∃ cs : List Byte, cs.length ≤ 4 ∧ t.mem = encWrites s cs ∧ t.e.eoutlen = advance s.e.eoutlen cs.length ∧
      (cs = [] ∨ s.e.ephase = .busy ∧
        (EncodeRuns s → s.e.eoutlen.toNat + cs.length ≤ (encodeCall s s.e.enp).output.len)) := by
  obtain ⟨-, rfl⟩ | ⟨hb, h3, -, -, rfl⟩ | ⟨-, -, rfl⟩ | ⟨hb, h0, h3, -, -, rfl⟩ := encStep_cases h
  · exact ⟨[], by simp, rfl, (advance_zero _).symm, .inl rfl⟩
  · exact ⟨nextFull s, Nat.le_refl 4, rfl, rfl, .inr ⟨hb, fun hr => full_block_has_room hr h3⟩⟩
  · exact ⟨[], by simp, rfl, (advance_zero _).symm, .inl rfl⟩
  · have hlen : (s.mem.readBytes (encInput s) (encRem s)).length = encRem s := length_readBytes ..
    have hle : (nextLeftover s).length = _ := leftoverBlock_length s.e.eurl s.e.enp (by omega)
    exact ⟨nextLeftover s, by split at hle <;> omega, rfl, rfl,
      .inr ⟨hb, fun hr => leftover_has_room hr h0 h3⟩⟩

/-! ## The frame of a turn -/

/-- A cursor has grown by what it counted. -/
theorem advance_sub_toNat (c : Addr) {n : Nat} (h : n < 2 ^ 64) : (advance c n - c).toNat = n := by
  rw [advance, BitVec.add_comm, BitVec.add_sub_cancel, BitVec.toNat_ofNat, Nat.mod_eq_of_lt h]

/-- A turn of DEC leaves the bytes its output cursor does not pass. -/
theorem decStep_keeps_bytes_beside_cursor {s t : State} (h : decStep s = .next t) {a : Nat}
    (ha : a < decOutput s ∨ decOutput s + (t.d.doutlen - s.d.doutlen).toNat ≤ a) :
    t.mem.read a = s.mem.read a := by
  obtain ⟨bs, hlen, hmem, hout, -⟩ := decStep_stores h
  rw [hout, advance_sub_toNat _ (by omega)] at ha
  exact hmem ▸ read_writeBytes_other _ _ _ ha

/-- A turn of ENC leaves the bytes its output cursor does not pass. -/
theorem encStep_keeps_bytes_beside_cursor {s t : State} (h : encStep s = .next t) {a : Nat}
    (ha : a < encOutput s ∨ encOutput s + (t.e.eoutlen - s.e.eoutlen).toNat ≤ a) :
    t.mem.read a = s.mem.read a := by
  obtain ⟨cs, hlen, hmem, hout, -⟩ := encStep_stores h
  rw [hout, advance_sub_toNat _ (by omega)] at ha
  exact hmem ▸ read_writeBytes_other _ _ _ ha

/-- A turn of DEC leaves its operand and block registers. -/
theorem decStep_keeps_operands {s t : State} (h : decStep s = .next t) :
    t.d.dsrc = s.d.dsrc ∧ t.d.dlen = s.d.dlen ∧ t.d.ddst = s.d.ddst ∧ t.d.ddin = s.d.ddin ∧
      t.d.ddout = s.d.ddout := by
  obtain ⟨-, rfl⟩ | ⟨-, -, -, -, rfl⟩ | ⟨-, -, rfl⟩ | ⟨-, -, -, -, -, rfl⟩ := decStep_cases h
  · simp
  · simp
  · simp
  · simp

/-- A turn of ENC leaves its operand and block registers, and the modes of its call. -/
theorem encStep_keeps_operands {s t : State} (h : encStep s = .next t) :
    t.e.esrc = s.e.esrc ∧ t.e.elen = s.e.elen ∧ t.e.edst = s.e.edst ∧ t.e.edin = s.e.edin ∧
      t.e.edout = s.e.edout ∧ t.e.eurl = s.e.eurl ∧ t.e.enp = s.e.enp := by
  obtain ⟨-, rfl⟩ | ⟨-, -, -, -, rfl⟩ | ⟨-, -, rfl⟩ | ⟨-, -, -, -, -, rfl⟩ := encStep_cases h
  · simp
  · simp
  · simp
  · simp

/-- A turn of DEC leaves the E bank and the system around the engines. -/
theorem decStep_keeps_system {s t : State} (h : decStep s = .next t) :
    t.e = s.e ∧ t.unowned = s.unowned ∧ t.dcalls = s.dcalls ∧ t.ecalls = s.ecalls ∧ t.lastRead = s.lastRead := by
  obtain ⟨-, rfl⟩ | ⟨-, -, -, -, rfl⟩ | ⟨-, -, rfl⟩ | ⟨-, -, -, -, -, rfl⟩ := decStep_cases h
  · simp
  · simp
  · simp
  · simp

/-- A turn of ENC leaves the D bank and the system around the engines. -/
theorem encStep_keeps_system {s t : State} (h : encStep s = .next t) :
    t.d = s.d ∧ t.unowned = s.unowned ∧ t.dcalls = s.dcalls ∧ t.ecalls = s.ecalls ∧ t.lastRead = s.lastRead := by
  obtain ⟨-, rfl⟩ | ⟨-, -, -, -, rfl⟩ | ⟨-, -, rfl⟩ | ⟨-, -, -, -, -, rfl⟩ := encStep_cases h
  · simp
  · simp
  · simp
  · simp

/-- Settles O48: a turn stores what its output cursor counts, and sets registers of its own bank that are no
operands. -/
theorem engineTurnsLeaveEverythingElse : Obligations.EngineTurnsLeaveEverythingElse := by
  refine fun s t => ⟨fun h => ?_, fun h => ?_⟩
  · obtain ⟨hsrc, hlen, hdst, hdin, hdout⟩ := decStep_keeps_operands h
    obtain ⟨he, hunowned, hdcalls, hecalls, hread⟩ := decStep_keeps_system h
    exact ⟨he, hsrc, hlen, hdst, hdin, hdout, decStep_keeps_aw h, hunowned, hdcalls, hecalls, hread,
      fun _ => decStep_keeps_bytes_beside_cursor h⟩
  · obtain ⟨hsrc, hlen, hdst, hedin, hedout, hurl, hnp⟩ := encStep_keeps_operands h
    obtain ⟨hd, hunowned, hdcalls, hecalls, hread⟩ := encStep_keeps_system h
    exact ⟨hd, hsrc, hlen, hdst, hedin, hedout, hurl, hnp, encStep_keeps_aw h, hunowned, hdcalls, hecalls, hread,
      fun _ => encStep_keeps_bytes_beside_cursor h⟩

/-! ## The output ranges of the open calls -/

/-- A turn of DEC leaves the bytes outside the outputs of the open calls: the running one is among them
(20_memory.md R67). -/
theorem decStep_keeps_bytes_beside_outputs {s t : State} (hi : Inv s) (h : decStep s = .next t) {x : Nat}
    (hx : ∀ c ∈ openCalls s, c.output.holds x = false) : t.mem.read x = s.mem.read x := by
  obtain ⟨bs, -, hmem, -, rfl | ⟨hb, hroom⟩⟩ := decStep_stores h
  · exact congrArg (·.read x) hmem
  · have hr := hi.decoding hb
    have hfit := hroom hr
    have hout : x < s.d.ddst.val.toNat ∨ s.d.ddst.val.toNat + (decodeCall s).output.len ≤ x :=
      holds_false.1 (hx _ (List.mem_append_left _ (mem_of_head_call hr.call)))
    refine hmem ▸ read_writeBytes_other _ _ _ ?_
    unfold decOutput
    omega

/-- A turn of ENC leaves the bytes outside the outputs of the open calls: the running one is among them
(20_memory.md R67). -/
theorem encStep_keeps_bytes_beside_outputs {s t : State} (hi : Inv s) (h : encStep s = .next t) {x : Nat}
    (hx : ∀ c ∈ openCalls s, c.output.holds x = false) : t.mem.read x = s.mem.read x := by
  obtain ⟨cs, -, hmem, -, rfl | ⟨hb, hroom⟩⟩ := encStep_stores h
  · exact congrArg (·.read x) hmem
  · have hr := hi.encoding hb
    have hfit := hroom hr
    have hout : x < s.e.edst.val.toNat ∨ s.e.edst.val.toNat + (encodeCall s s.e.enp).output.len ≤ x :=
      holds_false.1 (hx _ (List.mem_append_right _ (mem_of_head_call hr.call)))
    refine hmem ▸ read_writeBytes_other _ _ _ ?_
    unfold encOutput
    omega

/-- A register write leaves memory, a command that it issues included. -/
theorem regWrite_keeps_mem {n : Nat} {v : RegVal} {s t : State} (h : regWrite n v s = .next t) :
    t.mem = s.mem := by
  obtain ⟨-, _, _, -, -, hx⟩ | ⟨-, _, -, -, ⟨-, rfl⟩ | ⟨-, rfl⟩ | ⟨-, rfl⟩⟩ | ⟨-, -, _, -, rfl⟩ |
    ⟨-, _, -, -, ⟨-, rfl⟩ | ⟨-, rfl⟩ | ⟨-, rfl⟩⟩ | ⟨-, -, _, -, rfl⟩ := regWrite_cases h
  · exact exec_keeps_mem hx
  all_goals rfl

/-- An event other than the host's write of a byte outside the outputs of the open calls leaves that byte. -/
theorem perform_keeps_bytes_beside_outputs {ev : Event} {s t : State} (hi : Inv s) (h : perform ev s = .next t)
    {x : Nat} (hx : ∀ c ∈ openCalls s, c.output.holds x = false) (hev : ∀ b, ev ≠ .memWrite x b) :
    t.mem.read x = s.mem.read x := by
  cases ev with
  | regRead n => obtain ⟨_, _, _, _, rfl, -⟩ := regRead_cases h; rfl
  | regWrite n v => rw [regWrite_keeps_mem h]
  | memRead a => rw [hostMemRead_next h, returnValue_mem]
  | memWrite a b =>
    obtain ⟨-, -, rfl⟩ := hostMemWrite_next h
    exact read_write_other _ _ fun hxa => hev b (hxa ▸ rfl)
  | setUnowned rs => obtain ⟨-, rfl⟩ := setUnowned_next h; rfl
  | decTurn => exact decStep_keeps_bytes_beside_outputs hi h hx
  | encTurn => exact encStep_keeps_bytes_beside_outputs hi h hx
  | reset => rw [← Host.Outcome.next.inj h, resetEngine_mem]

/-- Settles O56: of all that a step can be, only the turns of the engines and the host's own write store. -/
theorem memoryChangesOnlyInOutputRanges : Obligations.MemoryChangesOnlyInOutputRanges := by
  intro s t x hi h hx hev
  obtain ⟨ev, evs, hpend, hp⟩ | ⟨-, k, hd | he⟩ := step_cases h
  · exact perform_keeps_bytes_beside_outputs (inv_pending hi evs) hp hx fun b hb => hev b evs (hb ▸ hpend)
  · exact decStep_keeps_bytes_beside_outputs (inv_free hi k) hd hx
  · exact encStep_keeps_bytes_beside_outputs (inv_free hi k) he hx

/-! ## The host beside the open calls -/

/-- A byte of memory is a range of one byte in memory. -/
theorem inMemory_byte {aw : AddrWidth} {a : Nat} (ha : a < 2 ^ aw.bits) : inMemory aw ⟨a, 1⟩ = true :=
  inMemory_iff.2 ha

/-- A host write of a byte that an open call holds is refused. -/
theorem hostMemWrite_held {s : State} {a : Nat} (b : Byte) (ha : a < 2 ^ s.aw.bits)
    (h : ∃ c ∈ openCalls s, c.input.holds a = true ∨ c.output.holds a = true) :
    hostMemWrite a b s = .refused (.heldByCall a) := by
  simp only [hostMemWrite, inMemory_byte ha, List.any_eq_true, Bool.or_eq_true, if_pos h, Bool.not_true,
    Bool.false_eq_true, if_false]

/-- A host write of any other byte writes it. -/
theorem hostMemWrite_free {s : State} {a : Nat} (b : Byte) (ha : a < 2 ^ s.aw.bits)
    (h : ∀ c ∈ openCalls s, c.input.holds a = false ∧ c.output.holds a = false) :
    hostMemWrite a b s = .next { s with mem := s.mem.write a b } := by
  have hfree : ¬ ∃ c ∈ openCalls s, c.input.holds a = true ∨ c.output.holds a = true := by
    rintro ⟨c, hc, hin | hout⟩
    · simp [(h c hc).1] at hin
    · simp [(h c hc).2] at hout
  simp only [hostMemWrite, inMemory_byte ha, List.any_eq_true, Bool.or_eq_true, if_neg hfree, Bool.not_true,
    Bool.false_eq_true, if_false]

/-- A host read of a byte in the output of an open call is refused. -/
theorem hostMemRead_held {s : State} {a : Nat} (ha : a < 2 ^ s.aw.bits)
    (h : ∃ c ∈ openCalls s, c.output.holds a = true) : hostMemRead a s = .refused (.heldByCall a) := by
  simp only [hostMemRead, inMemory_byte ha, List.any_eq_true, if_pos h, Bool.not_true, Bool.false_eq_true, if_false]

/-- A host read of any other byte returns it. -/
theorem hostMemRead_free {s : State} {a : Nat} (ha : a < 2 ^ s.aw.bits)
    (h : ∀ c ∈ openCalls s, c.output.holds a = false) :
    hostMemRead a s = .next (returnValue s (.byte (s.mem.read a))) := by
  have hfree : ¬ ∃ c ∈ openCalls s, c.output.holds a = true := by
    rintro ⟨c, hc, hout⟩
    simp [h c hc] at hout
  simp only [hostMemRead, inMemory_byte ha, List.any_eq_true, if_neg hfree, Bool.not_true, Bool.false_eq_true,
    if_false]

/-- A read of DSTATUS gives the `DECODE` calls back exactly at DONE. -/
theorem releaseDecode_eq (s : State) :
    releaseDecode s = { s with dcalls := if s.d.dphase = .done then [] else s.dcalls } := by
  unfold releaseDecode
  split <;> rfl

/-- A read of ESTATUS gives the `ENCODE` calls back exactly at DONE. -/
theorem releaseEncode_eq (s : State) :
    releaseEncode s = { s with ecalls := if s.e.ephase = .done then [] else s.ecalls } := by
  unfold releaseEncode
  split <;> rfl

/-- Settles O43: a held byte is refused, a free one is read or written; the status reads release at DONE. -/
theorem hostKeepsOffTheBuffersOfACall : Obligations.HostKeepsOffTheBuffersOfACall := by
  rintro s _ a b evs rfl
  refine ⟨fun hp ha => ?_, fun hp ha => ?_, fun hp => ?_, fun hp => ?_⟩
  · rw [step_of_pending hp]
    exact ⟨hostMemWrite_held (s := { s with pending := evs }) b ha,
      hostMemWrite_free (s := { s with pending := evs }) b ha⟩
  · rw [step_of_pending hp]
    exact ⟨hostMemRead_held (s := { s with pending := evs }) ha,
      hostMemRead_free (s := { s with pending := evs }) ha⟩
  · rw [step_of_pending hp]
    exact congrArg Host.Outcome.next (releaseDecode_eq _)
  · rw [step_of_pending hp]
    exact congrArg Host.Outcome.next (releaseEncode_eq _)

end Sys2Proof.Machine
end

section
/-! PROOFS. The command byte (30_encoding.md R71 to R78): the fields and the byte determine each other, so the
decoder answers a command exactly for the command's own byte, and refuses exactly the fields that are not legal. -/

namespace Sys2Proof

/-- The fields packed in a byte are read back. -/
@[simp] theorem fieldsOf_packFields (f : CommandFields) : fieldsOf (packFields f) = f := by
  obtain ⟨rsv, np, url, eng, fn⟩ := f
  simp only [fieldsOf, packFields, CommandFields.mk.injEq]
  refine ⟨?_, ?_, ?_, ?_, ?_⟩
  · ext i hi
    grind
  · grind
  · grind
  · grind
  · ext i hi
    grind

/-- The fields of a byte pack to that byte. -/
@[simp] theorem packFields_fieldsOf (b : Byte) : packFields (fieldsOf b) = b := by
  ext i hi
  grind [fieldsOf, packFields]

/-- A byte is a command's own exactly when its fields are the command's. -/
theorem eq_encode_iff {b : Byte} {i : Instr} : b = encode i ↔ fieldsOf b = i.fields := by
  constructor
  · rintro rfl
    exact fieldsOf_packFields _
  · intro h
    rw [encode, ← h, packFields_fieldsOf]

/-- Every command decodes from its fields. -/
theorem decodeFields_fields (i : Instr) : decodeFields i.fields = .ok i := by
  cases i with
  | decode => rfl
  | dec4 => rfl
  | encode url np => rfl
  | enc3 url => cases url <;> rfl

/-- A command decodes from no fields but its own. -/
theorem fields_of_decodeFields {f : CommandFields} {i : Instr} (h : decodeFields f = .ok i) : f = i.fields := by
  obtain ⟨rsv, np, url, eng, fn⟩ := f
  simp only [decodeFields, CommandFields.rsvZero, CommandFields.fnUsed, CommandFields.decodeModeClear,
    CommandFields.enc3PadClear] at h
  grind [Instr.fields]

/-- A byte decodes to a command exactly when it has the command's fields. -/
theorem decodeCommand_eq_ok_iff {b : Byte} {i : Instr} : decodeCommand b = .ok i ↔ fieldsOf b = i.fields := by
  constructor
  · exact fields_of_decodeFields
  · intro h
    rw [decodeCommand, h, decodeFields_fields]

/-- Every command decodes from its own byte. -/
@[simp] theorem decodeCommand_encode (i : Instr) : decodeCommand (encode i) = .ok i :=
  decodeCommand_eq_ok_iff.2 (eq_encode_iff.1 rfl)

/-- The decoder refuses exactly the fields that are not legal (30_encoding.md R78). -/
theorem decodeFields_error_iff {f : CommandFields} : (∃ why, decodeFields f = .error why) ↔ f.legal = false := by
  unfold decodeFields CommandFields.legal
  cases f.rsvZero with
  | false => simp
  | true =>
    cases f.fnUsed with
    | false => simp
    | true =>
      cases f.decodeModeClear with
      | false => simp
      | true =>
        cases f.enc3PadClear with
        | false => simp
        | true =>
          simp only [Bool.not_true, Bool.false_eq_true, if_false, Bool.and_self, Bool.true_eq_false]
          split <;> split <;> simp

/-- The unused functions are 0b00 and 0b11. -/
theorem fnUsed_eq_false_iff {f : CommandFields} : f.fnUsed = false ↔ f.fn = 0 ∨ f.fn = 3 := by
  unfold CommandFields.fnUsed
  generalize f.fn = fn
  revert fn
  decide

/-- The four ways of not being legal, one per check (30_encoding.md R78). -/
theorem legal_eq_false_iff {f : CommandFields} :
    f.legal = false ↔ f.rsv ≠ 0 ∨ f.fn = 0 ∨ f.fn = 3 ∨ (f.eng = false ∧ (f.url = true ∨ f.np = true)) ∨
      (f.eng = true ∧ f.fn = 2 ∧ f.np = true) := by
  have hrsv : f.rsvZero = false ↔ f.rsv ≠ 0 := by simp [CommandFields.rsvZero]
  have hmode : f.decodeModeClear = false ↔ f.eng = false ∧ (f.url = true ∨ f.np = true) := by
    simp [CommandFields.decodeModeClear, ← Bool.not_eq_false, imp_iff_not_or]
  have hpad : f.enc3PadClear = false ↔ f.eng = true ∧ f.fn = 2 ∧ f.np = true := by
    simp [CommandFields.enc3PadClear, and_assoc]
  simp only [CommandFields.legal, Bool.and_eq_false_iff, hrsv, fnUsed_eq_false_iff, hmode, hpad, or_assoc]

/-- Settles O1: the byte carries the fields, and the fields select the command. -/
theorem commandDecodesFromItsByte : Obligations.CommandDecodesFromItsByte :=
  fun i _ => decodeCommand_encode i

/-! ## The opcode map -/

/-- The mask of `ENCODE` leaves out the mode bits URL and NP (30_encoding.md R77). -/
theorem encode_mask_iff (b : Byte) :
    b &&& 0xE7 = 0x05 ↔ (fieldsOf b).rsv = 0 ∧ (fieldsOf b).eng = true ∧ (fieldsOf b).fn = 1 := by
  revert b
  decide

/-- The mask of `ENC3` leaves out the mode bit URL (30_encoding.md R77). -/
theorem enc3_mask_iff (b : Byte) :
    b &&& 0xF7 = 0x06 ↔
      (fieldsOf b).rsv = 0 ∧ (fieldsOf b).np = false ∧ (fieldsOf b).eng = true ∧ (fieldsOf b).fn = 2 := by
  revert b
  decide

/-- `DECODE` and `DEC4` have one byte each (30_encoding.md R77). -/
theorem decodeCommand_eq_decode_iff (b : Byte) :
    (decodeCommand b = .ok .decode ↔ b &&& 0xFF = 0x01) ∧ (decodeCommand b = .ok .dec4 ↔ b &&& 0xFF = 0x02) := by
  have hmask : b &&& 0xFF = b := BitVec.and_allOnes
  rw [hmask, decodeCommand_eq_ok_iff, decodeCommand_eq_ok_iff, ← eq_encode_iff, ← eq_encode_iff]
  exact ⟨.rfl, .rfl⟩

/-- `ENCODE` is selected by the bits under its mask; bits 3 and 4 are its modes (30_encoding.md R77). -/
theorem decodeCommand_eq_encode_iff (b : Byte) (url np : Bool) :
    decodeCommand b = .ok (.encode url np) ↔ b &&& 0xE7 = 0x05 ∧ b.getLsbD 3 = url ∧ b.getLsbD 4 = np := by
  rw [decodeCommand_eq_ok_iff, encode_mask_iff]
  simp only [Instr.fields, fieldsOf, CommandFields.mk.injEq]
  tauto

/-- `ENC3` is selected by the bits under its mask; bit 3 is its mode (30_encoding.md R77). -/
theorem decodeCommand_eq_enc3_iff (b : Byte) (url : Bool) :
    decodeCommand b = .ok (.enc3 url) ↔ b &&& 0xF7 = 0x06 ∧ b.getLsbD 3 = url := by
  rw [decodeCommand_eq_ok_iff, enc3_mask_iff]
  simp only [Instr.fields, fieldsOf, CommandFields.mk.injEq]
  tauto

/-- The legal bytes are the commands' own, with every value of the mode bits. -/
theorem decodeCommand_ok_iff_mem (b : Byte) :
    (∃ i, decodeCommand b = .ok i) ↔ b ∈ [(0x01 : Byte), 0x02, 0x05, 0x0D, 0x15, 0x1D, 0x06, 0x0E] := by
  constructor
  · rintro ⟨i, h⟩
    rw [decodeCommand_eq_ok_iff, ← eq_encode_iff] at h
    subst h
    cases i with
    | decode => decide
    | dec4 => decide
    | encode url np => revert url np; decide
    | enc3 url => revert url; decide
  · simp only [List.mem_cons, List.not_mem_nil, or_false]
    rintro (rfl | rfl | rfl | rfl | rfl | rfl | rfl | rfl) <;> exact ⟨_, rfl⟩

/-- Settles O2: a row of the opcode table says which fields its command has. -/
theorem legalBytesAreTheOpcodeMap : Obligations.LegalBytesAreTheOpcodeMap := fun b =>
  ⟨(decodeCommand_eq_decode_iff b).1, (decodeCommand_eq_decode_iff b).2, decodeCommand_eq_encode_iff b,
    decodeCommand_eq_enc3_iff b, decodeCommand_ok_iff_mem b⟩

/-- Settles O4: each byte read field by field. -/
theorem writtenOutBytesDecode : Obligations.WrittenOutBytesDecode := ⟨rfl, rfl, rfl, rfl, rfl, rfl⟩

end Sys2Proof
end

section
/-! PROOFS. The issue of a command (30_encoding.md R70, R78, R82): the write of its byte to CMD runs it in the
same step, a reserved byte is refused, and so is a command to a BUSY bank. -/

namespace Sys2Proof.Machine

/-- The write of a reserved byte is refused (30_encoding.md R78). -/
theorem step_of_reserved {s : State} {b : Byte} {evs : List Event} {why : Reserved}
    (hp : s.pending = .regWrite 0 (.byte b) :: evs) (hw : decodeCommand b = .error why) :
    step s = .refused (.reservedCommand why) := by
  rw [step_of_pending hp]
  simp only [perform, regWrite, regOf, issueCommand, hw]

/-- Settles O3: the reserved cases are those in which a check of `legal` fails. -/
theorem reservedBytesAreRefused : Obligations.ReservedBytesAreRefused :=
  ⟨fun _ => decodeFields_error_iff.trans legal_eq_false_iff, fun _ _ _ _ => step_of_reserved⟩

/-- Settles O5: the byte decodes, and the write hands the command to `exec`. -/
theorem stepRunsTheIssuedCommand : Obligations.StepRunsTheIssuedCommand :=
  fun _ _ _ _ hp hi _ => step_of_command hp hi

/-! ## A placed command (log entry 13) -/

/-- A table word names a command when its byte decodes to it. -/
theorem decodeTableWord_eq_some {nbits w : Nat} {i : Instr} :
    decodeTableWord nbits w = some i ↔ decodeCommand (commandByte nbits w) = .ok i := by
  unfold decodeTableWord
  split
  · next h => simp [h]
  · next h => simp [h]

/-- Preparing operands commutes with setting the event list. -/
theorem prepareOperands_setPending (i : Instr) (s : State) (evs : List Event) :
    prepareOperands i { s with pending := evs } = { prepareOperands i s with pending := evs } := by
  cases i with
  | decode => rfl
  | dec4 => rfl
  | encode url np => rfl
  | enc3 url => rfl

/-- Placing a legal byte puts its write first and prepares the command's operands. -/
theorem placeCommand_of_legal {b : Byte} {i : Instr} (h : decodeCommand b = .ok i) (s : State) :
    placeCommand b s = { prepareOperands i s with pending := .regWrite 0 (.byte b) :: s.pending } := by
  simp only [placeCommand, h, prepareOperands_setPending]

/-- Settles O6: the placed write is the next event, and taking it off leaves the prepared state. -/
theorem placedCommandRunsNext : Obligations.PlacedCommandRunsNext := by
  intro s w i hw
  have hi := decodeTableWord_eq_some.1 hw
  rw [State.withFetchWord, placeCommand_of_legal hi, step_of_command rfl hi]
  simp only [← prepareOperands_setPending]

/-! ## BUSY banks -/

/-- What is wrong with a call's buffers is never that the bank is BUSY. -/
theorem callBreach_ne_bankBusy (s : State) (c : Call) (other : Option Call) :
    callBreach s c other ≠ some .bankBusy := by
  unfold callBreach
  repeat' split
  all_goals simp

/-- The phase of the bank a command works in (30_encoding.md R72). -/
def bankPhase (i : Instr) (s : State) : Phase := if i.fields.eng then s.e.ephase else s.d.dphase

/-! The bank of each command. -/

theorem bankPhase_decode (s : State) : bankPhase .decode s = s.d.dphase := rfl
theorem bankPhase_dec4 (s : State) : bankPhase .dec4 s = s.d.dphase := rfl
theorem bankPhase_encode (url np : Bool) (s : State) : bankPhase (.encode url np) s = s.e.ephase := rfl
theorem bankPhase_enc3 (url : Bool) (s : State) : bankPhase (.enc3 url) s = s.e.ephase := rfl

/-- A `DECODE` is refused for what is wrong with it. -/
theorem exec_decode_refused_iff {s : State} {r : Refusal} :
    exec .decode s = .refused r ↔ decodeBreach s = some r := by
  simp only [exec, execDecode]
  split
  · next h => simp [h]
  · next h => simp [h]

/-- An `ENCODE` is refused for what is wrong with it. -/
theorem exec_encode_refused_iff {s : State} {url np : Bool} {r : Refusal} :
    exec (.encode url np) s = .refused r ↔ encodeBreach s np = some r := by
  simp only [exec, execEncode]
  split
  · next h => simp [h]
  · next h => simp [h]

/-- A command is refused for a BUSY bank exactly when the bank it works in is BUSY (30_encoding.md R82). -/
theorem exec_bankBusy_iff (i : Instr) (s : State) : exec i s = .refused .bankBusy ↔ bankPhase i s = .busy := by
  cases i with
  | decode =>
    rw [exec_decode_refused_iff, bankPhase_decode, decodeBreach]
    split
    · next h => simp [h]
    · next h =>
      split
      · simp [h]
      · simp [h, callBreach_ne_bankBusy]
  | dec4 =>
    rw [bankPhase_dec4, exec, execDec4]
    split
    · next h => simp [h]
    · next h => split <;> simp [h]
  | encode url np =>
    rw [exec_encode_refused_iff, bankPhase_encode, encodeBreach]
    split
    · next h => simp [h]
    · next h =>
      split
      · simp [h]
      · simp [h, callBreach_ne_bankBusy]
  | enc3 url =>
    rw [bankPhase_enc3, exec, execEnc3]
    split
    · next h => simp [h]
    · next h => split <;> simp [h]

/-- Settles O40: each command against its own bank. -/
theorem commandsToABusyBankAreRefused : Obligations.CommandsToABusyBankAreRefused := fun s =>
  ⟨fun h => ⟨(exec_bankBusy_iff .decode s).2 h, (exec_bankBusy_iff .dec4 s).2 h⟩,
    fun h url np => ⟨(exec_bankBusy_iff (.encode url np) s).2 h, (exec_bankBusy_iff (.enc3 url) s).2 h⟩,
    fun h => ⟨mt (exec_bankBusy_iff .decode s).1 h, mt (exec_bankBusy_iff .dec4 s).1 h⟩,
    fun h url np => ⟨mt (exec_bankBusy_iff (.encode url np) s).1 h, mt (exec_bankBusy_iff (.enc3 url) s).1 h⟩⟩

end Sys2Proof.Machine
end

section
/-! PROOFS. The host sequences (30_encoding.md R80, R81): each write sets its register, the write of CMD runs the
command on what the writes left, and a block sequence reads the result back. -/

namespace Sys2Proof.Machine

/-! Register events are the register port's own operations. -/

theorem perform_regWrite (n : Nat) (v : RegVal) (s : State) : perform (.regWrite n v) s = regWrite n v s := rfl
theorem perform_regRead (n : Nat) (s : State) : perform (.regRead n) s = regRead n s := rfl

/-- The write of a command's byte runs the command. -/
theorem perform_issue (i : Instr) (s : State) : perform (issue i) s = exec i s := by
  simp only [issue, perform_regWrite, regWrite, regOf, issueCommand, decodeCommand_encode]

/-! ## Whole calls -/

/-- The steps of `decode src, len, dst` are those of `DECODE` on the operands written. -/
theorem run_decodeSequence {s : State} {src len dst : Addr} {evs : List Event}
    (hsrc : src.toNat < 2 ^ s.aw.bits) (hlen : len.toNat < 2 ^ s.aw.bits) (hdst : dst.toNat < 2 ^ s.aw.bits)
    (hp : s.pending = decodeSequence src len dst ++ evs) (hb : s.d.dphase ≠ .busy) :
    Host.Core.run Sys2Proof.core 4 s = exec .decode { s with
      pending := evs
      d := { s.d with dsrc := ⟨src, true⟩, dlen := ⟨len, true⟩, ddst := ⟨dst, true⟩ } } := by
  simp only [Host.Core.run, core, step, takeTurn, hp, decodeSequence, List.cons_append, List.nil_append,
    perform_regWrite, regWrite_dBank_sets, hsrc, hlen, hdst, hb, ne_eq, not_false_eq_true, perform_issue]
  generalize exec .decode _ = o
  cases o with
  | next t => rfl
  | fault r => rfl
  | refused r => rfl

/-- The steps of `encode[.URL][.NP] src, len, dst` are those of `ENCODE` on the operands written. -/
theorem run_encodeSequence {s : State} {url np : Bool} {src len dst : Addr} {evs : List Event}
    (hsrc : src.toNat < 2 ^ s.aw.bits) (hlen : len.toNat < 2 ^ s.aw.bits) (hdst : dst.toNat < 2 ^ s.aw.bits)
    (hp : s.pending = encodeSequence url np src len dst ++ evs) (hb : s.e.ephase ≠ .busy) :
    Host.Core.run Sys2Proof.core 4 s = exec (.encode url np) { s with
      pending := evs
      e := { s.e with esrc := ⟨src, true⟩, elen := ⟨len, true⟩, edst := ⟨dst, true⟩ } } := by
  simp only [Host.Core.run, core, step, takeTurn, hp, encodeSequence, List.cons_append, List.nil_append,
    perform_regWrite, regWrite_eBank_sets, hsrc, hlen, hdst, hb, ne_eq, not_false_eq_true, perform_issue]
  generalize exec (.encode url np) _ = o
  cases o with
  | next t => rfl
  | fault r => rfl
  | refused r => rfl

/-- Settles O51: the three writes leave their operands, and the fourth step is the command on them. -/
theorem callSequencesIssueTheirCommand : Obligations.CallSequencesIssueTheirCommand :=
  fun _ _ _ _ _ _ _ hsrc hlen hdst => ⟨run_decodeSequence hsrc hlen hdst, run_encodeSequence hsrc hlen hdst⟩

/-! ## One block -/

/-- `DEC4` completes on a written `DDIN`. -/
theorem exec_dec4_of_written {s : State} (hb : s.d.dphase ≠ .busy) (hw : s.d.ddin.written = true) :
    exec .dec4 s = .next (finishDec4 s (combine (item s.d.ddin.val 0) (item s.d.ddin.val 1)
      (item s.d.ddin.val 2) (item s.d.ddin.val 3))) := by
  simp [exec, execDec4, hb, hw]

/-- The result of `ENC3`: the characters of `ENCBLOCK`, packed (42_encode.md R142). -/
def enc3Word (url : Bool) (w : Word) : Word :=
  let cs := encBlock url (item w 0) (item w 1) (item w 2)
  pack4 (byteAt cs 0) (byteAt cs 1) (byteAt cs 2) (byteAt cs 3)

/-- `ENC3` completes on a written `EDIN`. -/
theorem exec_enc3_of_written {s : State} (url : Bool) (hb : s.e.ephase ≠ .busy) (hw : s.e.edin.written = true) :
    exec (.enc3 url) s = .next (finishEnc3 s (enc3Word url s.e.edin.val)) := by
  simp [exec, execEnc3, enc3Word, hb, hw]

/-- A byte shifted to position `j` is item `j`, and every other item is 0 (30_encoding.md R76). -/
theorem item_shiftLeft (c : Byte) {j k : Nat} (hj : j < 4) (hk : k < 4) :
    item (c.setWidth 32 <<< (8 * j)) k = if k = j then c else 0 := by
  ext i hi
  simp only [item, BitVec.getElem_extractLsb', BitVec.getLsbD_shiftLeft, BitVec.getLsbD_setWidth]
  split
  · next h =>
    subst h
    grind
  · next h => grind

/-- Each item of packed items is the one packed there (30_encoding.md R76). -/
theorem items_pack4 (a b c d : Byte) :
    [item (pack4 a b c d) 0, item (pack4 a b c d) 1, item (pack4 a b c d) 2, item (pack4 a b c d) 3] =
      [a, b, c, d] := by
  have shifts : pack4 a b c d = a.setWidth 32 <<< (8 * 0) ||| b.setWidth 32 <<< (8 * 1) |||
      c.setWidth 32 <<< (8 * 2) ||| d.setWidth 32 <<< (8 * 3) := by simp [pack4]
  simp only [shifts, item_or, item_shiftLeft, Nat.reduceLT]
  simp

/-- The result of `ENC3` holds the four characters of the block. -/
theorem items_enc3Word (url : Bool) (w : Word) :
    [item (enc3Word url w) 0, item (enc3Word url w) 1, item (enc3Word url w) 2, item (enc3Word url w) 3] =
      encBlock url (item w 0) (item w 1) (item w 2) :=
  items_pack4 ..

/-- The steps of `dec4 w`: `DEC4` on `w`, and its result read. -/
theorem run_dec4Sequence {s : State} {w : Word} {evs : List Event}
    (hp : s.pending = dec4Sequence w ++ evs) (hb : s.d.dphase ≠ .busy) :
    let c := combine (item w 0) (item w 1) (item w 2) (item w 3)
    Host.Core.run Sys2Proof.core 3 s = .next (returnValue
      (finishDec4 { s with pending := evs, d := { s.d with ddin := ⟨w, true⟩ } } c) (.word c)) := by
  simp only [Host.Core.run, core, step, takeTurn, hp, dec4Sequence, List.cons_append, List.nil_append,
    perform_regWrite, regWrite_ddin_sets, hb, ne_eq, not_false_eq_true, perform_issue, exec_dec4_of_written,
    finishDec4_pending, perform_regRead]
  rfl

/-- The steps of `enc3[.URL] w`: `ENC3` on `w`, and its result read. -/
theorem run_enc3Sequence {s : State} {url : Bool} {w : Word} {evs : List Event}
    (hp : s.pending = enc3Sequence url w ++ evs) (hb : s.e.ephase ≠ .busy) :
    Host.Core.run Sys2Proof.core 3 s = .next (returnValue
      (finishEnc3 { s with pending := evs, e := { s.e with edin := ⟨w, true⟩ } } (enc3Word url w))
      (.word (enc3Word url w))) := by
  simp only [Host.Core.run, core, step, takeTurn, hp, enc3Sequence, List.cons_append, List.nil_append,
    perform_regWrite, regWrite_edin_sets, hb, ne_eq, not_false_eq_true, perform_issue, exec_enc3_of_written,
    finishEnc3_pending, perform_regRead]
  rfl

/-- Settles O50: the end states are known, and the parts are read off them. -/
theorem oneBlockSequencesReturnTheirResult : Obligations.OneBlockSequencesReturnTheirResult := by
  intro s w url evs
  constructor
  · intro hp hb
    exact ⟨_, run_dec4Sequence hp hb, by simp⟩
  · intro hp hb
    exact ⟨_, enc3Word url w, run_enc3Sequence hp hb, by simp, items_enc3Word url w, by simp⟩

end Sys2Proof.Machine
end

section
/-! PROOFS. The two alphabets decode alike (40_table_builder.md R106): `standardChar` changes no symbol value and
no pad, so no table slot, no block and no text sees it. -/

namespace Sys2Proof.Machine

@[simp] theorem sym_standardChar (c : Byte) : sym (standardChar c) = sym c := by
  unfold standardChar
  split
  · next h => rw [h]; rfl
  · split
    · next h => rw [h]; rfl
    · rfl

/-- No character becomes a pad or stops being one. -/
@[simp] theorem standardChar_eq_padChar_iff (c : Byte) : standardChar c = padChar ↔ c = padChar := by
  unfold standardChar
  split
  · next h => rw [h]; decide
  · split
    · next h => rw [h]; decide
    · rfl

@[simp] theorem standardChar_neutralChar : standardChar neutralChar = neutralChar := rfl

@[simp] theorem slot_standardChar (entry : Sym → Word) (c : Byte) : slot entry (standardChar c) = slot entry c := by
  simp only [slot, sym_standardChar]

@[simp] theorem combine_standardChar (c0 c1 c2 c3 : Byte) :
    combine (standardChar c0) (standardChar c1) (standardChar c2) (standardChar c3) = combine c0 c1 c2 c3 := by
  simp only [combine, dt0, dt1, dt2, dt3, slot_standardChar]

@[simp] theorem charAt_map_standardChar (bs : List Byte) (k : Nat) :
    charAt (bs.map standardChar) k = standardChar (charAt bs k) :=
  List.getD_map (d := neutralChar) ..

@[simp] theorem trimOf_map_standardChar (bs : List Byte) : trimOf (bs.map standardChar) = trimOf bs := by
  simp [trimOf]

@[simp] theorem impossibleRemainder_standardChar (r : Nat) (c : Byte) :
    impossibleRemainder r (standardChar c) = impossibleRemainder r c := by
  simp only [impossibleRemainder, beq_eq_decide, standardChar_eq_padChar_iff]

@[simp] theorem finalWord_map_standardChar (bs : List Byte) : finalWord (bs.map standardChar) = finalWord bs := by
  have neutral (p : Prop) [Decidable p] (c : Byte) :
      (if p then neutralChar else standardChar c) = standardChar (if p then neutralChar else c) := by
    rw [apply_ite standardChar, standardChar_neutralChar]
  simp only [finalWord, trimOf_map_standardChar, charAt_map_standardChar, neutral, combine_standardChar]

@[simp] theorem interiorBlock_map_standardChar (b : Bool) (bs : List Byte) :
    interiorBlock b (bs.map standardChar) = interiorBlock b bs := by
  simp [interiorBlock]

@[simp] theorem finalBlock_map_standardChar (b : Bool) (bs : List Byte) :
    finalBlock b (bs.map standardChar) = finalBlock b bs := by
  simp [finalBlock]

/-- Along the blocks of a text: each interior block, then the final one, is what it was. -/
theorem decodeBlocks_map_standardChar (b : Bool) : (t : List Byte) →
    decodeBlocks b (t.map standardChar) = decodeBlocks b t
  | [] => rfl
  | c0 :: c1 :: c2 :: c3 :: c4 :: t => by
    have rest := decodeBlocks_map_standardChar (interiorBlock b [c0, c1, c2, c3]).dbad (c4 :: t)
    have block := interiorBlock_map_standardChar b [c0, c1, c2, c3]
    simp only [List.map_cons, List.map_nil] at rest block ⊢
    simp only [decodeBlocks, block, rest]
  | [c0] => finalBlock_map_standardChar b [c0]
  | [c0, c1] => finalBlock_map_standardChar b [c0, c1]
  | [c0, c1, c2] => finalBlock_map_standardChar b [c0, c1, c2]
  | [c0, c1, c2, c3] => finalBlock_map_standardChar b [c0, c1, c2, c3]

/-- Settles O10, block by block; the slots are those of `standardChar 0x2D` and `standardChar 0x5F`. -/
theorem bothAlphabetsDecodeAlike : Obligations.BothAlphabetsDecodeAlike :=
  have plus (entry : Sym → Word) : slot entry 0x2B = slot entry 0x2D := slot_standardChar entry 0x2D
  have slash (entry : Sym → Word) : slot entry 0x2F = slot entry 0x5F := slot_standardChar entry 0x5F
  ⟨⟨plus _, plus _, plus _, plus _⟩, ⟨slash _, slash _, slash _, slash _⟩, decodeBlocks_map_standardChar false⟩

end Sys2Proof.Machine
end

section
/-! PROOFS. The constant tables and their construction (40_table_builder.md R90 to R103): the slots the
construction writes are those of the characters with a symbol value, each with that value. -/

namespace Sys2Proof.Machine

theorem slot_of_sym_none (entry : Sym → Word) {c : Byte} (h : sym c = none) : slot entry c = badMarker := by
  rw [slot, h]

theorem slot_of_sym_some (entry : Sym → Word) {c : Byte} {i : Sym} (h : sym c = some i) : slot entry c = entry i := by
  rw [slot, h]

/-- A character of either encode table has its index as its symbol value (40_table_builder.md R103). -/
theorem sym_encodeTable : ∀ (url : Bool) (i : Sym), sym (encodeTable url i) = some i := by decide

/-- The walk visits the standard alphabet in order of value (40_table_builder.md R93). -/
theorem walkedAlphabet_eq : walkedAlphabet = (List.range 64).map fun k => etStd (BitVec.ofNat 6 k) := rfl

theorem builtUrlAlphabet_eq : builtUrlAlphabet = (List.range 64).map fun k => etUrl (BitVec.ofNat 6 k) := rfl

/-- An alphabet in order of value holds the character of `i` at place `i`. -/
theorem alphabet_getElem? (et : Sym → Byte) (i : Sym) :
    ((List.range 64).map fun k => et (BitVec.ofNat 6 k))[i.toNat]? = some (et i) := by
  simp [i.isLt]

/-- Each slot the construction writes is that of a character with the written symbol value. -/
theorem sym_of_mem_walkedSlots : ∀ p ∈ walkedSlots, sym p.1 = some (BitVec.ofNat 6 p.2) := by decide

/-- Every character with a symbol value has its slot written: it stands in one of the encode tables. -/
theorem mem_walkedSlots_of_sym {c : Byte} (h : (sym c).isSome) : c ∈ walkedSlots.map Prod.fst := by
  revert c
  decide

/-- One slot overwritten. -/
theorem set_slot {t : List Word} {c : Byte} {w : Word} (h : t[c.toNat]? = some w) (k : Byte) (v : Word) :
    (t.set k.toNat v)[c.toNat]? = some (if c = k then v else w) := by
  obtain ⟨hc, -⟩ := List.getElem?_eq_some_iff.1 h
  by_cases hk : c = k
  · rw [if_pos hk, ← hk, List.getElem?_set_self hc]
  · rw [if_neg hk, List.getElem?_set_ne (fun e => hk (BitVec.eq_of_toNat_eq e.symm)), h]

/-- Slots overwritten with the values their characters have: a slot holds its character's entry once it is
written, and what stood there until then. -/
theorem overwrite_slots (entry : Sym → Word) (c : Byte) {ps : List (Byte × Nat)}
    (hs : ∀ p ∈ ps, sym p.1 = some (BitVec.ofNat 6 p.2)) {t : List Word} {w : Word} (h : t[c.toNat]? = some w) :
    (ps.foldl (fun t p => t.set p.1.toNat (entry (BitVec.ofNat 6 p.2))) t)[c.toNat]? =
      some (if c ∈ ps.map Prod.fst then slot entry c else w) := by
  induction ps generalizing t w with
  | nil => simpa using h
  | cons p ps ih =>
    have hp : slot entry p.1 = entry (BitVec.ofNat 6 p.2) := slot_of_sym_some entry (hs p List.mem_cons_self)
    rw [List.foldl_cons, ih (fun q hq => hs q (List.mem_cons_of_mem _ hq)) (set_slot h _ _), ← hp]
    by_cases hc : c = p.1
    · simp [hc]
    · simp only [List.map_cons, List.mem_cons, hc, false_or, if_false]

/-- Slot by slot the construction builds the table. -/
theorem builtTable_getElem? (entry : Sym → Word) (c : Byte) : (builtTable entry)[c.toNat]? = some (slot entry c) := by
  rw [builtTable, overwrite_slots entry c sym_of_mem_walkedSlots (List.getElem?_replicate_of_lt c.isLt)]
  split
  · rfl
  · next h =>
    have hc : sym c = none := Option.not_isSome_iff_eq_none.1 fun hc => h (mem_walkedSlots_of_sym hc)
    rw [slot_of_sym_none entry hc]

/-- 66 bytes have a symbol value; counted 64 bytes at a time. -/
theorem countP_sym : (List.range 256).countP (fun n => (sym (BitVec.ofNat 8 n)).isSome) = 66 := by
  rw [show 256 = 64 + 64 + 64 + 64 from rfl]
  simp only [List.range_add, List.countP_append, List.countP_map]
  decide

/-- Settles O8: the walk fills exactly the slots of the characters with a symbol value. -/
theorem tablesEqualTheirConstruction : Obligations.TablesEqualTheirConstruction :=
  ⟨fun c => ⟨builtTable_getElem? _ c, builtTable_getElem? _ c, builtTable_getElem? _ c, builtTable_getElem? _ c⟩,
    fun i => by
      rw [walkedAlphabet_eq, builtUrlAlphabet_eq]
      exact ⟨alphabet_getElem? etStd i, alphabet_getElem? etUrl i⟩,
    fun i => ⟨sym_encodeTable false i, sym_encodeTable true i⟩⟩

/-- Settles O9: a slot follows the symbol value alone. -/
theorem otherBytesHoldTheBadMarker : Obligations.OtherBytesHoldTheBadMarker :=
  ⟨fun _ h => ⟨slot_of_sym_none _ h, slot_of_sym_none _ h, slot_of_sym_none _ h, slot_of_sym_none _ h⟩, rfl,
    countP_sym⟩

end Sys2Proof.Machine
end

section
/-! PROOFS. The combined word of a block (41_decode.md R110 to R113): its flag byte is set exactly by a character
outside the alphabet, and its lanes are the bytes of the block; `SPLIT` is undone by it (42_encode.md R140). -/

namespace Sys2Proof.Machine

/-! ## The flag byte -/

/-! The lanes of the table entries (40_table_builder.md R98 to R101). -/

theorem items_entry0 : ∀ s : Sym, item (entry0 s) 0 = s.setWidth 8 <<< 2 ∧ item (entry0 s) 1 = 0 ∧
    item (entry0 s) 2 = 0 ∧ item (entry0 s) 3 = 0 := by decide

theorem items_entry1 : ∀ s : Sym, item (entry1 s) 0 = s.setWidth 8 >>> 4 ∧
    item (entry1 s) 1 = (s.setWidth 8 &&& 0xF) <<< 4 ∧ item (entry1 s) 2 = 0 ∧ item (entry1 s) 3 = 0 := by decide

theorem items_entry2 : ∀ s : Sym, item (entry2 s) 0 = 0 ∧ item (entry2 s) 1 = s.setWidth 8 >>> 2 ∧
    item (entry2 s) 2 = (s.setWidth 8 &&& 0x3) <<< 6 ∧ item (entry2 s) 3 = 0 := by decide

theorem items_entry3 : ∀ s : Sym, item (entry3 s) 0 = 0 ∧ item (entry3 s) 1 = 0 ∧
    item (entry3 s) 2 = s.setWidth 8 ∧ item (entry3 s) 3 = 0 := by decide

/-- The flag byte of a table slot is 1 for a byte outside the alphabet (40_table_builder.md R95). -/
theorem item_slot_three {entry : Sym → Word} (h : ∀ s, item (entry s) 3 = 0) (c : Byte) :
    item (slot entry c) 3 = if sym c = none then 1 else 0 := by
  cases hc : sym c with
  | none => simp [slot_of_sym_none entry hc, item, badMarker]
  | some s => simp [slot_of_sym_some entry hc, h]

/-- Flags accumulate by OR. -/
theorem flag_or (p q : Prop) [Decidable p] [Decidable q] :
    (if p then 1 else 0) ||| (if q then 1 else 0) = if p ∨ q then (1 : Byte) else 0 := by
  by_cases hp : p <;> by_cases hq : q <;> simp [hp, hq]

/-- The flag byte of a combined word is 1 for a block with a character outside the alphabet. -/
theorem item_combine_three (c0 c1 c2 c3 : Byte) : item (combine c0 c1 c2 c3) 3 =
    if ((sym c0 = none ∨ sym c1 = none) ∨ sym c2 = none) ∨ sym c3 = none then 1 else 0 := by
  have h0 := item_slot_three (fun s => (items_entry0 s).2.2.2) c0
  have h1 := item_slot_three (fun s => (items_entry1 s).2.2.2) c1
  have h2 := item_slot_three (fun s => (items_entry2 s).2.2.2) c2
  have h3 := item_slot_three (fun s => (items_entry3 s).2.2.2) c3
  simp only [combine, item_or, dt0, dt1, dt2, dt3, h0, h1, h2, h3, flag_or]

/-- The bad-bit says that the flag byte is not zero. -/
theorem bad_eq_item (w : Word) : bad w = (item w 3 != 0) := rfl

/-- A combined word is bad exactly when some character is outside the alphabet. -/
theorem bad_combine (c0 c1 c2 c3 : Byte) : bad (combine c0 c1 c2 c3) =
    ((sym c0).isNone || (sym c1).isNone || (sym c2).isNone || (sym c3).isNone) := by
  rw [bad_eq_item, item_combine_three, Bool.eq_iff_iff]
  split
  · next h => simpa using h
  · next h => simpa using h

/-! ## The lanes -/

/-- The lanes of a block of data characters (41_decode.md R111, the bit layout). -/
theorem items_combine {c0 c1 c2 c3 : Byte} {s0 s1 s2 s3 : Sym} (h0 : sym c0 = some s0) (h1 : sym c1 = some s1)
    (h2 : sym c2 = some s2) (h3 : sym c3 = some s3) :
    item (combine c0 c1 c2 c3) 0 = (s0.setWidth 8 <<< 2) ||| (s1.setWidth 8 >>> 4) ∧
    item (combine c0 c1 c2 c3) 1 = ((s1.setWidth 8 &&& 0xF) <<< 4) ||| (s2.setWidth 8 >>> 2) ∧
    item (combine c0 c1 c2 c3) 2 = ((s2.setWidth 8 &&& 0x3) <<< 6) ||| s3.setWidth 8 := by
  simp only [combine, item_or, dt0, dt1, dt2, dt3, slot_of_sym_some _ h0, slot_of_sym_some _ h1,
    slot_of_sym_some _ h2, slot_of_sym_some _ h3, items_entry0, items_entry1, items_entry2, items_entry3]
  simp

/-- A byte of high bits over `i` low bits counts as both. -/
theorem toNat_shiftLeft_or {a b : Byte} {i : Nat} (ha : a.toNat * 2 ^ i < 2 ^ 8) (hb : b.toNat < 2 ^ i) :
    (a <<< i ||| b).toNat = a.toNat * 2 ^ i + b.toNat := by
  rw [BitVec.toNat_or, BitVec.toNat_shiftLeft, Nat.shiftLeft_eq, Nat.mod_eq_of_lt ha, ← Nat.shiftLeft_eq,
    Nat.shiftLeft_add_eq_or_of_lt hb]

/-- The lanes of the bit layout are the 24-bit number of the four symbols (41_decode.md R111). -/
theorem lanes_toNat (s0 s1 s2 s3 : Sym) :
    ((s0.setWidth 8 <<< 2) ||| (s1.setWidth 8 >>> 4) : Byte).toNat * 2 ^ 16 +
        (((s1.setWidth 8 &&& 0xF) <<< 4) ||| (s2.setWidth 8 >>> 2) : Byte).toNat * 2 ^ 8 +
        (((s2.setWidth 8 &&& 0x3) <<< 6) ||| s3.setWidth 8 : Byte).toNat =
      s0.toNat * 2 ^ 18 + s1.toNat * 2 ^ 12 + s2.toNat * 2 ^ 6 + s3.toNat := by
  have low4 : ∀ s : Sym, (s.setWidth 8 &&& 0xF : Byte).toNat = s.toNat % 16 := by decide
  have low2 : ∀ s : Sym, (s.setWidth 8 &&& 0x3 : Byte).toNat = s.toNat % 4 := by decide
  have width : ∀ s : Sym, (s.setWidth 8 : Byte).toNat = s.toNat := by decide
  have h0 := s0.isLt
  have h1 := s1.isLt
  have h2 := s2.isLt
  have h3 := s3.isLt
  rw [toNat_shiftLeft_or, toNat_shiftLeft_or, toNat_shiftLeft_or]
  all_goals
    simp only [BitVec.toNat_ushiftRight, Nat.shiftRight_eq_div_pow, low4, low2, width]
    omega

/-- The data fields of a table slot are what the character contributes (41_decode.md R111). -/
theorem slot_and_data {entry : Sym → Word} (h : ∀ s, entry s &&& 0x00FFFFFF = entry s) (c : Byte) :
    slot entry c &&& 0x00FFFFFF = contribution entry c := by
  cases hc : sym c with
  | none => simp only [slot_of_sym_none entry hc, contribution, hc]; rfl
  | some s => simp only [slot_of_sym_some entry hc, contribution, hc, h]

/-- The data fields of a combined word are what the characters contribute (41_decode.md R111). -/
theorem combine_and_data (c0 c1 c2 c3 : Byte) : combine c0 c1 c2 c3 &&& 0x00FFFFFF =
    contribution entry0 c0 ||| contribution entry1 c1 ||| contribution entry2 c2 ||| contribution entry3 c3 := by
  simp only [combine, BitVec.and_or_distrib_right, dt0, dt1, dt2, dt3]
  rw [slot_and_data (by decide), slot_and_data (by decide), slot_and_data (by decide), slot_and_data (by decide)]

/-- The pad has no symbol value (40_table_builder.md R97). -/
@[simp] theorem sym_padChar : sym padChar = none := rfl

/-- Settles O11: the flag byte, the lanes and the data fields, each read off the table slots. -/
theorem combineFollowsTheBitLayout : Obligations.CombineFollowsTheBitLayout := by
  intro c0 c1 c2 c3
  refine ⟨fun s0 s1 s2 s3 h0 h1 h2 h3 => ?_, fun h => ?_, sym_padChar⟩
  · obtain ⟨l0, l1, l2⟩ := items_combine h0 h1 h2 h3
    refine ⟨by simp [bad_combine, h0, h1, h2, h3], l0, l1, l2, ?_⟩
    rw [l0, l1, l2, lanes_toNat]
  · have flag : item (combine c0 c1 c2 c3) 3 = 1 := by
      rw [item_combine_three, if_pos (by simpa only [or_assoc] using h)]
    exact ⟨by rw [bad_eq_item, flag]; rfl, flag, combine_and_data c0 c1 c2 c3⟩

/-! ## `DEC4` -/

/-- Settles O13: `DEC4` completes with the combined word of the block, whose bad-bit is the result. -/
theorem dec4DecodesOneBlock : Obligations.Dec4DecodesOneBlock := by
  intro s hb hw
  rw [exec_dec4_of_written hb hw, finishDec4, bad_combine]
  simp only [List.any_cons, List.any_nil, Bool.or_false, Bool.or_assoc]
  rfl

/-- The decode equations give the bytes of `SPLIT` back (42_encode.md R140). -/
theorem lanes_split (b0 b1 b2 : Byte) :
    ((split0 b0).setWidth 8 <<< 2) ||| ((split1 b0 b1).setWidth 8 >>> 4) = b0 ∧
    (((split1 b0 b1).setWidth 8 &&& 0xF) <<< 4) ||| ((split2 b1 b2).setWidth 8 >>> 2) = b1 ∧
    (((split2 b1 b2).setWidth 8 &&& 0x3) <<< 6) ||| (split3 b2).setWidth 8 = b2 := by
  refine ⟨?_, ?_, ?_⟩
  all_goals
    ext i hi
    interval_cases i <;> simp [split0, split1, split2, split3]

/-- A word is its four items (30_encoding.md R76). -/
theorem word_ext_items {v w : Word} (h : ∀ k < 4, item v k = item w k) : v = w := by
  ext i hi
  have hk := congrArg (BitVec.getLsbD · (i % 8)) (h (i / 8) (by omega))
  have hmod : i % 8 < 8 := by omega
  simp only [item, BitVec.getLsbD_extractLsb', hmod, Nat.div_add_mod] at hk
  simpa [hi] using hk

/-- The characters of an encoded block combine to its three bytes, in either alphabet. -/
theorem combine_encBlock (url : Bool) (w : Word) :
    combine (encodeTable url (split0 (item w 0))) (encodeTable url (split1 (item w 0) (item w 1)))
      (encodeTable url (split2 (item w 1) (item w 2))) (encodeTable url (split3 (item w 2))) =
      w &&& 0x00FFFFFF := by
  obtain ⟨b0, b1, b2⟩ := lanes_split (item w 0) (item w 1) (item w 2)
  obtain ⟨l0, l1, l2⟩ := items_combine (sym_encodeTable url (split0 (item w 0)))
    (sym_encodeTable url (split1 (item w 0) (item w 1))) (sym_encodeTable url (split2 (item w 1) (item w 2)))
    (sym_encodeTable url (split3 (item w 2)))
  have item_and (k : Nat) : item (w &&& 0x00FFFFFF) k = item w k &&& item 0x00FFFFFF k :=
    BitVec.extractLsb'_and
  have mask (b : Byte) : b &&& 0xFF = b := BitVec.and_allOnes
  refine word_ext_items fun k hk => ?_
  rw [item_and]
  interval_cases k
  · exact l0.trans (b0.trans (mask _).symm)
  · exact l1.trans (b1.trans (mask _).symm)
  · exact l2.trans (b2.trans (mask _).symm)
  · have top : item (0x00FFFFFF : Word) 3 = 0 := by decide
    rw [item_combine_three, top]
    simp [sym_encodeTable]

/-- Settles O15: `DEC4` combines the characters `ENC3` packed, and finds each in the alphabet. -/
theorem dec4UndoesEnc3 : Obligations.Dec4UndoesEnc3 := by
  intro s url hd he hw
  have hitems := items_enc3Word url s.e.edin.val
  simp only [encBlock, List.cons.injEq, and_true] at hitems
  obtain ⟨i0, i1, i2, i3⟩ := hitems
  refine ⟨_, _, exec_enc3_of_written url he hw, exec_dec4_of_written hd rfl, ?_, ?_⟩
  · simp only [finishDec4_ddout, finishEnc3_edout, Held.put, i0, i1, i2, i3, combine_encBlock]
  · simp [Held.put, i0, i1, i2, i3, bad_combine, sym_encodeTable]

end Sys2Proof.Machine
end

section
/-! PROOFS. What a command leaves of its own bank, when `DECODE` is accepted, and whose turn a step is
(30_encoding.md R75; 41_decode.md R113 to R115; 60_exceptions.md R187). -/

namespace Sys2Proof.Machine

/-- A command changes no operand register (10_state.md R30, R32). -/
theorem exec_keeps_operands {i : Instr} {s t : State} (h : exec i s = .next t) :
    (t.d.dsrc = s.d.dsrc ∧ t.d.dlen = s.d.dlen ∧ t.d.ddst = s.d.ddst ∧ t.d.ddin = s.d.ddin) ∧
    (t.e.esrc = s.e.esrc ∧ t.e.elen = s.e.elen ∧ t.e.edst = s.e.edst ∧ t.e.edin = s.e.edin) := by
  obtain ⟨-, -, -, -, rfl⟩ | ⟨-, -, -, rfl⟩ | ⟨_, _, -, -, -, -, rfl⟩ | ⟨_, _, -, -, -, rfl⟩ := exec_cases h
  · simp
  · simp
  · simp
  · simp

/-- Settles O47: the end state of each command is known, and what it keeps is read off it. -/
theorem commandsLeaveTheRestOfTheirBank : Obligations.CommandsLeaveTheRestOfTheirBank := by
  intro i s t h
  obtain ⟨hd, he⟩ := exec_keeps_operands h
  refine ⟨hd, he, ?_⟩
  obtain ⟨rfl, -, -, -, rfl⟩ | ⟨rfl, -, -, rfl⟩ | ⟨_, _, rfl, -, -, -, rfl⟩ | ⟨_, _, rfl, -, -, rfl⟩ := exec_cases h
  · simp
  · simp
  · simp
  · simp

/-- Settles O16: acceptance is what the model checks, and what it checks are the preconditions. -/
theorem decodeIsAcceptedUnderItsPreconditions : Obligations.DecodeIsAcceptedUnderItsPreconditions := by
  intro s
  constructor
  · intro h
    rw [exec_decode_of_acceptable h, decodeRanges_eq]
    rfl
  · intro h
    obtain ⟨r, hr⟩ := Option.ne_none_iff_exists'.1 (mt decodeBreach_eq_none_iff.1 h)
    exact ⟨r, exec_decode_refused_iff.2 hr⟩

/-- With nothing pending and both engines BUSY, the step is a turn of either. -/
theorem step_quiet_both {s : State} (hp : s.pending = []) (hd : s.d.dphase = .busy) (he : s.e.ephase = .busy) :
    step s = decStep (useFree s) ∨ step s = encStep (useFree s) := by
  simp only [step, takeTurn, hp, quietStep, hd, he, if_true]
  split
  · exact .inl rfl
  · exact .inr rfl

/-- The turn of ENC passes when it is not BUSY (log entry 5). -/
theorem encStep_idle {s : State} (he : s.e.ephase ≠ .busy) : encStep s = .next s := if_neg he

/-- Settles O7: the event says whose turn it is, and with none pending the phases do. -/
theorem turnsRunTheEngines : Obligations.TurnsRunTheEngines := fun _ =>
  ⟨fun _ hp => step_of_pending hp, fun _ hp => step_of_pending hp,
    step_quiet_decode, fun hp hd _ => step_quiet_encode hp hd, step_quiet_both,
    fun hp hd he => (step_quiet_encode hp hd).trans (encStep_idle he)⟩

end Sys2Proof.Machine
end

section
/-! PROOFS. The steps of DEC, to the last field (41_decode.md R121, R122, R124), and the call they make up
(R125, R126). -/

namespace Sys2Proof.Machine

/-! ## Blocks through the write gate -/

/-- A block with the bad-bit set writes nothing. -/
theorem gatedBlock_of_bad {d : Bool} {w : Word} (h : (d || bad w) = true) (n : Nat) :
    gatedBlock d w n = ⟨true, true, []⟩ := by
  simp only [gatedBlock, h, if_true]

/-- A block with the bad-bit clear writes its bytes. -/
theorem gatedBlock_of_good {d : Bool} {w : Word} (h : (d || bad w) = false) (n : Nat) :
    gatedBlock d w n = ⟨false, false, outputBytes w n⟩ := by
  simp only [gatedBlock, h, if_false, Bool.false_eq_true]

/-- A character of a fetched block, or the neutral symbol past its end (41_decode.md R122 step 1). -/
theorem charAt_readBytes_eq (m : Memory) (a n k : Nat) :
    charAt (m.readBytes a n) k = if k < n then m.read (a + k) else neutralChar := by
  rw [charAt, List.getD_eq_getElem?_getD, getElem?_readBytes]
  split
  · rfl
  · rfl

/-- The interior block DEC has before it, on the characters in memory. -/
theorem nextInterior_eq (s : State) : nextInterior s = gatedBlock s.d.dbad
    (combine (s.mem.read (decInput s)) (s.mem.read (decInput s + 1)) (s.mem.read (decInput s + 2))
      (s.mem.read (decInput s + 3))) 3 := by
  simp [nextInterior, interiorBlock, charAt_readBytes]

/-- Settles O17: the write gate blocks the bytes or lets them through, and the turn is known in either case. -/
theorem interiorStepOfDec : Obligations.InteriorStepOfDec := by
  rintro s _ _ w b hb h4 rfl rfl hw hbad hin hout
  have hnext : nextInterior s = gatedBlock s.d.dbad w 3 := hw ▸ nextInterior_eq s
  cases b with
  | true =>
    rw [gatedBlock_of_bad hbad.symm] at hnext
    rw [decStep_interior hb h4 hin (by rw [hnext]; exact .inl rfl), hnext]
    simp only [decAdvance, decWrites, List.length_nil, advance_zero, if_true]
    rfl
  | false =>
    rw [gatedBlock_of_good hbad.symm] at hnext
    rw [decStep_interior hb h4 hin (by rw [hnext]; exact .inr (hout rfl)), hnext]
    rfl

/-- The final block DEC has before it, when it is not an impossible remainder. -/
theorem nextFinal_eq {s : State} {c : Nat → Byte}
    (hc : ∀ k, c k = if k < decRem s then s.mem.read (decInput s + k) else 0x41) : nextFinal s =
      if impossibleRemainder (decRem s) (c 1) then ⟨s.d.dbad, true, []⟩
      else
        let trim := if c 3 = 0x3D then (if c 2 = 0x3D then 2 else 1) else 0
        gatedBlock s.d.dbad (combine (c 0) (c 1) (if trim = 2 then 0x41 else c 2) (if 1 ≤ trim then 0x41 else c 3))
          (decRem s - trim - 1) := by
  have hchar (k : Nat) : charAt (s.mem.readBytes (decInput s) (decRem s)) k = c k :=
    (charAt_readBytes_eq ..).trans (hc k).symm
  simp only [nextFinal, finalBlock, finalWord, trimOf, hchar, length_readBytes]
  rfl

/-- The final step on an impossible remainder (41_decode.md R122 step 3). -/
theorem decStep_impossible {s : State} (hb : s.d.dphase = .busy) (h0 : 0 < decRem s) (hr : decRem s ≤ 4)
    (hin : decInput s + decRem s ≤ 2 ^ s.aw.bits) (hnext : nextFinal s = ⟨s.d.dbad, true, []⟩) :
    decStep s = .next { s with d := { s.d with inv := true, didx := s.d.dlen.val, dphase := .done } } := by
  rw [decStep_final hb h0.ne' hr hin (by rw [hnext]; exact .inl rfl), hnext]
  simp only [decFinish, decWrites, List.length_nil, advance_zero]
  rfl

/-- The final step on a block that goes through the write gate (41_decode.md R122 step 4, R124). -/
theorem decStep_gated {s : State} {w : Word} {n : Nat} {b : Bool} (hb : s.d.dphase = .busy) (h0 : 0 < decRem s)
    (hr : decRem s ≤ 4) (hin : decInput s + decRem s ≤ 2 ^ s.aw.bits) (hn : n ≤ 3)
    (hnext : nextFinal s = gatedBlock s.d.dbad w n) (hbad : b = (s.d.dbad || bad w))
    (hout : b = false → decOutput s + n ≤ 2 ^ s.aw.bits) :
    decStep s = .next { s with
      mem := if b then s.mem else s.mem.writeBytes (decOutput s) (outputBytes w n)
      d := { s.d with
        dbad := b
        doutlen := if b then s.d.doutlen else s.d.doutlen + BitVec.ofNat 64 n
        inv := b
        didx := s.d.dlen.val
        dphase := .done } } := by
  cases b with
  | true =>
    rw [gatedBlock_of_bad hbad.symm] at hnext
    rw [decStep_final hb h0.ne' hr hin (by rw [hnext]; exact .inl rfl), hnext]
    simp only [decFinish, decWrites, List.length_nil, advance_zero]
    rfl
  | false =>
    have hlen := outputBytes_length w hn
    rw [gatedBlock_of_good hbad.symm] at hnext
    rw [decStep_final hb h0.ne' hr hin (by rw [hnext, hlen]; exact .inr (hout rfl)), hnext]
    simp only [hlen]
    rfl

/-- Settles O18: nothing left, the impossible remainder, or the last block through the write gate. -/
theorem finalStepOfDec : Obligations.FinalStepOfDec := by
  rintro s r _ _ c hb (hrem : r = decRem s) hr rfl rfl hc
  subst hrem
  have himpossible : impossibleRemainder (decRem s) (c 1) = true ↔
      decRem s = 1 ∨ (decRem s = 2 ∧ c 1 = 0x3D) := by
    simp [impossibleRemainder, padChar]
  have hnext := nextFinal_eq hc
  refine ⟨decStep_empty hb, fun h0 hin himp => ?_, fun h0 hin himp trim n w b ht hw hn hbad hout => ?_⟩
  · rw [if_pos (himpossible.2 himp)] at hnext
    exact decStep_impossible hb h0 hr hin hnext
  · rw [if_neg (mt himpossible.1 himp)] at hnext
    refine decStep_gated hb h0 hr hin (by omega) ?_ hbad hout
    rw [hnext, hn, hw, ht]

/-! ## The whole call -/

/-- A running `DECODE` with nothing beside it stays BUSY for all but the last of its steps. -/
theorem run_decode_busy {s : State} {u : List Region} (hp : s.pending = []) (he : s.e.ephase ≠ .busy)
    (hb : s.d.dphase = .busy) (hr : DecodeRuns s) (hs : (decodeCall s).Sound s.aw u) {k : Nat}
    (hk : k < decodeSteps (decRem s)) : ∃ t : State, Host.Core.run Sys2Proof.core k s = .next t ∧
      t.d.dphase = .busy := by
  induction k generalizing s with
  | zero => exact ⟨s, rfl, hb⟩
  | succ k ih =>
    have h4 : 4 < decRem s := by unfold decodeSteps at hk; omega
    have hstep : step s = .next (afterInterior s) :=
      (step_quiet_decode hp hb he).trans (decStep_of_runs_interior hb hr hs h4)
    rw [Nat.add_comm, run_of_step (M := Sys2Proof.core) hstep]
    refine ih hp he hb (afterInterior_runs hr hs h4) (afterInterior_decodeCall hr hs h4 ▸ hs) ?_
    rw [(afterInterior_left hr hs h4).1]
    unfold decodeSteps at hk ⊢
    omega

/-- The end of a call that has just been accepted: the result of `decodeFn`, its bytes from `DDST` on. -/
theorem decodeEnd_acceptDecode (s : State) (q : BlockResult) :
    decodeEnd (acceptDecode s (decodeCall s)) q = { s with
      mem := s.mem.writeBytes s.d.ddst.val.toNat q.out
      dcalls := ⟨(decodeRanges s).1, (decodeRanges s).2⟩ :: s.dcalls
      d := { s.d with
        dphase := .done
        inv := q.inv
        dbad := q.dbad
        didx := s.d.dlen.val
        doutlen := BitVec.ofNat 64 q.out.length } } := by
  simp [decodeEnd, decFinish, decWrites, decOutput, advance, decodeRanges_eq, acceptDecode, reportResult]

/-- Settles O19: the write of the command accepts the call, and its steps work off the text. -/
theorem decodeCallComputesDecodeFn : Obligations.DecodeCallComputesDecodeFn := by
  rintro s _ hp he ha rfl
  have hlen : (decodeText s).length = s.d.dlen.val.toNat := length_readBytes ..
  obtain ⟨hw, hs⟩ := sound_of_decodeAcceptable ha
  rw [← hlen]
  refine ⟨fun k hk => ?_, ?_⟩
  · have haccept : step s = .next (acceptDecode { s with pending := [] } (decodeCall s)) :=
      (step_of_command hp rfl).trans (exec_decode_of_acceptable (s := { s with pending := [] }) ha)
    rw [run_of_step (M := Sys2Proof.core) haccept]
    refine run_decode_busy (s := acceptDecode { s with pending := [] } (decodeCall s)) rfl he rfl
      (acceptDecode_runs (s := { s with pending := [] }) hw) hs ?_
    rw [acceptDecode_rem]
    exact hk
  · rw [(run_decode_call hp he ha).1]
    exact congrArg Host.Outcome.next (decodeEnd_acceptDecode { s with pending := [] } (decodeFn (decodeText s)))

end Sys2Proof.Machine
end

section
/-! PROOFS. `decode_fn` block by block (41_decode.md R122, R125): what a final block of each shape leaves, and the
induction over the blocks of a text. -/

namespace Sys2Proof.Machine

/-! ## Final blocks by shape -/

theorem neutralChar_ne_padChar : neutralChar ≠ padChar := by decide

@[simp] theorem sym_neutralChar : sym neutralChar = some 0 := rfl

/-- A data character is no pad (40_table_builder.md R97). -/
theorem ne_padChar_of_sym {c : Byte} {x : Sym} (h : sym c = some x) : c ≠ padChar := by
  rintro rfl
  cases h

/-- Two characters, the second no pad. -/
theorem finalBlock_two (b : Bool) (c0 : Byte) {c1 : Byte} (h1 : c1 ≠ padChar) :
    finalBlock b [c0, c1] = gatedBlock b (combine c0 c1 neutralChar neutralChar) 1 := by
  simp [finalBlock, impossibleRemainder, charAt, finalWord, trimOf, neutralChar_ne_padChar, h1]

/-- Three characters. -/
theorem finalBlock_three (b : Bool) (c0 c1 c2 : Byte) :
    finalBlock b [c0, c1, c2] = gatedBlock b (combine c0 c1 c2 neutralChar) 2 := by
  simp [finalBlock, impossibleRemainder, charAt, finalWord, trimOf, neutralChar_ne_padChar]

/-- Four characters with two pads at the end. -/
theorem finalBlock_two_pads (b : Bool) (c0 c1 : Byte) :
    finalBlock b [c0, c1, padChar, padChar] = gatedBlock b (combine c0 c1 neutralChar neutralChar) 1 := by
  simp [finalBlock, impossibleRemainder, charAt, finalWord, trimOf]

/-- Four characters with one pad at the end. -/
theorem finalBlock_one_pad (b : Bool) (c0 c1 : Byte) {c2 : Byte} (h2 : c2 ≠ padChar) :
    finalBlock b [c0, c1, c2, padChar] = gatedBlock b (combine c0 c1 c2 neutralChar) 2 := by
  simp [finalBlock, impossibleRemainder, charAt, finalWord, trimOf, h2]

/-- Four characters without a pad at the end. -/
theorem finalBlock_four (b : Bool) (c0 c1 c2 : Byte) {c3 : Byte} (h3 : c3 ≠ padChar) :
    finalBlock b [c0, c1, c2, c3] = gatedBlock b (combine c0 c1 c2 c3) 3 := by
  simp [finalBlock, impossibleRemainder, charAt, finalWord, trimOf, h3]

/-- Two characters, the second a pad: the impossible remainder. -/
theorem finalBlock_data_pad (b : Bool) (c0 : Byte) : finalBlock b [c0, padChar] = ⟨b, true, []⟩ := rfl

/-- A final block that fails writes nothing (41_decode.md R124). -/
theorem finalBlock_out_of_inv {b : Bool} {bs : List Byte} (h : (finalBlock b bs).inv = true) :
    (finalBlock b bs).out = [] := by
  unfold finalBlock at h ⊢
  split
  · rfl
  · next himp =>
    rw [if_neg himp] at h
    rw [gatedBlock_of_bad h]

/-- A final block with the bad-bit set fails and writes nothing (41_decode.md R124). -/
theorem finalBlock_bad (bs : List Byte) : finalBlock true bs = ⟨true, true, []⟩ := by
  unfold finalBlock
  split
  · rfl
  · exact gatedBlock_of_bad rfl _

/-- The shapes of a final block (41_decode.md R122). -/
theorem final_shapes {motive : List Byte → Prop} (nil : motive []) (one : ∀ c0, motive [c0])
    (dataPad : ∀ c0, motive [c0, padChar]) (two : ∀ c0 c1, c1 ≠ padChar → motive [c0, c1])
    (three : ∀ c0 c1 c2, motive [c0, c1, c2]) (twoPads : ∀ c0 c1, motive [c0, c1, padChar, padChar])
    (onePad : ∀ c0 c1 c2, c2 ≠ padChar → motive [c0, c1, c2, padChar])
    (four : ∀ c0 c1 c2 c3, c3 ≠ padChar → motive [c0, c1, c2, c3]) {bs : List Byte} (h : bs.length ≤ 4) :
    motive bs := by
  match bs, h with
  | [], _ => exact nil
  | [c0], _ => exact one c0
  | [c0, c1], _ =>
    by_cases h1 : c1 = padChar
    · exact h1 ▸ dataPad c0
    · exact two c0 c1 h1
  | [c0, c1, c2], _ => exact three c0 c1 c2
  | [c0, c1, c2, c3], _ =>
    by_cases h3 : c3 = padChar
    · by_cases h2 : c2 = padChar
      · exact h3 ▸ h2 ▸ twoPads c0 c1
      · exact h3 ▸ onePad c0 c1 c2 h2
    · exact four c0 c1 c2 c3 h3

/-! ## Texts block by block -/

/-- Every character has a symbol value. -/
abbrev DataText (t : List Byte) : Prop := ∀ c ∈ t, sym c ≠ none

/-- A data text shows no pad (40_table_builder.md R97). -/
theorem ne_padChar_of_mem {t : List Byte} (hd : DataText t) {c : Byte} (hc : c ∈ t) : c ≠ padChar := by
  rintro rfl
  exact hd _ hc sym_padChar

/-- A combined word is good exactly when it combines data characters. -/
theorem bad_combine_eq_false_iff {c0 c1 c2 c3 : Byte} :
    bad (combine c0 c1 c2 c3) = false ↔ DataText [c0, c1, c2, c3] := by
  simp [bad_combine, DataText, and_assoc, Option.ne_none_iff_isSome]

/-- An interior block of data characters is good, every other one bad. -/
theorem interiorBlock_false {bs : List Byte} (h : bs.length = 4) :
    ∃ w, interiorBlock false bs = gatedBlock false w 3 ∧ (bad w = false ↔ DataText bs) := by
  obtain ⟨c0, c1, c2, c3, rfl⟩ := List.length_eq_four.1 h
  exact ⟨combine c0 c1 c2 c3, rfl, bad_combine_eq_false_iff⟩

/-- Once the bad-bit is set a text fails and writes nothing more (41_decode.md R124). -/
theorem decodeBlocks_bad : (t : List Byte) → decodeBlocks true t = ⟨true, true, []⟩
  | [] => rfl
  | c0 :: c1 :: c2 :: c3 :: c4 :: t => by
    have rest := decodeBlocks_bad (c4 :: t)
    have block : interiorBlock true [c0, c1, c2, c3] = ⟨true, true, []⟩ := gatedBlock_of_bad rfl 3
    simp only [decodeBlocks, block, rest, List.append_nil]
  | [c0] => finalBlock_bad [c0]
  | [c0, c1] => finalBlock_bad [c0, c1]
  | [c0, c1, c2] => finalBlock_bad [c0, c1, c2]
  | [c0, c1, c2, c3] => finalBlock_bad [c0, c1, c2, c3]

/-- A text of one block is its final block. -/
theorem decodeFn_final {bs : List Byte} (h0 : bs ≠ []) (h : bs.length ≤ 4) : decodeFn bs = finalBlock false bs :=
  decodeBlocks_final false h0 h

/-- The bytes of a block of four data characters. -/
def blockBytes (bs : List Byte) : List Byte := (interiorBlock false bs).out

theorem blockBytes_length {bs : List Byte} (h : bs.length = 4) (hd : DataText bs) : (blockBytes bs).length = 3 := by
  obtain ⟨w, hw, hbad⟩ := interiorBlock_false h
  rw [blockBytes, hw, gatedBlock_length _ _ (Nat.le_refl 3), hbad.2 hd]
  rfl

/-- A block of four data characters gives its bytes, whatever follows it. -/
theorem decodeFn_data_append {bs : List Byte} (h : bs.length = 4) (hd : DataText bs) (cs : List Byte) :
    decodeFn (bs ++ cs) = ⟨(decodeFn cs).dbad, (decodeFn cs).inv, blockBytes bs ++ (decodeFn cs).out⟩ := by
  obtain ⟨w, hw, hbad⟩ := interiorBlock_false h
  have hgood : interiorBlock false bs = ⟨false, false, blockBytes bs⟩ := by
    rw [blockBytes, hw, gatedBlock_of_good (by simpa using hbad.2 hd)]
  by_cases hc : cs = []
  · obtain ⟨c0, c1, c2, c3, rfl⟩ := List.length_eq_four.1 h
    have hfinal : decodeFn [c0, c1, c2, c3] = interiorBlock false [c0, c1, c2, c3] :=
      finalBlock_four false c0 c1 c2 (ne_padChar_of_mem hd (by simp))
    rw [hc, List.append_nil, hfinal, hgood]
    simp [decodeFn, decodeBlocks]
  · rw [decodeFn, decodeBlocks_interior h hc, hgood]
    rfl

/-- An interior block with another character ends all writing. -/
theorem decodeFn_bad_append {bs cs : List Byte} (h : bs.length = 4) (hd : ¬ DataText bs) (hc : cs ≠ []) :
    decodeFn (bs ++ cs) = ⟨true, true, []⟩ := by
  obtain ⟨w, hw, hbad⟩ := interiorBlock_false h
  have hw' : interiorBlock false bs = ⟨true, true, []⟩ := by
    rw [hw, gatedBlock_of_bad (by simpa using mt hbad.1 hd)]
  rw [decodeFn, decodeBlocks_interior h hc, hw', decodeBlocks_bad]
  rfl

/-- Induction over the blocks of a text (41_decode.md R120): the final block, or an interior block, which is
bad or gives its bytes. -/
theorem text_induction {motive : List Byte → Prop} (final : ∀ bs, bs.length ≤ 4 → motive bs)
    (bad : ∀ bs cs, bs.length = 4 → cs ≠ [] → ¬ DataText bs → motive (bs ++ cs))
    (data : ∀ bs cs, bs.length = 4 → cs ≠ [] → DataText bs → motive cs → motive (bs ++ cs))
    (t : List Byte) : motive t := by
  induction hn : t.length using Nat.strong_induction_on generalizing t with
  | _ n ih =>
  by_cases h4 : t.length ≤ 4
  · exact final t h4
  · have hbs : (t.take 4).length = 4 := by rw [List.length_take]; omega
    have hcs : t.drop 4 ≠ [] := List.ne_nil_of_length_pos (by rw [List.length_drop]; omega)
    rw [← List.take_append_drop 4 t]
    by_cases hd : DataText (t.take 4)
    · exact data _ _ hbs hcs hd (ih _ (by rw [List.length_drop]; omega) _ rfl)
    · exact bad _ _ hbs hcs hd

/-! ## The unused bits of a last symbol -/

/-- The write gate looks at the bad-bit of a word and at the bytes it lets through. -/
theorem gatedBlock_congr (b : Bool) {v w : Word} {n : Nat} (hbad : bad v = bad w)
    (hout : outputBytes v n = outputBytes w n) : gatedBlock b v n = gatedBlock b w n := by
  simp only [gatedBlock, hbad, hout]

/-- High bits are high bits in a byte too. -/
theorem sym_setWidth_ushiftRight (x : Sym) (i : Nat) : (x.setWidth 8 >>> i : Byte) = (x >>> i).setWidth 8 := by
  have hx : x.toNat % 2 ^ 8 = x.toNat := Nat.mod_eq_of_lt (by omega)
  have hshift : (x >>> i).toNat < 2 ^ 8 := by omega
  refine BitVec.eq_of_toNat_eq ?_
  rw [BitVec.toNat_ushiftRight, BitVec.toNat_setWidth, hx, BitVec.toNat_setWidth, Nat.mod_eq_of_lt hshift,
    BitVec.toNat_ushiftRight]

/-- One byte sees the high two bits of the second symbol (41_decode.md R129). -/
theorem gatedBlock_one_congr (b : Bool) (c0 : Byte) {c c' : Byte} {x y : Sym} (hx : sym c = some x)
    (hy : sym c' = some y) (h : x >>> 4 = y >>> 4) :
    gatedBlock b (combine c0 c neutralChar neutralChar) 1 =
      gatedBlock b (combine c0 c' neutralChar neutralChar) 1 := by
  have hbyte : (x.setWidth 8 >>> 4 : Byte) = y.setWidth 8 >>> 4 := by
    rw [sym_setWidth_ushiftRight, sym_setWidth_ushiftRight, h]
  refine gatedBlock_congr b (by simp [bad_combine, hx, hy]) ?_
  simp only [outputBytes, List.take_succ_cons, List.take_zero, combine, item_or, dt1, slot_of_sym_some _ hx,
    slot_of_sym_some _ hy, items_entry1, hbyte]

/-- Two bytes see the high four bits of the third symbol (41_decode.md R129). -/
theorem gatedBlock_two_congr (b : Bool) (c0 c1 : Byte) {c c' : Byte} {x y : Sym} (hx : sym c = some x)
    (hy : sym c' = some y) (h : x >>> 2 = y >>> 2) :
    gatedBlock b (combine c0 c1 c neutralChar) 2 = gatedBlock b (combine c0 c1 c' neutralChar) 2 := by
  have hbyte : (x.setWidth 8 >>> 2 : Byte) = y.setWidth 8 >>> 2 := by
    rw [sym_setWidth_ushiftRight, sym_setWidth_ushiftRight, h]
  refine gatedBlock_congr b (by simp [bad_combine, hx, hy]) ?_
  simp only [outputBytes, List.take_succ_cons, List.take_zero, combine, item_or, dt2, slot_of_sym_some _ hx,
    slot_of_sym_some _ hy, items_entry2, hbyte]

/-- Settles O23: padded or not, the block goes through the write gate as the same word. -/
theorem unusedLowBitsAreNotTested : Obligations.UnusedLowBitsAreNotTested := by
  intro c0 c1 c c' x y hx hy
  have hc := ne_padChar_of_sym hx
  have hc' := ne_padChar_of_sym hy
  refine ⟨fun h => ?_, fun h => ?_⟩
  · have hgate := gatedBlock_one_congr false c0 hx hy h
    constructor
    · exact (finalBlock_two_pads false c0 c).trans (hgate.trans (finalBlock_two_pads false c0 c').symm)
    · exact (finalBlock_two false c0 hc).trans (hgate.trans (finalBlock_two false c0 hc').symm)
  · have hgate := gatedBlock_two_congr false c0 c1 hx hy h
    constructor
    · exact (finalBlock_one_pad false c0 c1 hc).trans (hgate.trans (finalBlock_one_pad false c0 c1 hc').symm)
    · exact (finalBlock_three false c0 c1 c).trans (hgate.trans (finalBlock_three false c0 c1 c').symm)

end Sys2Proof.Machine
end

section
/-! PROOFS. The texts that decode are the valid ones (41_decode.md R128). -/

namespace Sys2Proof.Machine

/-- A block in front of a text holds data characters only, and does not count in what completes it. -/
theorem validText_append_iff {bs cs : List Byte} (h : bs.length = 4) (hc : cs ≠ []) :
    ValidText (bs ++ cs) ↔ DataText bs ∧ ValidText cs := by
  constructor
  · rintro ⟨ds, pads, heq, hd, hn, hp⟩
    obtain ⟨as, rfl, rfl⟩ | ⟨as, rfl, rfl⟩ := List.append_eq_append_iff.1 heq
    · rw [List.forall_mem_append] at hd
      rw [List.length_append, h, Nat.add_mod_left] at hn hp
      exact ⟨hd.1, as, pads, rfl, hd.2, hn, hp⟩
    · exfalso
      have hpos := List.length_pos_iff.2 hc
      rw [List.length_append] at h
      obtain hp | ⟨hp, hmod⟩ | ⟨hp, hmod⟩ := hp
      · exact hc (List.append_eq_nil_iff.1 hp).2
      all_goals
        have hlen := congrArg List.length hp
        simp only [List.length_append, List.length_cons, List.length_nil] at hlen
        omega
  · rintro ⟨hbs, ds, pads, rfl, hd, hn, hp⟩
    refine ⟨bs ++ ds, pads, (List.append_assoc ..).symm, List.forall_mem_append.2 ⟨hbs, hd⟩, ?_⟩
    rw [List.length_append, h, Nat.add_mod_left]
    exact ⟨hn, hp⟩

/-- A valid text with an unfinished last block has no pads. -/
theorem validText_iff_of_unfinished {t : List Byte} (h : t.length % 4 ≠ 0) :
    ValidText t ↔ DataText t ∧ t.length % 4 ≠ 1 := by
  constructor
  · rintro ⟨ds, pads, rfl, hd, hn, rfl | ⟨rfl, hmod⟩ | ⟨rfl, hmod⟩⟩
    · rw [List.append_nil]
      exact ⟨hd, hn⟩
    · rw [List.length_append, List.length_singleton] at h
      omega
    · rw [List.length_append, List.length_cons, List.length_singleton] at h
      omega
  · rintro ⟨hd, hn⟩
    exact ⟨t, [], (List.append_nil t).symm, hd, hn, .inl rfl⟩

/-- The valid texts of one whole block. -/
theorem validText_four {c0 c1 c2 c3 : Byte} : ValidText [c0, c1, c2, c3] ↔
    DataText [c0, c1, c2, c3] ∨ (DataText [c0, c1, c2] ∧ c3 = padChar) ∨
      (DataText [c0, c1] ∧ c2 = padChar ∧ c3 = padChar) := by
  constructor
  · rintro ⟨ds, pads, heq, hd, -, rfl | ⟨rfl, -⟩ | ⟨rfl, -⟩⟩
    · rw [List.append_nil] at heq
      exact .inl (heq ▸ hd)
    · obtain ⟨rfl, h3⟩ := List.append_inj' (s₁ := [c0, c1, c2]) (t₁ := [c3]) heq rfl
      exact .inr (.inl ⟨hd, by simpa using h3⟩)
    · obtain ⟨rfl, h23⟩ := List.append_inj' (s₁ := [c0, c1]) (t₁ := [c2, c3]) heq rfl
      exact .inr (.inr ⟨hd, by simpa using h23⟩)
  · rintro (hd | ⟨hd, rfl⟩ | ⟨hd, rfl, rfl⟩)
    · exact ⟨[c0, c1, c2, c3], [], rfl, hd, by simp, .inl rfl⟩
    · exact ⟨[c0, c1, c2], [padChar], rfl, hd, by simp, .inr (.inl ⟨rfl, rfl⟩)⟩
    · exact ⟨[c0, c1], [padChar, padChar], rfl, hd, by simp, .inr (.inr ⟨rfl, rfl⟩)⟩

/-- A final block succeeds exactly when it is a valid text. -/
theorem decodeFn_final_inv {bs : List Byte} (h : bs.length ≤ 4) : (decodeFn bs).inv = false ↔ ValidText bs := by
  refine final_shapes (motive := fun bs => (decodeFn bs).inv = false ↔ ValidText bs)
    ?nil ?one ?dataPad ?two ?three ?twoPads ?onePad ?four h
  case nil => exact iff_of_true rfl ⟨[], [], rfl, by simp, by simp, .inl rfl⟩
  case one =>
    intro c0
    simp [decodeFn_final, finalBlock_one, validText_iff_of_unfinished]
  case dataPad =>
    intro c0
    simp [decodeFn_final, finalBlock_data_pad, DataText, validText_iff_of_unfinished]
  case two =>
    intro c0 c1 h1
    simp [decodeFn_final, finalBlock_two _ _ h1, bad_combine_eq_false_iff, DataText, validText_iff_of_unfinished]
  case three =>
    intro c0 c1 c2
    simp [decodeFn_final, finalBlock_three, bad_combine_eq_false_iff, DataText, validText_iff_of_unfinished]
  case twoPads =>
    intro c0 c1
    simp [decodeFn_final, finalBlock_two_pads, bad_combine_eq_false_iff, DataText, validText_four]
  case onePad =>
    intro c0 c1 c2 h2
    simp [decodeFn_final, finalBlock_one_pad _ _ _ h2, bad_combine_eq_false_iff, DataText, validText_four, h2]
  case four =>
    intro c0 c1 c2 c3 h3
    simp [decodeFn_final, finalBlock_four _ _ _ _ h3, bad_combine_eq_false_iff, DataText, validText_four, h3]

/-- Settles O21, block by block. -/
theorem validTextsAreExactlyTheOnesThatDecode : Obligations.ValidTextsAreExactlyTheOnesThatDecode := by
  intro t
  induction t using text_induction with
  | final bs h => exact decodeFn_final_inv h
  | bad bs cs h hc hd => simp [decodeFn_bad_append h hd hc, validText_append_iff h hc, hd]
  | data bs cs h hc hd ih =>
    rw [decodeFn_data_append h hd, validText_append_iff h hc, ih]
    exact (and_iff_right hd).symm

end Sys2Proof.Machine
end

section
/-! PROOFS. `decode_fn` stays within the decoded size, and fills it on success (41_decode.md R130). -/

namespace Sys2Proof.Machine

/-- At most the whole text is pads. -/
theorem padCount_le_length (t : List Byte) : padCount t ≤ t.length := by
  unfold padCount padCountOf
  split
  · omega
  · split
    · omega
    · omega

/-- The pads at the end of a text are counted alike in a longer one that shows no further pad before them. -/
theorem padCountOf_add {m n : Nat} {last prev prev' : Byte} (hm : 0 < m) (hn : 0 < n)
    (h : prev' = padChar ↔ n ≠ 1 ∧ prev = padChar) : padCountOf (m + n) last prev' = padCountOf n last prev := by
  have h0 : n ≠ 0 := hn.ne'
  have h1 : m + n ≠ 1 := by omega
  by_cases hlast : last = padChar
  · by_cases hp : n ≠ 1 ∧ prev = padChar
    · simp [padCountOf, hlast, h0, h1, h.2 hp, hp]
    · have hp' : n = 1 ∨ prev ≠ padChar := by tauto
      simp [padCountOf, hlast, h0, mt h.1 hp, hp']
  · simp [padCountOf, hlast]

/-- A block of four data characters in front adds no pad. -/
theorem padCount_data_append {bs cs : List Byte} (h : bs.length = 4) (hd : DataText bs) (hc : cs ≠ []) :
    padCount (bs ++ cs) = padCount cs := by
  have hpos := List.length_pos_iff.2 hc
  have hat {k : Nat} (hk : k ≤ cs.length) :
      (bs ++ cs).getD ((bs ++ cs).length - k) 0 = cs.getD (cs.length - k) 0 := by
    rw [List.getD_append_right _ _ _ _ (by rw [List.length_append]; omega), List.length_append]
    congr 1
    omega
  rw [padCount, padCount, hat hpos, List.length_append, h]
  refine padCountOf_add (by omega) hpos ?_
  by_cases h1 : cs.length = 1
  · obtain ⟨c0, c1, c2, c3, rfl⟩ := List.length_eq_four.1 h
    rw [h1]
    exact iff_of_false (ne_padChar_of_mem hd (by simp)) (by simp)
  · rw [← h, ← List.length_append, hat (by omega)]
    exact (and_iff_right h1).symm

/-- A block of four data characters in front adds three bytes. -/
theorem decodedSize_data_append {bs cs : List Byte} (h : bs.length = 4) (hd : DataText bs) (hc : cs ≠ []) :
    decodedSize (bs ++ cs) = 3 + decodedSize cs := by
  have hle := padCount_le_length cs
  rw [decodedSize, decodedSize, padCount_data_append h hd hc, List.length_append, h]
  omega

/-- What `decode_fn` says of a text stays within its decoded size, and fills it on success. -/
def FitsDecodedSize (q : BlockResult) (size : Nat) : Prop :=
  q.out.length ≤ size ∧ (q.inv = false → q.out.length = size)

/-- A block through the write gate gives its bytes, or fails. -/
theorem gatedBlock_fits (b : Bool) (w : Word) {n : Nat} (h : n ≤ 3) : FitsDecodedSize (gatedBlock b w n) n := by
  rw [FitsDecodedSize, gatedBlock_length b w h, gatedBlock_inv]
  cases hb : (b || bad w) with
  | true => simp
  | false => simp

/-- A block that fails without writing fits everywhere. -/
theorem failure_fits (b : Bool) (size : Nat) : FitsDecodedSize ⟨b, true, []⟩ size := by
  simp [FitsDecodedSize]

/-- A final block of each shape fits the decoded size of its length and pads. -/
theorem decodeFn_final_fits {bs : List Byte} (h : bs.length ≤ 4) :
    FitsDecodedSize (decodeFn bs) (decodedSize bs) := by
  refine final_shapes (motive := fun bs => FitsDecodedSize (decodeFn bs) (decodedSize bs))
    ?nil ?one ?dataPad ?two ?three ?twoPads ?onePad ?four h
  case nil => exact ⟨Nat.zero_le _, fun _ => rfl⟩
  case one =>
    intro c0
    exact failure_fits false _
  case dataPad =>
    intro c0
    exact failure_fits false _
  case two =>
    intro c0 c1 h1
    have hsize : decodedSize [c0, c1] = 1 := by simp [decodedSize, padCount, padCountOf, h1]
    rw [hsize, decodeFn_final (by simp) (by simp), finalBlock_two _ _ h1]
    exact gatedBlock_fits _ _ (by omega)
  case three =>
    intro c0 c1 c2
    rw [decodeFn_final (by simp) (by simp), finalBlock_three]
    by_cases h2 : c2 = padChar
    · rw [gatedBlock_of_bad (by simpa using bad_combine_of_pad (.inr (.inr (.inl h2))))]
      exact failure_fits true _
    · have hsize : decodedSize [c0, c1, c2] = 2 := by simp [decodedSize, padCount, padCountOf, h2]
      rw [hsize]
      exact gatedBlock_fits _ _ (by omega)
  case twoPads =>
    intro c0 c1
    have hsize : decodedSize [c0, c1, padChar, padChar] = 1 := by simp [decodedSize, padCount, padCountOf]
    rw [hsize, decodeFn_final (by simp) (by simp), finalBlock_two_pads]
    exact gatedBlock_fits _ _ (by omega)
  case onePad =>
    intro c0 c1 c2 h2
    have hsize : decodedSize [c0, c1, c2, padChar] = 2 := by simp [decodedSize, padCount, padCountOf, h2]
    rw [hsize, decodeFn_final (by simp) (by simp), finalBlock_one_pad _ _ _ h2]
    exact gatedBlock_fits _ _ (by omega)
  case four =>
    intro c0 c1 c2 c3 h3
    have hsize : decodedSize [c0, c1, c2, c3] = 3 := by simp [decodedSize, padCount, padCountOf, h3]
    rw [hsize, decodeFn_final (by simp) (by simp), finalBlock_four _ _ _ _ h3]
    exact gatedBlock_fits _ _ (by omega)

/-- Settles O20, block by block. -/
theorem decodeWritesAtMostTheDecodedSize : Obligations.DecodeWritesAtMostTheDecodedSize := by
  intro t
  change FitsDecodedSize (decodeFn t) (decodedSize t)
  induction t using text_induction with
  | final bs h => exact decodeFn_final_fits h
  | bad bs cs h hc hd =>
    rw [decodeFn_bad_append h hd hc]
    exact failure_fits true _
  | data bs cs h hc hd ih =>
    obtain ⟨hle, heq⟩ := ih
    rw [decodeFn_data_append h hd, decodedSize_data_append h hd hc, FitsDecodedSize, List.length_append,
      blockBytes_length h hd]
    exact ⟨by omega, fun hinv => by rw [heq hinv]⟩

end Sys2Proof.Machine
end

section
/-! PROOFS. The edge cases of `decode_fn` (41_decode.md R127), and what a failed one has written (R124). -/

namespace Sys2Proof.Machine

/-! ## Edge cases -/

/-- The pads that complete the last block of a data text change nothing (41_decode.md R127). -/
theorem decodeFn_append_pads {t : List Byte} (hd : DataText t) (h : t.length % 4 = 2 ∨ t.length % 4 = 3) :
    decodeFn (t ++ List.replicate (4 - t.length % 4) padChar) = decodeFn t := by
  induction t using text_induction with
  | final bs h4 =>
    have h23 : bs.length = 2 ∨ bs.length = 3 := by omega
    obtain h2 | h3 := h23
    · obtain ⟨c0, c1, rfl⟩ := List.length_eq_two.1 h2
      have h1 : c1 ≠ padChar := ne_padChar_of_mem hd (by simp)
      exact (finalBlock_two_pads false c0 c1).trans (finalBlock_two false c0 h1).symm
    · obtain ⟨c0, c1, c2, rfl⟩ := List.length_eq_three.1 h3
      have h2 : c2 ≠ padChar := ne_padChar_of_mem hd (by simp)
      exact (finalBlock_one_pad false c0 c1 h2).trans (finalBlock_three false c0 c1 c2).symm
  | bad bs cs hbs hc hbad => exact absurd (List.forall_mem_append.1 hd).1 hbad
  | data bs cs hbs hc hdata ih =>
    rw [List.length_append, hbs, Nat.add_mod_left] at h ⊢
    rw [List.append_assoc, decodeFn_data_append hbs hdata, decodeFn_data_append hbs hdata,
      ih (List.forall_mem_append.1 hd).2 h]

/-- A data text has no pads to count. -/
theorem padCount_of_data {t : List Byte} (hd : DataText t) (h0 : t ≠ []) : padCount t = 0 := by
  have hlt : t.length - 1 < t.length := Nat.sub_lt (List.length_pos_iff.2 h0) Nat.one_pos
  have hlast : t.getD (t.length - 1) 0 ≠ padChar := by
    rw [List.getD_eq_getElem _ _ hlt]
    exact ne_padChar_of_mem hd (List.getElem_mem hlt)
  exact if_pos (.inr hlast)

/-- A data text with an unfinished last block decodes, and to a byte less than the last block has characters
(41_decode.md R127). -/
theorem decodeFn_unpadded {t : List Byte} (hd : DataText t) (h : t.length % 4 = 2 ∨ t.length % 4 = 3) :
    (decodeFn t).inv = false ∧ (decodeFn t).out.length = t.length / 4 * 3 + (t.length % 4 - 1) := by
  have h0 : t ≠ [] := by
    rintro rfl
    simp at h
  have hinv : (decodeFn t).inv = false := by
    rw [validTextsAreExactlyTheOnesThatDecode, validText_iff_of_unfinished (by omega)]
    exact ⟨hd, by omega⟩
  refine ⟨hinv, ?_⟩
  rw [(decodeWritesAtMostTheDecodedSize t).2 hinv, decodedSize, padCount_of_data hd h0]
  omega

/-- A text of length 1 modulo 4 fails (41_decode.md R127). -/
theorem decodeFn_inv_of_length {t : List Byte} (h : t.length % 4 = 1) : (decodeFn t).inv = true := by
  rw [← Bool.not_eq_false, validTextsAreExactlyTheOnesThatDecode, validText_iff_of_unfinished (by omega)]
  exact fun hvalid => hvalid.2 h

/-- Settles O22: the general clauses by the lemmas above, the four texts by computation. -/
theorem edgeCasesOfDecode : Obligations.EdgeCasesOfDecode := by
  refine ⟨rfl, fun t => decodeFn_inv_of_length, fun t hd h => ?_, fun t hd h => ?_, by decide⟩
  · obtain ⟨hinv, hlen⟩ := decodeFn_unpadded hd (.inl h)
    have hpads := decodeFn_append_pads hd (.inl h)
    rw [h] at hlen hpads
    exact ⟨hinv, hlen, hpads⟩
  · obtain ⟨hinv, hlen⟩ := decodeFn_unpadded hd (.inr h)
    have hpads := decodeFn_append_pads hd (.inr h)
    rw [h] at hlen hpads
    exact ⟨hinv, hlen, hpads⟩

/-! ## Failure -/

/-- A failed text has a block `k` that fails, behind `k` blocks that decode (41_decode.md R124). -/
def FailsAtBlock (t : List Byte) (k : Nat) : Prop :=
  4 * k < t.length ∧ (decodeFn t).out.length = 3 * k ∧
  (decodeFn t).out = (decodeFn (t.take (4 * k))).out ∧ (decodeFn (t.take (4 * k))).inv = false ∧
  ((∃ c0 c1 c2 c3 c4 rest, t.drop (4 * k) = c0 :: c1 :: c2 :: c3 :: c4 :: rest ∧
      bad (combine c0 c1 c2 c3) = true ∧ (decodeFn t).dbad = true) ∨
    (t.length ≤ 4 * k + 4 ∧ (finalBlock false (t.drop (4 * k))).inv = true ∧
      (decodeFn t).dbad = (finalBlock false (t.drop (4 * k))).dbad))

/-- A final block that fails is the failing one. -/
theorem failsAtBlock_final {bs : List Byte} (h : bs.length ≤ 4) (hinv : (decodeFn bs).inv = true) :
    FailsAtBlock bs 0 := by
  have h0 : bs ≠ [] := by
    rintro rfl
    cases hinv
  rw [decodeFn_final h0 h] at hinv
  have hout := finalBlock_out_of_inv hinv
  rw [FailsAtBlock, decodeFn_final h0 h, hout]
  exact ⟨List.length_pos_iff.2 h0, rfl, rfl, rfl, .inr ⟨h, hinv, rfl⟩⟩

/-- An interior block with another character is the failing one. -/
theorem failsAtBlock_bad_append {bs cs : List Byte} (h : bs.length = 4) (hd : ¬ DataText bs) (hc : cs ≠ []) :
    FailsAtBlock (bs ++ cs) 0 := by
  rw [FailsAtBlock, decodeFn_bad_append h hd hc]
  obtain ⟨c0, c1, c2, c3, rfl⟩ := List.length_eq_four.1 h
  obtain ⟨c4, rest, rfl⟩ := List.exists_cons_of_ne_nil hc
  have hbad : bad (combine c0 c1 c2 c3) = true := by simpa using mt bad_combine_eq_false_iff.1 hd
  exact ⟨Nat.zero_lt_succ _, rfl, rfl, rfl, .inl ⟨c0, c1, c2, c3, c4, rest, rfl, hbad, rfl⟩⟩

/-- A block of four data characters in front moves the failing block by one. -/
theorem failsAtBlock_data_append {bs cs : List Byte} {k : Nat} (h : bs.length = 4) (hd : DataText bs)
    (hk : FailsAtBlock cs k) : FailsAtBlock (bs ++ cs) (k + 1) := by
  have hmul : 4 * (k + 1) = bs.length + 4 * k := by omega
  have htake : (bs ++ cs).take (4 * (k + 1)) = bs ++ cs.take (4 * k) := by rw [hmul, List.take_length_add_append]
  have hdrop : (bs ++ cs).drop (4 * (k + 1)) = cs.drop (4 * k) := by rw [hmul, List.drop_length_add_append]
  obtain ⟨hlt, hlen, hout, hinv, hfail⟩ := hk
  rw [FailsAtBlock, htake, hdrop, decodeFn_data_append h hd, decodeFn_data_append h hd]
  refine ⟨?_, ?_, congrArg (blockBytes bs ++ ·) hout, hinv, ?_⟩
  · rw [List.length_append]
    omega
  · rw [List.length_append, blockBytes_length h hd]
    omega
  · rw [List.length_append]
    exact hfail.imp id fun ⟨h4, hrest⟩ => ⟨by omega, hrest⟩

/-- Settles O24, block by block. -/
theorem failedDecodeWritesTheBlocksBeforeTheFailure : Obligations.FailedDecodeWritesTheBlocksBeforeTheFailure := by
  intro t
  change (decodeFn t).inv = true → ∃ k, FailsAtBlock t k
  induction t using text_induction with
  | final bs h => exact fun hinv => ⟨0, failsAtBlock_final h hinv⟩
  | bad bs cs h hc hd => exact fun _ => ⟨0, failsAtBlock_bad_append h hd hc⟩
  | data bs cs h hc hd ih =>
    intro hinv
    rw [decodeFn_data_append h hd] at hinv
    obtain ⟨k, hk⟩ := ih hinv
    exact ⟨k + 1, failsAtBlock_data_append h hd hk⟩

end Sys2Proof.Machine
end

section
/-! PROOFS. The encoder's block (42_encode.md R140 to R142), the acceptance of `ENCODE` (R143, R144), the steps of
ENC to the last field (R147, R148), and the call they make up (R149, R150). -/

namespace Sys2Proof.Machine

/-! ## `SPLIT` and `ENC3` -/

/-- An index of `SPLIT` is its equation in a byte: no bit is cut off (42_encode.md R140). -/
theorem split_setWidth (b0 b1 b2 : Byte) :
    (split0 b0).setWidth 8 = b0 >>> 2 ∧
    (split1 b0 b1).setWidth 8 = ((b0 &&& 0x3) <<< 4) ||| (b1 >>> 4) ∧
    (split2 b1 b2).setWidth 8 = ((b1 &&& 0xF) <<< 2) ||| (b2 >>> 6) ∧
    (split3 b2).setWidth 8 = b2 &&& 0x3F := by
  refine ⟨?_, ?_, ?_, ?_⟩
  all_goals
    ext i hi
    interval_cases i <;> simp [split0, split1, split2, split3]

/-- Settles O12: the decode layout gives the bytes back, so the number it counts is that of the bytes. -/
theorem splitIsTheInverseBitLayout : Obligations.SplitIsTheInverseBitLayout := by
  intro b0 b1 b2
  obtain ⟨w0, w1, w2, w3⟩ := split_setWidth b0 b1 b2
  obtain ⟨l0, l1, l2⟩ := lanes_split b0 b1 b2
  have hdigits := lanes_toNat (split0 b0) (split1 b0 b1) (split2 b1 b2) (split3 b2)
  rw [l0, l1, l2] at hdigits
  exact ⟨w0, w1, w2, w3, hdigits.symm, l0, l1, l2⟩

/-- Settles O14: the result word holds the four characters of the block. -/
theorem enc3EncodesOneBlock : Obligations.Enc3EncodesOneBlock := by
  intro s url hb hw
  have hitems := items_enc3Word url s.e.edin.val
  simp only [encBlock, List.cons.injEq, and_true] at hitems
  exact ⟨enc3Word url s.e.edin.val, exec_enc3_of_written url hb hw, hitems⟩

/-! ## Acceptance -/

/-- Settles O25: acceptance is what the model checks, and what it checks are the preconditions. -/
theorem encodeIsAcceptedUnderItsPreconditions : Obligations.EncodeIsAcceptedUnderItsPreconditions := by
  intro s url np
  constructor
  · exact exec_encode_of_acceptable url
  · intro h
    obtain ⟨r, hr⟩ := Option.ne_none_iff_exists'.1 (mt encodeBreach_eq_none_iff.1 h)
    exact ⟨r, exec_encode_refused_iff.2 hr⟩

/-! ## The steps of ENC -/

/-- Settles O26: the turn is known, and the bytes it fetches are those in memory. -/
theorem fullBlockStepOfEnc : Obligations.FullBlockStepOfEnc := by
  rintro s _ _ _ _ _ hb h3 rfl rfl rfl rfl rfl hin hout
  exact encStep_full hb h3 hin hout

/-- The leftover characters of one byte (42_encode.md R148). -/
theorem nextLeftover_one {s : State} (h : encRem s = 1) : nextLeftover s =
    [encodeTable s.e.eurl (split0 (s.mem.read (encInput s))),
      encodeTable s.e.eurl (split1 (s.mem.read (encInput s)) 0)] ++
    (if s.e.enp then [] else [padChar, padChar]) := by
  rw [nextLeftover, h]
  rfl

/-- The leftover characters of two bytes (42_encode.md R148). -/
theorem nextLeftover_two {s : State} (h : encRem s = 2) : nextLeftover s =
    [encodeTable s.e.eurl (split0 (s.mem.read (encInput s))),
      encodeTable s.e.eurl (split1 (s.mem.read (encInput s)) (s.mem.read (encInput s + 1))),
      encodeTable s.e.eurl (split2 (s.mem.read (encInput s + 1)) 0)] ++
    (if s.e.enp then [] else [padChar]) := by
  rw [nextLeftover, h]
  rfl

/-- How many leftover characters there are (42_encode.md R148). -/
theorem nextLeftover_length {s : State} (h : encRem s < 3) :
    (nextLeftover s).length = if s.e.enp then encRem s + 1 else 4 := by
  rw [nextLeftover, leftoverBlock_length _ _ (by rw [length_readBytes]; omega), length_readBytes]

/-- Settles O27: nothing left, or the leftover characters, stored and counted. -/
theorem finalStepOfEnc : Obligations.FinalStepOfEnc := by
  rintro s m _ _ _ _ hb (hrem : m = encRem s) hm rfl rfl rfl rfl
  subst hrem
  have hlen := nextLeftover_length hm
  refine ⟨encStep_empty hb, fun h1 hin hout => ?_, fun h2 hin hout => ?_⟩
  · rw [h1] at hlen
    rw [encStep_final hb (by omega) hm (h1.symm ▸ hin) (.inr (hlen.symm ▸ hout)), hlen, nextLeftover_one h1]
    cases s.e.enp <;> rfl
  · rw [h2] at hlen
    rw [encStep_final hb (by omega) hm (h2.symm ▸ hin) (.inr (hlen.symm ▸ hout)), hlen, nextLeftover_two h2]
    cases s.e.enp <;> rfl

/-! ## The whole call -/

/-- A running `ENCODE` with nothing beside it stays BUSY for all but the last of its steps. -/
theorem run_encode_busy {s : State} {u : List Region} (hp : s.pending = []) (hd : s.d.dphase ≠ .busy)
    (hb : s.e.ephase = .busy) (hr : EncodeRuns s) (hs : (encodeCall s s.e.enp).Sound s.aw u) {k : Nat}
    (hk : k < encodeSteps (encRem s)) : ∃ t : State, Host.Core.run Sys2Proof.core k s = .next t ∧
      t.e.ephase = .busy := by
  induction k generalizing s with
  | zero => exact ⟨s, rfl, hb⟩
  | succ k ih =>
    unfold encodeSteps at hk
    have h3 : 3 ≤ encRem s := by omega
    have hstep : step s = .next (afterFull s) :=
      (step_quiet_encode hp hd).trans (encStep_of_runs_full hb hr hs h3)
    rw [Nat.add_comm, run_of_step (M := Sys2Proof.core) hstep]
    refine ih hp hd hb (afterFull_runs hr hs h3) hs ?_
    rw [(afterFull_left hr hs h3).1, encodeSteps]
    omega

/-- The end of a call that has just been accepted: its characters from `EDST` on. -/
theorem encodeEnd_acceptEncode (s : State) (url np : Bool) (cs : List Byte) :
    encodeEnd (acceptEncode s url np (encodeCall s np)) cs = { s with
      mem := s.mem.writeBytes s.e.edst.val.toNat cs
      ecalls := ⟨(encodeRanges s np).1, (encodeRanges s np).2⟩ :: s.ecalls
      e := { s.e with
        ephase := .done
        eurl := url
        enp := np
        eidx := s.e.elen.val
        eoutlen := BitVec.ofNat 64 cs.length } } := by
  simp [encodeEnd, encFinish, encWrites, encOutput, advance, encodeRanges_eq, acceptEncode]

/-- Settles O28: the write of the command accepts the call, and its steps work off the data. -/
theorem encodeCallComputesEncodeFn : Obligations.EncodeCallComputesEncodeFn := by
  rintro s b url np _ hp hc hd ha rfl
  have hlen : (encodeData s).length = s.e.elen.val.toNat := length_readBytes ..
  obtain ⟨hw, hs⟩ := sound_of_encodeAcceptable ha
  rw [← hlen]
  refine ⟨fun k hk => ?_, ?_⟩
  · have haccept : step s = .next (acceptEncode { s with pending := [] } url np (encodeCall s np)) :=
      (step_of_command hp hc).trans (exec_encode_of_acceptable (s := { s with pending := [] }) url ha)
    rw [run_of_step (M := Sys2Proof.core) haccept]
    refine run_encode_busy (s := acceptEncode { s with pending := [] } url np (encodeCall s np)) rfl hd rfl
      (acceptEncode_runs (s := { s with pending := [] }) hw) hs ?_
    rw [acceptEncode_rem]
    exact hk
  · rw [(run_encode_call hp hc hd ha).1]
    exact congrArg Host.Outcome.next
      (encodeEnd_acceptEncode { s with pending := [] } url np (encodeFn url np (encodeData s)))

end Sys2Proof.Machine
end

section
/-! PROOFS. `encode_fn` block by block (42_encode.md R149): the length and the characters of its text (R151), and
that `decode_fn` undoes it (R152). -/

namespace Sys2Proof.Machine

/-! ## Data block by block -/

/-- Induction over the blocks of data (42_encode.md R146): nothing left, one or two leftover bytes, or a full block
in front. -/
theorem data_induction {motive : List Byte → Prop} (nil : motive []) (one : ∀ b0, motive [b0])
    (two : ∀ b0 b1, motive [b0, b1]) (full : ∀ b0 b1 b2 d, motive d → motive ([b0, b1, b2] ++ d)) :
    (d : List Byte) → motive d
  | [] => nil
  | [b0] => one b0
  | [b0, b1] => two b0 b1
  | b0 :: b1 :: b2 :: d => full b0 b1 b2 d (data_induction nil one two full d)

/-! ## The length -/

/-- Four characters a full block, and those of the leftover bytes (42_encode.md R151). -/
theorem encodeFn_length (url np : Bool) (d : List Byte) : (encodeFn url np d).length =
    4 * (d.length / 3) + if d.length % 3 = 0 then 0 else if np then d.length % 3 + 1 else 4 := by
  induction d using data_induction with
  | nil => rfl
  | one b0 => simp [encodeFn_leftover, leftoverBlock_length]
  | two b0 b1 => simp [encodeFn_leftover, leftoverBlock_length]
  | full b0 b1 b2 d ih =>
    have hlen : ([b0, b1, b2] ++ d).length = 3 + d.length := List.length_append
    rw [encodeFn_full _ _ _ rfl, List.length_append, fullBlock_length, ih, hlen, Nat.add_mod_left]
    omega

/-- Settles O29: the size function and the closed form count the same blocks. -/
theorem encodedLengthIsTheEncodedSize : Obligations.EncodedLengthIsTheEncodedSize := by
  intro url np d
  rw [encodeFn_length, encodedSizeFor, encodedSizeNopad, encodedSize]
  have hmod : d.length % 3 = 0 ∨ d.length % 3 = 1 ∨ d.length % 3 = 2 := by omega
  obtain h | h | h := hmod
  all_goals
    simp only [h]
    cases np
    · simp
      omega
    · simp
      omega

/-! ## The characters -/

/-- The characters of a full block are of the chosen alphabet (42_encode.md R141). -/
theorem mem_encBlock {url : Bool} {b0 b1 b2 c : Byte} (h : c ∈ encBlock url b0 b1 b2) :
    ∃ i : Sym, c = encodeTable url i := by
  simp only [encBlock, List.mem_cons, List.not_mem_nil, or_false] at h
  obtain rfl | rfl | rfl | rfl := h
  · exact ⟨_, rfl⟩
  · exact ⟨_, rfl⟩
  · exact ⟨_, rfl⟩
  · exact ⟨_, rfl⟩

/-- The leftover characters without padding are the first of a full block (42_encode.md R148). -/
theorem mem_leftoverBlock_unpadded {url : Bool} {bs : List Byte} {c : Byte} (h : c ∈ leftoverBlock url true bs) :
    ∃ i : Sym, c = encodeTable url i := by
  rw [leftoverBlock, if_pos rfl, List.append_nil] at h
  exact mem_encBlock (List.mem_of_mem_take h)

/-- Without padding every character is of the chosen alphabet (42_encode.md R141, R148). -/
theorem mem_encodeFn_unpadded {url : Bool} {d : List Byte} {c : Byte} (h : c ∈ encodeFn url true d) :
    ∃ i : Sym, c = encodeTable url i := by
  induction d using data_induction with
  | nil => cases h
  | one b0 => exact mem_leftoverBlock_unpadded h
  | two b0 b1 => exact mem_leftoverBlock_unpadded h
  | full b0 b1 b2 d ih =>
    rw [encodeFn_full _ _ _ rfl, List.mem_append] at h
    exact h.elim mem_encBlock ih

/-- Padding appends the pads that complete the last block (42_encode.md R148). -/
theorem encodeFn_padded (url : Bool) (d : List Byte) : encodeFn url false d =
    encodeFn url true d ++ List.replicate ((3 - d.length % 3) % 3) padChar := by
  induction d using data_induction with
  | nil => rfl
  | one b0 => rfl
  | two b0 b1 => rfl
  | full b0 b1 b2 d ih =>
    have hlen : ([b0, b1, b2] ++ d).length = 3 + d.length := List.length_append
    rw [encodeFn_full _ _ _ rfl, encodeFn_full _ _ _ rfl, hlen, Nat.add_mod_left, ih, List.append_assoc]

/-- The characters of an encode table are data characters (40_table_builder.md R103). -/
theorem dataText_encodeFn (url : Bool) (d : List Byte) : DataText (encodeFn url true d) := by
  intro c hc
  obtain ⟨i, rfl⟩ := mem_encodeFn_unpadded hc
  simp [sym_encodeTable]

/-- Settles O30: a character of the alphabet has a symbol value, and a pad has none. -/
theorem encodedTextIsOfTheChosenAlphabet : Obligations.EncodedTextIsOfTheChosenAlphabet := fun url d =>
  ⟨fun _ hc => ⟨ne_padChar_of_mem (dataText_encodeFn url d) hc, mem_encodeFn_unpadded hc⟩, encodeFn_padded url d⟩

/-! ## The round trip -/

/-- Characters with the indices of `SPLIT` as symbol values pass the write gate as the bytes split
(42_encode.md R140, R152). -/
theorem gatedBlock_split {c0 c1 c2 c3 b0 b1 b2 : Byte} (h0 : sym c0 = some (split0 b0))
    (h1 : sym c1 = some (split1 b0 b1)) (h2 : sym c2 = some (split2 b1 b2)) (h3 : sym c3 = some (split3 b2))
    (n : Nat) : gatedBlock false (combine c0 c1 c2 c3) n = ⟨false, false, [b0, b1, b2].take n⟩ := by
  have hgood : (false || bad (combine c0 c1 c2 c3)) = false := by simp [bad_combine, h0, h1, h2, h3]
  obtain ⟨i0, i1, i2⟩ := items_combine h0 h1 h2 h3
  obtain ⟨l0, l1, l2⟩ := lanes_split b0 b1 b2
  rw [gatedBlock_of_good hgood, outputBytes, i0, i1, i2, l0, l1, l2]

/-- The characters of a full block decode to its bytes. -/
theorem decodeFn_fullBlock_append (url : Bool) (b0 b1 b2 : Byte) (t : List Byte) :
    decodeFn (fullBlock url [b0, b1, b2] ++ t) =
      ⟨(decodeFn t).dbad, (decodeFn t).inv, [b0, b1, b2] ++ (decodeFn t).out⟩ := by
  have hsym := sym_encodeTable url
  have hbytes : blockBytes (fullBlock url [b0, b1, b2]) = [b0, b1, b2] :=
    congrArg BlockResult.out (gatedBlock_split (hsym _) (hsym _) (hsym _) (hsym _) 3)
  have hdata : DataText (fullBlock url [b0, b1, b2]) := by
    intro c hc
    obtain ⟨i, rfl⟩ := mem_encBlock hc
    simp [hsym]
  rw [decodeFn_data_append (fullBlock_length ..) hdata, hbytes]

/-- Without padding `decode_fn` undoes `encode_fn`; the zeros that fill a leftover block are the neutral symbols
that fill its text (41_decode.md R122 step 1, 42_encode.md R148). -/
theorem decodeFn_encodeFn_unpadded (url : Bool) (d : List Byte) :
    decodeFn (encodeFn url true d) = ⟨false, false, d⟩ := by
  have hsym := sym_encodeTable url
  induction d using data_induction with
  | nil => rfl
  | one b0 =>
    exact (finalBlock_two false _ (ne_padChar_of_sym (hsym _))).trans
      (gatedBlock_split (b1 := 0) (b2 := 0) (hsym _) (hsym _) rfl rfl 1)
  | two b0 b1 =>
    exact (finalBlock_three false _ _ _).trans
      (gatedBlock_split (b2 := 0) (hsym _) (hsym _) (hsym _) rfl 2)
  | full b0 b1 b2 d ih => rw [encodeFn_full _ _ _ rfl, decodeFn_fullBlock_append, ih]

/-- A padded text decodes as the unpadded one (41_decode.md R127). -/
theorem decodeFn_encodeFn_padded (url : Bool) (d : List Byte) :
    decodeFn (encodeFn url false d) = decodeFn (encodeFn url true d) := by
  have hdata := dataText_encodeFn url d
  have hlen := encodeFn_length url true d
  rw [encodeFn_padded]
  have hmod : d.length % 3 = 0 ∨ d.length % 3 = 1 ∨ d.length % 3 = 2 := by omega
  obtain h | h | h := hmod
  · simp [h]
  · have hrest : (encodeFn url true d).length % 4 = 2 := by simp [hlen, h]
    have hpads := decodeFn_append_pads hdata (.inl hrest)
    rw [hrest] at hpads
    rw [h]
    exact hpads
  · have hrest : (encodeFn url true d).length % 4 = 3 := by simp [hlen, h]
    have hpads := decodeFn_append_pads hdata (.inr hrest)
    rw [hrest] at hpads
    rw [h]
    exact hpads

/-- Settles O31: the text decodes, so its bytes fill the decoded size. -/
theorem decodeUndoesEncode : Obligations.DecodeUndoesEncode := by
  intro url np d
  have hdec : decodeFn (encodeFn url np d) = ⟨false, false, d⟩ := by
    cases np with
    | false => rw [decodeFn_encodeFn_padded, decodeFn_encodeFn_unpadded]
    | true => exact decodeFn_encodeFn_unpadded url d
  have hsize := (decodeWritesAtMostTheDecodedSize (encodeFn url np d)).2
  rw [hdec] at hsize
  exact ⟨hdec, (hsize rfl).symm⟩

end Sys2Proof.Machine
end

section
/-! PROOFS. The size functions on texts without pads, on whole and leftover blocks, and inside their domain
(43_size_functions.md R163 to R166, R168). -/

namespace Sys2Proof.Machine

/-! ## Texts without pads -/

/-- A text that holds no pad has no pads to count (43_size_functions.md R161). -/
theorem padCount_of_unpadded {t : List Byte} (h : padChar ∉ t) : padCount t = 0 := by
  by_cases h0 : t.length = 0
  · exact if_pos (.inl h0)
  · have hlt : t.length - 1 < t.length := by omega
    have hlast : t.getD (t.length - 1) 0 ≠ padChar := by
      rw [List.getD_eq_getElem _ _ hlt]
      exact ne_of_mem_of_not_mem (List.getElem_mem hlt) h
    exact if_pos (.inr hlast)

/-- Pads only shorten what is decoded (43_size_functions.md R163). -/
theorem decodedSize_le_decodedSizeNopad (t : List Byte) : decodedSize t ≤ decodedSizeNopad t.length :=
  Nat.div_le_div_right (Nat.mul_le_mul_right 3 (Nat.sub_le _ _))

/-- Without pads the length alone gives the decoded size (43_size_functions.md R163). -/
theorem decodedSize_of_unpadded {t : List Byte} (h : padChar ∉ t) : decodedSize t = decodedSizeNopad t.length := by
  rw [decodedSize, padCount_of_unpadded h, Nat.sub_zero, decodedSizeNopad]

/-- Settles O34: a text that decodes fills its decoded size, which counts no pads. -/
theorem unpaddedSizeIsAnUpperBound : Obligations.UnpaddedSizeIsAnUpperBound := by
  refine fun t => ⟨rfl, decodedSize_le_decodedSizeNopad t, fun hinv hpad => ?_⟩
  rw [(decodeWritesAtMostTheDecodedSize t).2 hinv, decodedSize_of_unpadded hpad]

/-! ## Whole and leftover blocks -/

/-- Four characters for each of `q` full blocks (43_size_functions.md R165). -/
theorem encodedSizeNopad_full (q : Nat) : encodedSizeNopad (3 * q) = 4 * q := by
  rw [encodedSizeNopad, if_neg (by omega), if_neg (by omega), encodedSize]
  omega

/-- Two characters more for one leftover byte (43_size_functions.md R165). -/
theorem encodedSizeNopad_one (q : Nat) : encodedSizeNopad (3 * q + 1) = 4 * q + 2 := by
  have hmod : (3 * q + 1) % 3 = 1 := by omega
  rw [encodedSizeNopad, if_pos hmod, encodedSize]
  omega

/-- Three characters more for two leftover bytes (43_size_functions.md R165). -/
theorem encodedSizeNopad_two (q : Nat) : encodedSizeNopad (3 * q + 2) = 4 * q + 3 := by
  have hmod : (3 * q + 2) % 3 = 2 := by omega
  rw [encodedSizeNopad, if_neg (by omega), if_pos hmod, encodedSize]
  omega

/-- Settles O35, by the bytes left over after the full blocks. -/
theorem unpaddedSizesAreInverse : Obligations.UnpaddedSizesAreInverse := by
  intro n
  have hmod : n = 3 * (n / 3) ∨ n = 3 * (n / 3) + 1 ∨ n = 3 * (n / 3) + 2 := by omega
  generalize n / 3 = q at hmod
  obtain rfl | rfl | rfl := hmod
  · rw [encodedSizeNopad_full, decodedSizeNopad]
    omega
  · rw [encodedSizeNopad_one, decodedSizeNopad]
    omega
  · rw [encodedSizeNopad_two, decodedSizeNopad]
    omega

/-! ## The domain -/

/-- The narrowest engine has addresses of 8 bits (00_scope.md R7). -/
theorem le_maxAddr (aw : AddrWidth) : 255 ≤ maxAddr aw :=
  Nat.sub_le_sub_right (Nat.pow_le_pow_right Nat.two_pos aw.atLeast8) 1

/-- Inside the domain of the encoded sizes the sum and the product of R164 do not exceed `MAX_ADDR`; the
rounding up to a whole block needs `AW` to be at least 8 (43_size_functions.md R166). -/
theorem encodedSize_le_maxAddr {aw : AddrWidth} {len : Nat} (h : len ≤ maxAddr aw / 4) :
    len + 2 ≤ maxAddr aw ∧ encodedSize len ≤ maxAddr aw := by
  have hmax := le_maxAddr aw
  rw [encodedSize]
  omega

/-- Settles O33: the values are the functions' definitions, the bounds follow from those of the domain. -/
theorem sizesHaveTheirDomain : Obligations.SizesHaveTheirDomain := fun _ _ _ =>
  ⟨rfl, rfl, rfl, rfl, encodedSize_le_maxAddr, (Nat.le_div_iff_mul_le (by decide)).1⟩

end Sys2Proof.Machine
end

section
/-! PROOFS. The two engines side by side (60_exceptions.md R187; 20_memory.md R66): a turn of a running call is one
new bank and one write inside its own output, both fixed by its bank and its input. Neither engine writes in what
the other reads or writes, so their turns commute. -/

namespace Sys2Proof.Machine

/-- The turn of DEC from `s` leaves the bank `d` and writes `bs` at the output cursor, beside every E bank and in
every memory that holds the same text. -/
def DecTurnGives (s : State) (d : DBank) (bs : List Byte) : Prop :=
  ∀ (m : Memory) (e : EBank),
    (∀ x, (decodeCall s).input.holds x = true → m.read x = s.mem.read x) →
    decStep { s with mem := m, e := e } = .next { s with mem := m.writeBytes (decOutput s) bs, d := d, e := e }

/-- The turn of ENC from `s` leaves the bank `e` and writes `cs` at the output cursor, beside every D bank and in
every memory that holds the same data. -/
def EncTurnGives (s : State) (e : EBank) (cs : List Byte) : Prop :=
  ∀ (m : Memory) (d : DBank),
    (∀ x, (encodeCall s s.e.enp).input.holds x = true → m.read x = s.mem.read x) →
    encStep { s with mem := m, d := d } = .next { s with mem := m.writeBytes (encOutput s) cs, d := d, e := e }

/-- A memory that holds the same range gives the same bytes from inside that range. -/
theorem readBytes_eq_of_holds {m n : Memory} {r : Region} (h : ∀ x, r.holds x = true → m.read x = n.read x)
    {a k : Nat} (ha : r.base ≤ a) (hk : a + k ≤ r.base + r.len) : m.readBytes a k = n.readBytes a k :=
  readBytes_congr fun x h1 h2 => h x (holds_iff.2 ⟨ha.trans h1, Nat.lt_of_lt_of_le h2 hk⟩)

/-- A memory that holds the same text gives DEC the same characters. -/
theorem decode_bytes_congr {s : State} (hr : DecodeRuns s) {m : Memory}
    (hm : ∀ x, (decodeCall s).input.holds x = true → m.read x = s.mem.read x) {k : Nat} (hk : k ≤ decRem s) :
    m.readBytes (decInput s) k = s.mem.readBytes (decInput s) k := by
  have hcursor := hr.cursor
  refine readBytes_eq_of_holds hm (Nat.le_add_right _ _) ?_
  change s.d.dsrc.val.toNat + s.d.didx.toNat + k ≤ s.d.dsrc.val.toNat + s.d.dlen.val.toNat
  unfold decRem at hk
  omega

/-- A memory that holds the same data gives ENC the same bytes. -/
theorem encode_bytes_congr {s : State} (hr : EncodeRuns s) {m : Memory}
    (hm : ∀ x, (encodeCall s s.e.enp).input.holds x = true → m.read x = s.mem.read x) {k : Nat}
    (hk : k ≤ encRem s) : m.readBytes (encInput s) k = s.mem.readBytes (encInput s) k := by
  have hcursor := hr.cursor
  refine readBytes_eq_of_holds hm (Nat.le_add_right _ _) ?_
  change s.e.esrc.val.toNat + s.e.eidx.toNat + k ≤ s.e.esrc.val.toNat + s.e.elen.val.toNat
  unfold encRem at hk
  omega

/-- A memory that holds the same text gives a `DECODE` the same buffers. -/
theorem decodeCall_of_same_text {s : State} {m : Memory} (e : EBank)
    (hm : ∀ x, (decodeCall s).input.holds x = true → m.read x = s.mem.read x) :
    decodeCall { s with mem := m, e := e } = decodeCall s :=
  decodeCall_congr rfl rfl rfl fun x h1 h2 => hm x (holds_iff.2 ⟨h1, h2⟩)

/-- An interior turn of a running `DECODE` reads its own block alone. -/
theorem decTurnGives_interior {s : State} {u : List Region} (hb : s.d.dphase = .busy) (hr : DecodeRuns s)
    (hs : (decodeCall s).Sound s.aw u) (h4 : 4 < decRem s) :
    DecTurnGives s (afterInterior s).d (nextInterior s).out := by
  intro m e hm
  have hcall := decodeCall_of_same_text e hm
  have hnext : nextInterior { s with mem := m, e := e } = nextInterior s :=
    congrArg (interiorBlock s.d.dbad) (decode_bytes_congr hr hm (Nat.le_of_lt h4))
  rw [decStep_of_runs_interior (s := { s with mem := m, e := e }) hb
    (decodeRuns_congr (s := s) rfl rfl hcall hr) (hcall ▸ hs) h4, afterInterior, hnext]
  rfl

/-- The final turn of a running `DECODE` reads the rest of its text alone. -/
theorem decTurnGives_final {s : State} {u : List Region} (hb : s.d.dphase = .busy) (hr : DecodeRuns s)
    (hs : (decodeCall s).Sound s.aw u) (h4 : decRem s ≤ 4) :
    DecTurnGives s (decodeEnd s (decodeBlocks s.d.dbad (decodeLeft s))).d
      (decodeBlocks s.d.dbad (decodeLeft s)).out := by
  intro m e hm
  have hcall := decodeCall_of_same_text e hm
  have hleft : decodeLeft { s with mem := m, e := e } = decodeLeft s :=
    decode_bytes_congr hr hm (Nat.le_refl _)
  rw [(decStep_of_runs_final (s := { s with mem := m, e := e }) hb
    (decodeRuns_congr (s := s) rfl rfl hcall hr) (hcall ▸ hs) h4).1, hleft]
  rfl

/-- A full-block turn of a running `ENCODE` reads its own block alone. -/
theorem encTurnGives_full {s : State} {u : List Region} (hb : s.e.ephase = .busy) (hr : EncodeRuns s)
    (hs : (encodeCall s s.e.enp).Sound s.aw u) (h3 : 3 ≤ encRem s) :
    EncTurnGives s (afterFull s).e (nextFull s) := by
  intro m d hm
  have hnext : nextFull { s with mem := m, d := d } = nextFull s :=
    congrArg (fullBlock s.e.eurl) (encode_bytes_congr hr hm h3)
  rw [encStep_of_runs_full (s := { s with mem := m, d := d }) hb (encodeRuns_congr (s := s) rfl rfl hr) hs h3,
    afterFull, hnext]
  rfl

/-- The final turn of a running `ENCODE` reads the leftover bytes alone. -/
theorem encTurnGives_final {s : State} {u : List Region} (hb : s.e.ephase = .busy) (hr : EncodeRuns s)
    (hs : (encodeCall s s.e.enp).Sound s.aw u) (h3 : encRem s < 3) :
    EncTurnGives s (encodeEnd s (encodeFn s.e.eurl s.e.enp (encodeLeft s))).e
      (encodeFn s.e.eurl s.e.enp (encodeLeft s)) := by
  intro m d hm
  have hleft : encodeLeft { s with mem := m, d := d } = encodeLeft s :=
    encode_bytes_congr hr hm (Nat.le_refl _)
  rw [(encStep_of_runs_final (s := { s with mem := m, d := d }) hb
    (encodeRuns_congr (s := s) rfl rfl hr) hs h3).1, hleft]
  rfl

/-- The turn of a running `DECODE` gives one bank and one write, which fits in its output. -/
theorem decTurnGives_of_inv {s : State} (hi : Inv s) (hb : s.d.dphase = .busy) :
    ∃ d bs, DecTurnGives s d bs ∧ s.d.doutlen.toNat + bs.length ≤ (decodeCall s).output.len := by
  have hr := hi.decoding hb
  have hs := running_decode_sound hi hb
  rcases Nat.lt_or_ge 4 (decRem s) with h4 | h4
  · exact ⟨_, _, decTurnGives_interior hb hr hs h4, (interior_block_has_room hr h4).1⟩
  · exact ⟨_, _, decTurnGives_final hb hr hs h4, (decStep_of_runs_final hb hr hs h4).2⟩

/-- The turn of a running `ENCODE` gives one bank and one write, which fits in its output. -/
theorem encTurnGives_of_inv {s : State} (hi : Inv s) (hb : s.e.ephase = .busy) :
    ∃ e cs, EncTurnGives s e cs ∧ s.e.eoutlen.toNat + cs.length ≤ (encodeCall s s.e.enp).output.len := by
  have hr := hi.encoding hb
  have hs := running_encode_sound hi hb
  rcases Nat.lt_or_ge (encRem s) 3 with h3 | h3
  · exact ⟨_, _, encTurnGives_final hb hr hs h3, (encStep_of_runs_final hb hr hs h3).2⟩
  · exact ⟨_, _, encTurnGives_full hb hr hs h3, full_block_has_room hr h3⟩

/-- Writes inside the output of a running `DECODE` leave every range apart from that output. -/
theorem decWrites_keeps_apart {s : State} {bs : List Byte} {q : Region}
    (hd : (decodeCall s).output.disjoint q = true)
    (hroom : s.d.doutlen.toNat + bs.length ≤ (decodeCall s).output.len)
    {x : Nat} (hx : q.holds x = true) : (decWrites s bs).read x = s.mem.read x := by
  obtain ⟨h1, h2⟩ := holds_iff.1 hx
  refine read_writeBytes_apart hd (Nat.le_add_right _ _) ?_ h1 h2
  change decOutput s + bs.length ≤ s.d.ddst.val.toNat + (decodeCall s).output.len
  unfold decOutput
  omega

/-- Writes of the two engines inside disjoint outputs in memory commute. -/
theorem decWrites_encWrites_comm {s : State} (hi : Inv s) (hd : s.d.dphase = .busy) (he : s.e.ephase = .busy)
    (hapart : (decodeCall s).output.disjoint (encodeCall s s.e.enp).output = true) {bs cs : List Byte}
    (hbs : s.d.doutlen.toNat + bs.length ≤ (decodeCall s).output.len)
    (hcs : s.e.eoutlen.toNat + cs.length ≤ (encodeCall s s.e.enp).output.len) :
    (decWrites s bs).writeBytes (encOutput s) cs = (encWrites s cs).writeBytes (decOutput s) bs := by
  have hdmem := decode_output_in_memory hi hd
  have hemem := encode_output_in_memory hi he
  have hranges : (decodeCall s).output.len = 0 ∨ (encodeCall s s.e.enp).output.len = 0 ∨
      s.d.ddst.val.toNat + (decodeCall s).output.len ≤ s.e.edst.val.toNat ∨
      s.e.edst.val.toNat + (encodeCall s s.e.enp).output.len ≤ s.d.ddst.val.toNat := disjoint_iff.1 hapart
  refine writeBytes_comm hi.memory (.inr ?_) (.inr ?_) ?_
  · unfold decOutput
    omega
  · unfold encOutput
    omega
  · rw [← List.length_eq_zero_iff, ← List.length_eq_zero_iff]
    unfold decOutput encOutput
    omega

/-- Settles O55: each turn leaves the other engine's input, and the two writes commute. -/
theorem engineStepsCommute : Obligations.EngineStepsCommute := by
  intro s hi hd he
  obtain ⟨d, bs, hdec, hbs⟩ := decTurnGives_of_inv hi hd
  obtain ⟨e, cs, henc, hcs⟩ := encTurnGives_of_inv hi he
  have hcomp := hi.together hd he
  simp only [Call.compatible, Bool.and_eq_true] at hcomp
  obtain ⟨⟨hdata, houtputs⟩, htext⟩ := hcomp
  refine ⟨_, _, _, hdec s.mem s.e fun _ _ => rfl, henc s.mem s.d fun _ _ => rfl,
    henc (decWrites s bs) d fun _ => decWrites_keeps_apart hdata hbs, ?_⟩
  rw [decWrites_encWrites_comm hi hd he houtputs hbs hcs]
  refine hdec (encWrites s cs) e fun x hx => ?_
  obtain ⟨h1, h2⟩ := holds_iff.1 hx
  exact encWrites_keeps_apart htext hcs h1 h2

end Sys2Proof.Machine
end

section
/-! PROOFS. The one error of the engine (60_exceptions.md R175, R184): which transitions can raise `INV`, and that
encode has none. -/

namespace Sys2Proof.Machine

/-- A turn of ENC leaves `INV`. -/
theorem encStep_keeps_inv_bit {s t : State} (h : encStep s = .next t) : t.d.inv = s.d.inv :=
  congrArg DBank.inv (encStep_keeps_system h).1

/-- Settles O59: `ESTATUS` shows no `INV`, and neither a turn of ENC nor an encode command touches the D bank. -/
theorem encodeHasNoError : Obligations.EncodeHasNoError := by
  refine ⟨fun e => ?_, fun _ _ => encStep_keeps_inv_bit, fun s t url np h => ?_, fun s t url h => ?_⟩
  · unfold estatus
    cases e.ephase <;> decide
  · exact congrArg DBank.inv (exec_encode_keeps_dBank h ⟨url, np, .inl rfl⟩).1
  · exact congrArg DBank.inv (exec_encode_keeps_dBank h ⟨url, false, .inr rfl⟩).1

/-- The only command that raises `INV` is `DEC4`: the acceptance of a `DECODE` clears it (41_decode.md R114). -/
theorem exec_raises_inv {i : Instr} {s t : State} (h : exec i s = .next t) (h0 : s.d.inv = false)
    (h1 : t.d.inv = true) : i = .dec4 := by
  obtain ⟨-, -, -, -, rfl⟩ | ⟨rfl, -⟩ | ⟨url, np, rfl, -⟩ | ⟨url, -, rfl, -⟩ := exec_cases h
  · exact nomatch h1
  · rfl
  · exact absurd h1 (by simp [exec_encode_keeps_dBank h ⟨url, np, .inl rfl⟩, h0])
  · exact absurd h1 (by simp [exec_encode_keeps_dBank h ⟨url, false, .inr rfl⟩, h0])

/-- The only register write that raises `INV` is that of the byte of `DEC4` to `CMD`. -/
theorem regWrite_raises_inv {n : Nat} {v : RegVal} {s t : State} (h : regWrite n v s = .next t)
    (h0 : s.d.inv = false) (h1 : t.d.inv = true) : n = 0 ∧ v = .byte 0x02 := by
  obtain ⟨rfl, b, i, rfl, hi, hx⟩ | ⟨-, _, -, -, ⟨-, rfl⟩ | ⟨-, rfl⟩ | ⟨-, rfl⟩⟩ | ⟨-, -, _, -, rfl⟩ |
    ⟨-, _, -, -, ⟨-, rfl⟩ | ⟨-, rfl⟩ | ⟨-, rfl⟩⟩ | ⟨-, -, _, -, rfl⟩ := regWrite_cases h
  · obtain rfl := exec_raises_inv hx h0 h1
    exact ⟨rfl, congrArg RegVal.byte (eq_encode_iff.2 (decodeCommand_eq_ok_iff.1 hi))⟩
  all_goals exact absurd (h0.symm.trans h1) Bool.false_ne_true

/-- The only turn of DEC that raises `INV` is the final step of a call. -/
theorem decStep_raises_inv {s t : State} (h : decStep s = .next t) (h0 : s.d.inv = false)
    (h1 : t.d.inv = true) : s.d.dphase = .busy ∧ decRem s ≤ 4 ∧ t.d.dphase = .done := by
  obtain ⟨-, rfl⟩ | ⟨-, -, -, -, rfl⟩ | ⟨hb, hr, rfl⟩ | ⟨hb, -, hr, -, -, rfl⟩ := decStep_cases h
  · exact absurd (h0.symm.trans h1) Bool.false_ne_true
  · exact absurd (h0.symm.trans h1) Bool.false_ne_true
  · exact ⟨hb, by omega, rfl⟩
  · exact ⟨hb, hr, rfl⟩

/-- The only events that raise `INV` are the write of the byte of `DEC4` and the final step of a `DECODE`. -/
theorem perform_raises_inv {ev : Event} {s t : State} (h : perform ev s = .next t) (h0 : s.d.inv = false)
    (h1 : t.d.inv = true) :
    ev = .regWrite 0 (.byte 0x02) ∨ (s.d.dphase = .busy ∧ decRem s ≤ 4 ∧ t.d.dphase = .done) := by
  have kept (hk : t.d.inv = s.d.inv) : False := Bool.false_ne_true (h0.symm.trans (hk.symm.trans h1))
  cases ev with
  | regRead n => obtain ⟨_, _, _, _, rfl, -⟩ := regRead_cases h; exact (kept rfl).elim
  | regWrite n v =>
    obtain ⟨rfl, rfl⟩ := regWrite_raises_inv h h0 h1
    exact .inl rfl
  | memRead a => obtain rfl := hostMemRead_next h; exact (kept rfl).elim
  | memWrite a b => obtain ⟨-, -, rfl⟩ := hostMemWrite_next h; exact (kept rfl).elim
  | setUnowned rs => obtain ⟨-, rfl⟩ := setUnowned_next h; exact (kept rfl).elim
  | decTurn => exact .inr (decStep_raises_inv h h0 h1)
  | encTurn => exact (kept (encStep_keeps_inv_bit h)).elim
  | reset => obtain rfl := Host.Outcome.next.inj h; exact nomatch h1

/-- Settles O58: of all that a step can be, two transitions raise `INV`. -/
theorem onlyDec4AndFinalStepRaiseInvalidEncoding : Obligations.OnlyDec4AndFinalStepRaiseInvalidEncoding := by
  intro s t h h0 h1
  obtain ⟨ev, evs, hpend, hp⟩ | ⟨-, k, hd | he⟩ := step_cases h
  · obtain rfl | hfinal := perform_raises_inv hp h0 h1
    · exact .inl ⟨evs, hpend⟩
    · exact .inr hfinal
  · exact .inr (decStep_raises_inv (s := { s with free := k }) hd h0 h1)
  · exact absurd (h0.symm.trans ((encStep_keeps_inv_bit he).symm.trans h1)) Bool.false_ne_true

end Sys2Proof.Machine
end

section
/-! PROOFS. Progress, the end of a call, and RESET (70_reset_and_hazards.md R195, R197, R210): a running call's turn
is never stopped and shortens what is left or ends the call; nothing else but `RESET` touches a BUSY bank. -/

namespace Sys2Proof.Machine

/-! ## Progress -/

/-- Settles O54: the invariant keeps the ranges of a BUSY engine's next block inside memory, so its turn completes;
an interior (full-block) turn moves the input cursor on by a block, every other turn ends the call. -/
theorem busyEnginesAlwaysProgress : Obligations.BusyEnginesAlwaysProgress := by
  intro s hi
  constructor
  · intro hb
    have hr := hi.decoding hb
    have hs := running_decode_sound hi hb
    rcases Nat.lt_or_ge 4 (decRem s) with h4 | h4
    · have hrem := (afterInterior_left hr hs h4).1
      exact ⟨_, decStep_of_runs_interior hb hr hs h4, .inr ⟨hb, by omega⟩⟩
    · exact ⟨_, (decStep_of_runs_final hb hr hs h4).1, .inl rfl⟩
  · intro hb
    have hr := hi.encoding hb
    have hs := running_encode_sound hi hb
    rcases Nat.lt_or_ge (encRem s) 3 with h3 | h3
    · exact ⟨_, (encStep_of_runs_final hb hr hs h3).1, .inl rfl⟩
    · have hrem := (afterFull_left hr hs h3).1
      exact ⟨_, encStep_of_runs_full hb hr hs h3, .inr ⟨hb, by omega⟩⟩

/-! ## The end of a call -/

/-- A turn of DEC that leaves BUSY is the final step of its call (41_decode.md R122). -/
theorem decStep_ends {s t : State} (h : decStep s = .next t) (hb : s.d.dphase = .busy) (ht : t.d.dphase ≠ .busy) :
    t.d.dphase = .done ∧ decRem s ≤ 4 := by
  obtain ⟨hnb, -⟩ | ⟨-, -, -, -, rfl⟩ | ⟨-, h0, rfl⟩ | ⟨-, -, h4, -, -, rfl⟩ := decStep_cases h
  · exact absurd hb hnb
  · exact absurd hb ht
  · exact ⟨rfl, by omega⟩
  · exact ⟨rfl, h4⟩

/-- A turn of ENC that leaves BUSY is the final step of its call (42_encode.md R148). -/
theorem encStep_ends {s t : State} (h : encStep s = .next t) (hb : s.e.ephase = .busy) (ht : t.e.ephase ≠ .busy) :
    t.e.ephase = .done ∧ encRem s < 3 := by
  obtain ⟨hnb, -⟩ | ⟨-, -, -, -, rfl⟩ | ⟨-, h0, rfl⟩ | ⟨-, -, h3, -, -, rfl⟩ := encStep_cases h
  · exact absurd hb hnb
  · exact absurd hb ht
  · exact ⟨rfl, by omega⟩
  · exact ⟨rfl, h3⟩

/-- Every bank that is BUSY in `s` is the same in `t`. -/
def KeepsBusyBanks (s t : State) : Prop :=
  (s.d.dphase = .busy → t.d = s.d) ∧ (s.e.ephase = .busy → t.e = s.e)

/-- What changes neither bank keeps the BUSY ones. -/
theorem keepsBusyBanks_of_eq {s t : State} (hd : t.d = s.d) (he : t.e = s.e) : KeepsBusyBanks s t :=
  ⟨fun _ => hd, fun _ => he⟩

/-- What changes only a D bank that is not BUSY keeps the BUSY ones. -/
theorem keepsBusyBanks_of_dBank {s t : State} (hnb : s.d.dphase ≠ .busy) (he : t.e = s.e) : KeepsBusyBanks s t :=
  ⟨fun hb => absurd hb hnb, fun _ => he⟩

/-- What changes only an E bank that is not BUSY keeps the BUSY ones. -/
theorem keepsBusyBanks_of_eBank {s t : State} (hnb : s.e.ephase ≠ .busy) (hd : t.d = s.d) : KeepsBusyBanks s t :=
  ⟨fun _ => hd, fun hb => absurd hb hnb⟩

/-- No command changes a BUSY bank (30_encoding.md R82). -/
theorem exec_keepsBusyBanks {i : Instr} {s t : State} (h : exec i s = .next t) : KeepsBusyBanks s t := by
  obtain ⟨-, hnb, -, -, rfl⟩ | ⟨-, hnb, -, rfl⟩ | ⟨_, _, -, hnb, -, -, rfl⟩ | ⟨_, _, -, hnb, -, rfl⟩ := exec_cases h
  · exact keepsBusyBanks_of_dBank hnb (acceptDecode_e ..)
  · exact keepsBusyBanks_of_dBank hnb (finishDec4_e ..)
  · exact keepsBusyBanks_of_eBank hnb (acceptEncode_d ..)
  · exact keepsBusyBanks_of_eBank hnb (finishEnc3_d ..)

/-- No register write changes a BUSY bank (10_state.md R44). -/
theorem regWrite_keepsBusyBanks {n : Nat} {v : RegVal} {s t : State} (h : regWrite n v s = .next t) :
    KeepsBusyBanks s t := by
  obtain ⟨-, _, _, -, -, hx⟩ | ⟨hnb, _, -, -, hd⟩ | ⟨hnb, -, _, -, rfl⟩ | ⟨hnb, _, -, -, he⟩ | ⟨hnb, -, _, -, rfl⟩ :=
    regWrite_cases h
  · exact exec_keepsBusyBanks hx
  · refine keepsBusyBanks_of_dBank hnb ?_
    obtain ⟨-, rfl⟩ | ⟨-, rfl⟩ | ⟨-, rfl⟩ := hd <;> rfl
  · exact keepsBusyBanks_of_dBank hnb rfl
  · refine keepsBusyBanks_of_eBank hnb ?_
    obtain ⟨-, rfl⟩ | ⟨-, rfl⟩ | ⟨-, rfl⟩ := he <;> rfl
  · exact keepsBusyBanks_of_eBank hnb rfl

/-- What an event is to a BUSY bank: nothing, a turn of an engine, or `RESET` (70_reset_and_hazards.md R210). -/
theorem perform_on_busy_banks {ev : Event} {s t : State} (h : perform ev s = .next t) :
    KeepsBusyBanks s t ∨ (ev = .decTurn ∧ decStep s = .next t) ∨ (ev = .encTurn ∧ encStep s = .next t) ∨
      (ev = .reset ∧ t = resetEngine s) := by
  cases ev with
  | regRead n => obtain ⟨_, _, _, _, rfl, -⟩ := regRead_cases h; exact .inl (keepsBusyBanks_of_eq rfl rfl)
  | regWrite n v => exact .inl (regWrite_keepsBusyBanks h)
  | memRead a => obtain rfl := hostMemRead_next h; exact .inl (keepsBusyBanks_of_eq rfl rfl)
  | memWrite a b => obtain ⟨-, -, rfl⟩ := hostMemWrite_next h; exact .inl (keepsBusyBanks_of_eq rfl rfl)
  | setUnowned rs => obtain ⟨-, rfl⟩ := setUnowned_next h; exact .inl (keepsBusyBanks_of_eq rfl rfl)
  | decTurn => exact .inr (.inl ⟨rfl, h⟩)
  | encTurn => exact .inr (.inr (.inl ⟨rfl, h⟩))
  | reset => exact .inr (.inr (.inr ⟨rfl, (Host.Outcome.next.inj h).symm⟩))

/-- What a step is to a BUSY bank: nothing, a turn of an engine that the schedule grants, or `RESET`. -/
theorem step_on_busy_banks {s t : State} (h : step s = .next t) :
    KeepsBusyBanks s t ∨
    ((s.pending = [] ∨ ∃ evs, s.pending = .decTurn :: evs) ∧
      ∃ k evs, decStep { s with free := k, pending := evs } = .next t) ∨
    ((s.pending = [] ∨ ∃ evs, s.pending = .encTurn :: evs) ∧
      ∃ k evs, encStep { s with free := k, pending := evs } = .next t) ∨
    ((∃ evs, s.pending = .reset :: evs) ∧ t.d = .reset ∧ t.e = .reset) := by
  obtain ⟨ev, evs, hpend, hp⟩ | ⟨hpend, k, hd | he⟩ := step_cases h
  · obtain hk | ⟨rfl, hd⟩ | ⟨rfl, he⟩ | ⟨rfl, rfl⟩ := perform_on_busy_banks hp
    · exact .inl hk
    · exact .inr (.inl ⟨.inr ⟨evs, hpend⟩, s.free, evs, hd⟩)
    · exact .inr (.inr (.inl ⟨.inr ⟨evs, hpend⟩, s.free, evs, he⟩))
    · exact .inr (.inr (.inr ⟨⟨evs, hpend⟩, rfl, rfl⟩))
  · exact .inr (.inl ⟨.inl hpend, k, s.pending, hd⟩)
  · exact .inr (.inr (.inl ⟨.inl hpend, k, s.pending, he⟩))

/-- Settles O57: a BUSY bank changes by a turn of its own engine or by `RESET`, and the turn that ends the call is
the final step. -/
theorem onlyFinalStepOrResetEndsACall : Obligations.OnlyFinalStepOrResetEndsACall := by
  intro s t h
  obtain ⟨hkd, hke⟩ | ⟨hpend, k, evs, hd⟩ | ⟨hpend, k, evs, he⟩ | ⟨hpend, htd, hte⟩ := step_on_busy_banks h
  · exact ⟨fun hb ht => absurd (hkd hb ▸ hb) ht, fun hb ht => absurd (hke hb ▸ hb) ht⟩
  · refine ⟨fun hb ht => .inr ?_, fun hb ht => ?_⟩
    · obtain ⟨hdone, h4⟩ := decStep_ends hd hb ht
      exact ⟨hdone, h4, hpend⟩
    · exact absurd ((decStep_keeps_system hd).1 ▸ hb) ht
  · refine ⟨fun hb ht => ?_, fun hb ht => .inr ?_⟩
    · exact absurd ((encStep_keeps_system he).1 ▸ hb) ht
    · obtain ⟨hdone, h3⟩ := encStep_ends he hb ht
      exact ⟨hdone, h3, hpend⟩
  · exact ⟨fun _ _ => .inl ⟨htd ▸ rfl, hpend⟩, fun _ _ => .inl ⟨hte ▸ rfl, hpend⟩⟩

/-! ## RESET -/

/-- Settles O44: the event is `resetEngine`, which sets both banks to their reset values and gives every buffer
back. -/
theorem resetEventResetsTheEngine : Obligations.ResetEventResetsTheEngine := by
  intro s evs hp
  refine ⟨resetEngine { s with pending := evs }, step_of_pending hp, ?_⟩
  simp [DBank.reset, EBank.reset]

end Sys2Proof.Machine
end

section
/-! PROOFS. Data and texts cut at block boundaries (70_reset_and_hazards.md R207): whole blocks in front are coded
as they would be alone. -/

namespace Sys2Proof.Machine

/-- Whole blocks of data are encoded as they would be alone. -/
theorem encodeFn_append (url np : Bool) {a : List Byte} (b : List Byte) (h : a.length % 3 = 0) :
    encodeFn url np (a ++ b) = encodeFn url np a ++ encodeFn url np b := by
  induction a using data_induction with
  | nil => rfl
  | one b0 => exact nomatch h
  | two b0 b1 => exact nomatch h
  | full b0 b1 b2 d ih =>
    have hd : d.length % 3 = 0 := (Nat.add_mod_right d.length 3).symm.trans h
    rw [List.append_assoc, encodeFn_full _ _ _ rfl, ih hd, encodeFn_full _ _ _ rfl, List.append_assoc]

/-- A text that decodes and shows no pad is data characters throughout (41_decode.md R128). -/
theorem dataText_of_unpadded {t : List Byte} (hinv : (decodeFn t).inv = false) (hp : padChar ∉ t) : DataText t := by
  obtain ⟨ds, pads, rfl, hd, -, rfl | ⟨rfl, -⟩ | ⟨rfl, -⟩⟩ := (validTextsAreExactlyTheOnesThatDecode t).1 hinv
  · rwa [List.append_nil]
  · exact absurd (by simp) hp
  · exact absurd (by simp) hp

/-- Whole blocks of data characters are decoded as they would be alone, and leave the results to what follows. -/
theorem decodeFn_append_of_data {a : List Byte} (b : List Byte) (h : a.length % 4 = 0) (hd : DataText a) :
    decodeFn (a ++ b) = ⟨(decodeFn b).dbad, (decodeFn b).inv, (decodeFn a).out ++ (decodeFn b).out⟩ := by
  induction a using text_induction with
  | final bs hlen =>
    obtain h0 | h4 : bs.length = 0 ∨ bs.length = 4 := by omega
    · obtain rfl := List.eq_nil_of_length_eq_zero h0
      rfl
    · have halone := decodeFn_data_append h4 hd []
      rw [List.append_nil] at halone
      rw [decodeFn_data_append h4 hd, halone]
      simp [decodeFn, decodeBlocks]
  | bad bs cs _ _ hbs => exact absurd (List.forall_mem_append.1 hd).1 hbs
  | data bs cs h4 _ hbs ih =>
    rw [List.length_append, h4, Nat.add_mod_left] at h
    rw [List.append_assoc, decodeFn_data_append h4 hbs, ih h (List.forall_mem_append.1 hd).2,
      decodeFn_data_append h4 hbs, List.append_assoc]

/-- Settles O32: both functions work off whole blocks in front, which in a decodable text without pads are blocks of
data characters. -/
theorem piecesCutAtBlocksCodeSeparately : Obligations.PiecesCutAtBlocksCodeSeparately :=
  ⟨fun url np _ b h => encodeFn_append url np b h,
    fun _ b h hp hinv => decodeFn_append_of_data b h (dataText_of_unpadded hinv hp)⟩

end Sys2Proof.Machine
end
